-- ==== Sys2Proof/Word.lean ====
section
/-! DEFINITION. The word types of SIVCORE (spec/00_scope.md R10, spec/30_encoding.md R100, R101). -/

namespace Sys2Proof

/-- 8 bits, bit 7 most significant (R10). -/
abbrev Byte := BitVec 8

/-- A 32-bit control word: a command word, an address, a length (R100). -/
abbrev Word := BitVec 32

/-- A block of 16 bytes as the number `val(b)` of R10: byte 0 is the most significant. -/
abbrev Block := BitVec 128

/-- The 4-bit register field of a command word (R101); a used one holds 0 to 7 (R103). -/
abbrev Reg := BitVec 4

end Sys2Proof
end

