-- ==== Sys2Proof/Config.lean ====
section
/-! DEFINITION. The fixed parameters of SIVCORE (spec/00_scope.md R6) and what the spec leaves open as a
constant: the functions `E` and `CMAC`, and the free values. -/

namespace Sys2Proof.Config

/-- `BLK` (R6): bytes in a block. -/
def blk : Nat := 16

/-- `KEYSIZES` (R6): the key sizes `E` accepts; the AEAD key is twice one of them. -/
def keySizes : List Nat := [16, 24, 32]

/-- `2^ADDR_W` (R6, R60): the number of DMA byte addresses. -/
def addrSpace : Nat := 2 ^ 32

/-- `MAX_FIELDS` (R6). -/
def maxFields : Nat := 127

/-- `MAX_LEN` (R6). -/
def maxLen : Nat := 2 ^ 24 - 1

/-- Bytes of the MMIO window (spec/10_state.md R30). -/
def windowBytes : Nat := 64

/-- The nonce size, a fixed property of the AEAD (R7). -/
def nonceSize : Nat := 0

/-- The constant of the ID register (spec/10_state.md R32). -/
def idValue : Word := 0x53495631

/-- The block cipher `E(k, x)` (R8): total and deterministic, nothing else is assumed (assumption 2). -/
opaque E : List Byte → Block → Block

/-- The MAC function `CMAC(k, m)` (R9): total and deterministic, nothing else is assumed (assumption 2). -/
opaque CMAC : List Byte → List Byte → Block

/-- Which access of one step draws a free byte: each kind draws its own bytes (assumption 4). -/
inductive Access where
  | fetch           -- the 16 bytes of the command
  | table           -- the descriptor table
  | data (k : Nat)  -- operand or field number `k` of the command
  | again           -- OPEN's second pass over the ciphertext
  | leftover        -- destination bytes of a write that did not complete
  | host            -- a load of the host
  deriving DecidableEq, Repr

/-- The free bytes of 93_implementation_defined.md I1, I2 and I4: nothing is known of their values (assumption 4).
The arguments are the draw counter of State, the access that draws, and the address. -/
opaque freeByte : Nat → Access → Nat → Byte

/-- The free choice of 93_implementation_defined.md I3, which refused address a BUS_ERROR reports
(assumption 10), by the draw counter of State. -/
opaque freePick : Nat → Nat

end Sys2Proof.Config
end

