-- ==== Sys2Proof/Syntax.lean ====
section
/-! DEFINITION. The commands of SIVCORE, one constructor per row of spec/opcode_table.json
(spec/30_encoding.md R105). A constructor holds the operands its row uses, in the order RD, RS1, RS2, A, B, N;
operand words a command does not use are ignored (R104) and stand nowhere. -/

namespace Sys2Proof

/-- A command. `rd`, `rs1`, `rs2` are register fields, `a` and `b` address operands, `n` a length or a count (R102).
SEAL and OPEN are `sealAead` and `openAead`, since `seal` and `open` are words of Lean. -/
inductive Instr where
  | halt
  | nop
  | keyld (a n : Word)
  | keyclr
  | bld (rd : Reg) (a : Word)
  | bst (rs1 : Reg) (a : Word)
  | bzero (rd : Reg)
  | bmov (rd rs1 : Reg)
  | bxor (rd rs1 rs2 : Reg)
  | cteq (rs1 rs2 : Reg)
  | dbl (rd rs1 : Reg)
  | ctrmask (rd rs1 : Reg)
  | padxor (rd rs1 : Reg) (a n : Word)
  | xorend (rs1 : Reg) (a b n : Word)
  | macz (rd : Reg)
  | mac (rd : Reg) (a n : Word)
  | fold (rd rs1 : Reg) (a n : Word)
  | macend (rd rs1 : Reg) (a n : Word)
  | ctrxor (rs1 : Reg) (a b n : Word)
  | s2v (rd : Reg) (a n : Word)
  | sealAead (rd : Reg) (a b n : Word)
  | openAead (rd : Reg) (a b n : Word)
  deriving DecidableEq, Repr

/-- The opcodes of R105, by name. -/
inductive Op where
  | halt | nop | keyld | keyclr | bld | bst | bzero | bmov | bxor | cteq
  | dbl | ctrmask | padxor | xorend
  | macz | mac | fold | macend | ctrxor
  | s2v | sealAead | openAead
  deriving DecidableEq, Repr

/-- Which register fields a row of R105 uses. -/
structure FieldUse where
  rd : Bool
  rs1 : Bool
  rs2 : Bool
  deriving DecidableEq, Repr

end Sys2Proof
end

