-- ==== Sys2Proof/WellFormed.lean ====
section
/-! DEFINITION. When a command is well-formed: every register field it uses holds 0 to 7 (spec/30_encoding.md R103).
Addresses, lengths and counts have no further check here: R64, R65 and R284 make those run-time faults. -/

namespace Sys2Proof

/-- A used register field holds a value from 0 to 7 (R103). -/
def Reg.ok (r : Reg) : Bool := decide (r.toNat < 8)

/-- Every used register field is in range (R103). -/
def Instr.wf : Instr → Bool
  | .halt | .nop | .keyclr => true
  | .keyld _ _ => true
  | .bld rd _ => Reg.ok rd
  | .bst rs1 _ => Reg.ok rs1
  | .bzero rd => Reg.ok rd
  | .bmov rd rs1 => Reg.ok rd && Reg.ok rs1
  | .bxor rd rs1 rs2 => Reg.ok rd && Reg.ok rs1 && Reg.ok rs2
  | .cteq rs1 rs2 => Reg.ok rs1 && Reg.ok rs2
  | .dbl rd rs1 => Reg.ok rd && Reg.ok rs1
  | .ctrmask rd rs1 => Reg.ok rd && Reg.ok rs1
  | .padxor rd rs1 _ _ => Reg.ok rd && Reg.ok rs1
  | .xorend rs1 _ _ _ => Reg.ok rs1
  | .macz rd => Reg.ok rd
  | .mac rd _ _ => Reg.ok rd
  | .fold rd rs1 _ _ => Reg.ok rd && Reg.ok rs1
  | .macend rd rs1 _ _ => Reg.ok rd && Reg.ok rs1
  | .ctrxor rs1 _ _ _ => Reg.ok rs1
  | .s2v rd _ _ => Reg.ok rd
  | .sealAead rd _ _ _ => Reg.ok rd
  | .openAead rd _ _ _ => Reg.ok rd

end Sys2Proof
end

