-- ==== Sys2Proof/Decode.lean ====
section
/-! DEFINITION. Decoding and encoding of commands (spec/30_encoding.md R100-R109), the byte order of control words
(spec/20_memory.md R62), and the host's `decodeTableWord`. -/

namespace Sys2Proof

/-! ### The opcode map (R105) -/

/-- OP of each row of R105. -/
def Op.code : Op → Byte
  | .halt => 0x00 | .nop => 0x01 | .keyld => 0x02 | .keyclr => 0x03 | .bld => 0x04
  | .bst => 0x05 | .bzero => 0x06 | .bmov => 0x07 | .bxor => 0x08 | .cteq => 0x09
  | .dbl => 0x10 | .ctrmask => 0x11 | .padxor => 0x12 | .xorend => 0x13
  | .macz => 0x20 | .mac => 0x21 | .fold => 0x22 | .macend => 0x23 | .ctrxor => 0x24
  | .s2v => 0x30 | .sealAead => 0x31 | .openAead => 0x32

/-- The "Regs" column of R105: the register fields a row uses. -/
def Op.uses : Op → FieldUse
  | .halt => ⟨false, false, false⟩
  | .nop => ⟨false, false, false⟩
  | .keyld => ⟨false, false, false⟩
  | .keyclr => ⟨false, false, false⟩
  | .bld => ⟨true, false, false⟩
  | .bst => ⟨false, true, false⟩
  | .bzero => ⟨true, false, false⟩
  | .bmov => ⟨true, true, false⟩
  | .bxor => ⟨true, true, true⟩
  | .cteq => ⟨false, true, true⟩
  | .dbl => ⟨true, true, false⟩
  | .ctrmask => ⟨true, true, false⟩
  | .padxor => ⟨true, true, false⟩
  | .xorend => ⟨false, true, false⟩
  | .macz => ⟨true, false, false⟩
  | .mac => ⟨true, false, false⟩
  | .fold => ⟨true, true, false⟩
  | .macend => ⟨true, true, false⟩
  | .ctrxor => ⟨false, true, false⟩
  | .s2v => ⟨true, false, false⟩
  | .sealAead => ⟨true, false, false⟩
  | .openAead => ⟨true, false, false⟩

/-- All rows of R105. -/
def opTable : List Op :=
  [.halt, .nop, .keyld, .keyclr, .bld, .bst, .bzero, .bmov, .bxor, .cteq] ++
  [.dbl, .ctrmask, .padxor, .xorend] ++
  [.macz, .mac, .fold, .macend, .ctrxor] ++
  [.s2v, .sealAead, .openAead]

/-- The row with a given OP, or none: a reserved opcode (R107). -/
def Op.ofCode (c : Byte) : Option Op := opTable.find? (fun o => o.code == c)

/-- The CW mask of R106: OP, RSV and the unused register fields. -/
def Op.mask (o : Op) : Word :=
  0xFFF000FF ||| (if o.uses.rd then 0 else 0x00000F00) ||| (if o.uses.rs1 then 0 else 0x0000F000)
    ||| (if o.uses.rs2 then 0 else 0x000F0000)

/-! ### Decoding -/

/-- Why 16 bytes are no command. All but `truncated` raise ILLEGAL_OPCODE (R107); `truncated` cannot come from a
fetch, which always delivers 16 bytes (R108). -/
inductive DecodeError where
  | truncated
  | reservedOpcode (op : Byte)
  | reservedBits
  | registerOutOfRange
  | unusedFieldNonzero
  deriving DecidableEq, Repr

/-- R103 for one register field: a used one holds 0 to 7, an unused one 0. -/
def checkField (used : Bool) (r : Reg) : Except DecodeError Unit :=
  if used then (if r.toNat < 8 then .ok () else .error .registerOutOfRange)
  else (if r = 0 then .ok () else .error .unusedFieldNonzero)

/-- The command with a given opcode and operands (the last line of R109). -/
def assemble (o : Op) (rd rs1 rs2 : Reg) (a b n : Word) : Instr :=
  match o with
  | .halt => .halt
  | .nop => .nop
  | .keyld => .keyld a n
  | .keyclr => .keyclr
  | .bld => .bld rd a
  | .bst => .bst rs1 a
  | .bzero => .bzero rd
  | .bmov => .bmov rd rs1
  | .bxor => .bxor rd rs1 rs2
  | .cteq => .cteq rs1 rs2
  | .dbl => .dbl rd rs1
  | .ctrmask => .ctrmask rd rs1
  | .padxor => .padxor rd rs1 a n
  | .xorend => .xorend rs1 a b n
  | .macz => .macz rd
  | .mac => .mac rd a n
  | .fold => .fold rd rs1 a n
  | .macend => .macend rd rs1 a n
  | .ctrxor => .ctrxor rs1 a b n
  | .s2v => .s2v rd a n
  | .sealAead => .sealAead rd a b n
  | .openAead => .openAead rd a b n

/-- `decode` of R109 on the four words of a command. -/
def decodeWords (cw a b n : Word) : Except DecodeError Instr :=
  match Op.ofCode (cw.extractLsb' 0 8) with
  | none => .error (.reservedOpcode (cw.extractLsb' 0 8))
  | some o =>
    if cw.extractLsb' 20 12 ≠ 0 then .error .reservedBits
    else
      match checkField o.uses.rd (cw.extractLsb' 8 4) with
      | .error e => .error e
      | .ok () =>
        match checkField o.uses.rs1 (cw.extractLsb' 12 4) with
        | .error e => .error e
        | .ok () =>
          match checkField o.uses.rs2 (cw.extractLsb' 16 4) with
          | .error e => .error e
          | .ok () =>
            .ok (assemble o (cw.extractLsb' 8 4) (cw.extractLsb' 12 4) (cw.extractLsb' 16 4) a b n)

/-- The little-endian word of four bytes (R62). -/
def wordOfBytes (b0 b1 b2 b3 : Byte) : Word := b3 ++ b2 ++ b1 ++ b0

/-- Decoding, total on any bytes: one command of 16 bytes (R108) and the bytes after it. -/
def decode : List Byte → Except DecodeError (Instr × List Byte)
  | c0 :: c1 :: c2 :: c3 :: a0 :: a1 :: a2 :: a3 :: b0 :: b1 :: b2 :: b3 :: n0 :: n1 :: n2 :: n3 :: rest =>
    match decodeWords (wordOfBytes c0 c1 c2 c3) (wordOfBytes a0 a1 a2 a3) (wordOfBytes b0 b1 b2 b3)
        (wordOfBytes n0 n1 n2 n3) with
    | .ok i => .ok (i, rest)
    | .error e => .error e
  | _ => .error .truncated

/-- The command word CW of fetched bytes, which ILLEGAL_OPCODE reports (spec/60_exceptions.md R281). -/
def commandWord : List Byte → Word
  | c0 :: c1 :: c2 :: c3 :: _ => wordOfBytes c0 c1 c2 c3
  | _ => 0

/-! ### Encoding -/

/-- The opcode of a command. -/
def Instr.op : Instr → Op
  | .halt => .halt | .nop => .nop | .keyld .. => .keyld | .keyclr => .keyclr | .bld .. => .bld
  | .bst .. => .bst | .bzero .. => .bzero | .bmov .. => .bmov | .bxor .. => .bxor | .cteq .. => .cteq
  | .dbl .. => .dbl | .ctrmask .. => .ctrmask | .padxor .. => .padxor | .xorend .. => .xorend
  | .macz .. => .macz | .mac .. => .mac | .fold .. => .fold | .macend .. => .macend | .ctrxor .. => .ctrxor
  | .s2v .. => .s2v | .sealAead .. => .sealAead | .openAead .. => .openAead

/-- `CW = OP | (RD << 8) | (RS1 << 12) | (RS2 << 16)` (R101). -/
def commandWordOf (o : Op) (rd rs1 rs2 : Reg) : Word :=
  o.code.setWidth 32 ||| (rd.setWidth 32 <<< 8) ||| (rs1.setWidth 32 <<< 12) ||| (rs2.setWidth 32 <<< 16)

/-- The four words CW, A, B, N of a command; an assembler writes 0 into every unused field and word (R110). -/
def encodeWords (i : Instr) : Word × Word × Word × Word :=
  match i with
  | .halt => (commandWordOf .halt 0 0 0, 0, 0, 0)
  | .nop => (commandWordOf .nop 0 0 0, 0, 0, 0)
  | .keyld a n => (commandWordOf .keyld 0 0 0, a, 0, n)
  | .keyclr => (commandWordOf .keyclr 0 0 0, 0, 0, 0)
  | .bld rd a => (commandWordOf .bld rd 0 0, a, 0, 0)
  | .bst rs1 a => (commandWordOf .bst 0 rs1 0, a, 0, 0)
  | .bzero rd => (commandWordOf .bzero rd 0 0, 0, 0, 0)
  | .bmov rd rs1 => (commandWordOf .bmov rd rs1 0, 0, 0, 0)
  | .bxor rd rs1 rs2 => (commandWordOf .bxor rd rs1 rs2, 0, 0, 0)
  | .cteq rs1 rs2 => (commandWordOf .cteq 0 rs1 rs2, 0, 0, 0)
  | .dbl rd rs1 => (commandWordOf .dbl rd rs1 0, 0, 0, 0)
  | .ctrmask rd rs1 => (commandWordOf .ctrmask rd rs1 0, 0, 0, 0)
  | .padxor rd rs1 a n => (commandWordOf .padxor rd rs1 0, a, 0, n)
  | .xorend rs1 a b n => (commandWordOf .xorend 0 rs1 0, a, b, n)
  | .macz rd => (commandWordOf .macz rd 0 0, 0, 0, 0)
  | .mac rd a n => (commandWordOf .mac rd 0 0, a, 0, n)
  | .fold rd rs1 a n => (commandWordOf .fold rd rs1 0, a, 0, n)
  | .macend rd rs1 a n => (commandWordOf .macend rd rs1 0, a, 0, n)
  | .ctrxor rs1 a b n => (commandWordOf .ctrxor 0 rs1 0, a, b, n)
  | .s2v rd a n => (commandWordOf .s2v rd 0 0, a, 0, n)
  | .sealAead rd a b n => (commandWordOf .sealAead rd 0 0, a, b, n)
  | .openAead rd a b n => (commandWordOf .openAead rd 0 0, a, b, n)

/-- The four bytes of a control word, lowest address first (R62). -/
def bytesOfWord (w : Word) : List Byte :=
  [w.extractLsb' 0 8, w.extractLsb' 8 8, w.extractLsb' 16 8, w.extractLsb' 24 8]

/-- The 16 bytes of a command, lowest address first (R100). -/
def encode (i : Instr) : List Byte :=
  bytesOfWord (encodeWords i).1 ++ bytesOfWord (encodeWords i).2.1 ++ bytesOfWord (encodeWords i).2.2.1 ++
    bytesOfWord (encodeWords i).2.2.2

/-! ### Assembler lines (R110, R111) -/

/-- A line of a source text: a command, a pseudo-instruction, or a directive (R111). -/
inductive Item where
  | command (i : Instr)
  /-- `DBL bd` -/
  | dblInPlace (bd : Reg)
  /-- `CTRMASK bd` -/
  | ctrmaskInPlace (bd : Reg)
  /-- `BCLR bd` -/
  | bclr (bd : Reg)
  /-- `.org addr` -/
  | org (addr : Nat)
  /-- `.word w` -/
  | word (w : Word)
  /-- `.bytes h..` -/
  | bytes (bs : List Byte)
  /-- `.desc addr, len`, for `len < 2^24` -/
  | desc (addr len : Word)
  /-- `.absent` -/
  | absent
  deriving DecidableEq, Repr

/-- The bytes a line places (R111). -/
def Item.toBytes : Item → List Byte
  | .command i => encode i
  | .dblInPlace bd => encode (.dbl bd bd)
  | .ctrmaskInPlace bd => encode (.ctrmask bd bd)
  | .bclr bd => encode (.bzero bd)
  | .org _ => []
  | .word w => bytesOfWord w
  | .bytes bs => bs
  | .desc addr len => bytesOfWord addr ++ bytesOfWord len
  | .absent => bytesOfWord 0 ++ bytesOfWord 0x80000000

/-- Where the lines of a text that starts at `start` place their bytes: `.org` moves, the others follow on (R111). -/
def layOut (start : Nat) : List Item → List (Nat × List Byte)
  | [] => []
  | .org addr :: rest => layOut addr rest
  | item :: rest => (start, item.toBytes) :: layOut (start + item.toBytes.length) rest

/-! ### The host's view of an opcode-table row -/

/-- The 16 bytes of the instruction whose low `nbits` bits are those of `w` (bit 0 of the first word first) and whose
other bits are 0; each word is little-endian (R62), so byte `j` holds bits `8j` to `8j+7`. -/
def tableBytes (nbits w : Nat) : List Byte :=
  (List.range 16).map (fun j => BitVec.ofNat 8 ((w % 2 ^ nbits) / 2 ^ (8 * j)))

/-- The instruction the decoder reads from those bytes. -/
def decodeTableWord (nbits w : Nat) : Option Instr :=
  match decode (tableBytes nbits w) with
  | .ok (i, _) => some i
  | .error _ => none

end Sys2Proof
end

