-- ==== Sys2Proof/Machine/State.lean ====
section
/-! DEFINITION. The state of SIVCORE (spec/10_state.md R43) with DMA memory (spec/20_memory.md R60), the platform's
parameters, what the host does next, the reasons a step can stop, and the state after reset (R42). Plain data only. -/

namespace Sys2Proof.Machine

/-- DMA memory as a list of (address, byte), in the canonical form of `Memory.wf`; an unlisted address reads 0
(assumption 3). -/
abbrev Memory := List Host.Cell

/-- The canonical form: addresses strictly rising and below `2^32`, and no entry equal to what an unlisted address
reads as, so that equal memories are equal lists. -/
abbrev Memory.wf (m : Memory) : Prop :=
  m.Pairwise (fun x y => x.1 < y.1) ∧ ∀ c ∈ m, c.1 < Config.addrSpace ∧ c.2 ≠ 0

/-- What answers at a DMA address: plain memory, or something whose accesses have side effects, which is outside the
spec (spec/20_memory.md R69). -/
inductive RegionKind where
  | plain
  | sideEffect
  deriving DecidableEq, Repr

/-- A stretch of DMA addresses that answers: `base` to `base + size - 1`. -/
structure Region where
  base : Nat
  size : Nat
  kind : RegionKind
  deriving DecidableEq, Repr

/-- The platform's parameters (spec/00_scope.md R6, 93_implementation_defined.md I5), fixed for a machine and never
written by a step. They stand in State as plain data, so that what is said of every state is said of every platform
(assumption 1). -/
structure Platform where
  /-- `BASE`: the host-bus address of the MMIO window. -/
  base : Nat
  /-- `MEM_OK`: where memory answers; the first region that holds an address decides. -/
  regions : List Region
  /-- `DMA_COHERENT`. -/
  coherent : Bool
  deriving DecidableEq, Repr

/-- What comes next when it is not simply the sequencer's turn: the host's accesses, in the order they happen
(spec/46_sequencer_data.md R254), with `seqTurn` for a turn of the sequencer between them (assumption 5). -/
inductive Event where
  | seqTurn
  /-- the host waits until BUSY = 0 (spec/70_reset_and_hazards.md R332, R333), while the sequencer moves -/
  | awaitIdle
  /-- an MMIO read of `width` bytes at a host-bus address (R31) -/
  | mmioRead (addr width : Nat)
  /-- an MMIO write of `width` bytes at a host-bus address (R31) -/
  | mmioWrite (addr width : Nat) (value : Word)
  /-- a store of one byte to DMA memory (spec/20_memory.md R81, R83) -/
  | store (addr : Word) (value : Byte)
  /-- a load of one byte of DMA memory (R82, R83) -/
  | load (addr : Word)
  /-- the host cleans its cache line of a byte (spec/70_reset_and_hazards.md R330) -/
  | clean (addr : Word)
  /-- the host invalidates its cache line of a byte (R332) -/
  | invalidate (addr : Word)
  deriving DecidableEq, Repr

structure State where
  /-- B0 to B7 (R21). -/
  b : Vector Block 8
  /-- KLEN (R23). -/
  klen : Nat
  /-- MACKEY (R23). -/
  macKey : List Byte
  /-- ENCKEY (R23). -/
  encKey : List Byte
  /-- KEY_VALID (R23). -/
  keyValid : Bool
  /-- CMD_PTR, the program counter (R25, R36). -/
  pc : Word
  /-- CTRL.IE (R34). -/
  ie : Bool
  /-- STATUS.BUSY (R35). -/
  busy : Bool
  /-- STATUS.DONE (R35). -/
  done : Bool
  /-- STATUS.ERR (R35). -/
  err : Bool
  /-- STATUS.EQ (R35). -/
  eq : Bool
  /-- STATUS.ERRCODE (R35). -/
  errcode : Byte
  /-- ERR_PC (R37). -/
  errPc : Word
  /-- ERR_INFO (R38). -/
  errInfo : Word
  /-- DMA memory (R60). -/
  mem : Memory
  /-- The platform's parameters (R6; assumption 1). -/
  platform : Platform
  /-- The model's own: what happens next, in order; empty means that only the sequencer moves (assumption 5). -/
  agenda : List Event
  /-- The model's own: bytes the host writes during the current run, by a store or a clean, those to come among them once
  the sequencer takes a turn (R83; assumption 8). -/
  raced : List Nat
  /-- The model's own: bytes of a platform that is not coherent whose last host store is not yet cleaned
  (R81; assumption 8). -/
  dirty : List Nat
  /-- The model's own: bytes the block wrote in the current run, or in the last one while idle (R83; assumption 9). -/
  written : List Nat
  /-- The model's own: bytes the block wrote since the host last stored or invalidated them, of which the host of a
  platform that is not coherent may hold an old copy (R332; assumption 9). -/
  stale : List Nat
  /-- The model's own: the word the host's last read returned (assumption 14). -/
  hostData : Word
  /-- The model's own: the counter the free values are drawn with (assumption 4). -/
  draws : Nat
  deriving DecidableEq, Repr

/-- Why a step stops: the spec gives it no meaning. -/
inductive Fault where
  /-- Raised by a command that accesses an address which answers but is not plain memory: "A command list that reaches
  such a region has no meaning in the model" (spec/20_memory.md R69). Safe: the machine stops where the hardware goes on
  (assumption 13). -/
  | sideEffectRegion (addr : Nat)
  deriving DecidableEq, Repr

/-- Why the model admits no such step. -/
inductive Refusal where
  /-- No meaning for the instruction yet. Raised by no arm: every instruction has its meaning. Safe. -/
  | notModelled (mnemonic : String)
  /-- Raised by a host event the model does not admit: an MMIO access that is not an aligned 32-bit access of the
  window (spec/10_state.md R31, 93_implementation_defined.md I9), or a host access to an address with no plain memory.
  Safe (assumption 14). -/
  | hostAccess (addr : Nat)
  deriving DecidableEq, Repr

/-- The outcome of one step. -/
abbrev Outcome := Host.Outcome State Fault Refusal

/-- The state right after power-on reset (R42, spec/70_reset_and_hazards.md R320): idle, no key, every register 0,
memory with nothing listed. The platform is the one of spec/95_test_vectors.md section 3, whose programs run with
`MEM_OK` true everywhere (assumption 1); nothing happens next (assumption 5). -/
def State.reset : State where
  b := Vector.replicate 8 0
  klen := 0
  macKey := []
  encKey := []
  keyValid := false
  pc := 0
  ie := false
  busy := false
  done := false
  err := false
  eq := false
  errcode := 0
  errPc := 0
  errInfo := 0
  mem := []
  platform := { base := 0, regions := [⟨0, Config.addrSpace, .plain⟩], coherent := true }
  agenda := []
  raced := []
  dirty := []
  written := []
  stale := []
  hostData := 0
  draws := 0

end Sys2Proof.Machine
end

