-- ==== Sys2Proof/Machine/Flags.lean ====
section
/-! DEFINITION. Fault codes (spec/60_exceptions.md R280, R284), the words of the MMIO registers that assemble flags and
constants (spec/10_state.md R32-R39), the interrupt line (R41), and the comparison that gives EQ (spec/45_aead.md R221). -/

namespace Sys2Proof.Machine

/-- The faults of R280. -/
inductive FaultCode where
  | illegalOpcode | invalidKey | authFailed | contract | noKey | misaligned
  | range | overlap | busError | badDescriptor | pcOverflow
  deriving DecidableEq, Repr

/-- ERRCODE of each fault (R280). -/
def FaultCode.code : FaultCode → Byte
  | .illegalOpcode => 0x01
  | .invalidKey => 0x02
  | .authFailed => 0x03
  | .contract => 0x04
  | .noKey => 0x05
  | .misaligned => 0x06
  | .range => 0x07
  | .overlap => 0x08
  | .busError => 0x09
  | .badDescriptor => 0x0A
  | .pcOverflow => 0x0B

/-! ### CONTRACT reasons (R284) -/

def countZero : Word := 1
def countMax : Word := 2
def lenMax : Word := 4
def shortOnly : Word := 5
def longOnly : Word := 6

/-- Reason 3, LAST_ABSENT, with the index of the last descriptor in bits [31:8] (R281, R284). -/
def lastAbsent (index : Nat) : Word := 3 + (BitVec.ofNat 32 index <<< 8)

/-! ### Register words -/

/-- A one-bit field of a register word. -/
def bitAt (flag : Bool) (i : Nat) : Word := if flag then 1 <<< i else 0

/-- STATUS as read (R35). -/
def State.statusWord (s : State) : Word :=
  bitAt s.busy 0 ||| bitAt s.done 1 ||| bitAt s.err 2 ||| bitAt s.keyValid 3 ||| bitAt s.eq 4 |||
    (s.errcode.setWidth 32 <<< 8)

/-- CTRL as read: GO and SRST read 0 (R34). -/
def State.ctrlWord (s : State) : Word := bitAt s.ie 2

/-- CAPS (R33). -/
def capsWord : Word :=
  BitVec.ofNat 32 Config.blk ||| (BitVec.ofNat 32 Config.nonceSize <<< 8) ||| (BitVec.ofNat 32 Config.blk <<< 16) |||
    bitAt (Config.keySizes.contains 16) 24 ||| bitAt (Config.keySizes.contains 24) 25 |||
    bitAt (Config.keySizes.contains 32) 26

/-- LIMITS (R39). -/
def limitsWord : Word :=
  BitVec.ofNat 32 Config.maxFields ||| (BitVec.ofNat 32 (Nat.log2 (Config.maxLen + 1)) <<< 8)

/-- The interrupt line, `IRQ = CTRL.IE AND (STATUS.DONE OR STATUS.ERR)` at all times (R41). -/
def State.irq (s : State) : Bool := s.ie && (s.done || s.err)

/-! ### EQ -/

/-- `ct_eq` on the bytes of two blocks: all differences collected, no early exit (R221). -/
def ctEqBytes (xs ys : List Byte) : Bool :=
  (List.zipWith (fun x y => x ^^^ y) xs ys).foldl (fun acc d => acc ||| d) 0 == 0

end Sys2Proof.Machine
end

