-- ==== Sys2Proof/Machine/Ops.lean ====
section
/-! DEFINITION. The shared operations over blocks, memory and registers; taking a fault (spec/60_exceptions.md R290);
completing a command (spec/46_sequencer_data.md R251); the access stages and BUS_ERROR (R286); the fetch. -/

namespace Sys2Proof.Machine

/-! ### Blocks as bytes (spec/00_scope.md R10, spec/20_memory.md R63) -/

/-- Byte `i` of a block, byte 0 most significant (R10). -/
def blockByte (v : Block) (i : Nat) : Byte := v.extractLsb' (8 * (15 - i)) 8

/-- The 16 bytes of a block, `b[0]` first. -/
def blockBytes (v : Block) : List Byte := (List.range 16).map (blockByte v)

/-- `val` of R10: the block of 16 bytes, `b[0]` first. -/
def blockOfBytes (bs : List Byte) : Block := bs.foldl (fun acc x => (acc <<< 8) ||| x.setWidth 128) 0

/-- `ct_eq` of R221. -/
def ctEq (x y : Block) : Bool := ctEqBytes (blockBytes x) (blockBytes y)

/-! ### Memory -/

/-- The byte at an address; an unlisted address reads 0 (assumption 3). -/
def Memory.read : Memory → Nat → Byte
  | [], _ => 0
  | c :: m, a => if c.1 = a then c.2 else Memory.read m a

/-- Puts a byte at an address, keeping the canonical form. -/
def Memory.write : Memory → Nat → Byte → Memory
  | [], a, v => if v = 0 then [] else [(a, v)]
  | c :: m, a, v =>
    if a < c.1 then (if v = 0 then c :: m else (a, v) :: c :: m)
    else if a = c.1 then (if v = 0 then m else (a, v) :: m)
    else c :: Memory.write m a v

/-- Puts a byte string at an address, `s[0]` lowest (R63). -/
def Memory.writeBytes : Memory → Nat → List Byte → Memory
  | m, _, [] => m
  | m, a, x :: xs => Memory.writeBytes (Memory.write m a x) (a + 1) xs

/-- What answers at a DMA address; none where `MEM_OK` is false (R60). -/
def kindAt (p : Platform) (a : Nat) : Option RegionKind :=
  if a < Config.addrSpace then
    (p.regions.find? (fun r => decide (r.base ≤ a) && decide (a < r.base + r.size))).map Region.kind
  else none

/-- `MEM_OK(a)` (R60). -/
def memOk (p : Platform) (a : Nat) : Bool := (kindAt p a).isSome

/-- The addresses of a range of `n` bytes from `a`. -/
def addresses (a n : Nat) : List Nat := List.range' a n

/-- The host writes the byte during the run, before the read or after it (R83), or did not make its store visible (R81,
spec/70_reset_and_hazards.md R330; assumption 8). -/
def hidden (s : State) (a : Nat) : Bool := s.raced.contains a || (!s.platform.coherent && s.dirty.contains a)

/-- The byte an access of the sequencer reads: the byte in memory, but any byte where it is hidden (R83, R330). -/
def seqByte (s : State) (acc : Config.Access) (a : Nat) : Byte :=
  if hidden s a then Config.freeByte s.draws acc a else s.mem.read a

/-- `MemRead(a, n)` (R12) by one access of the current command. -/
def seqBytes (s : State) (acc : Config.Access) (a n : Nat) : List Byte := (addresses a n).map (seqByte s acc)

/-- `MemWrite(a, n, bs)` (R12); the host need not see the bytes before the run ends (R82, R83), nor, where it is not
coherent, before it invalidates them (R332). -/
def memWrite (s : State) (a : Nat) (bs : List Byte) : State :=
  { s with
    mem := s.mem.writeBytes a bs
    written := List.union (addresses a bs.length) s.written
    stale := List.union (addresses a bs.length) s.stale }

/-- Every byte of a destination range takes any value (R291, spec/70_reset_and_hazards.md R321; assumptions 11, 12). -/
def scramble (s : State) (a n : Nat) : State :=
  memWrite s a ((addresses a n).map (Config.freeByte s.draws .leftover))

/-! ### Block registers (spec/10_state.md R21) -/

/-- Reads a block register. A field above 7 names none and is never decoded (R103; assumption 18). -/
def State.getB (s : State) (r : Reg) : Block := s.b.toList.getD r.toNat 0

/-- Writes a block register. A field above 7 names none and is never decoded (R103; assumption 18). -/
def State.setB (s : State) (r : Reg) (v : Block) : State := { s with b := s.b.setIfInBounds r.toNat v }

/-! ### Faults and completion -/

/-- Why a command does not complete. -/
inductive Stop where
  /-- `raise Fault(code, info)` of R12. -/
  | raise (code : FaultCode) (info : Word)
  /-- The command reaches a region that is not plain memory (R69). -/
  | sideEffect (addr : Nat)
  deriving DecidableEq, Repr

/-- Fault entry (R290): the one way a fault is taken. DONE, EQ, KEY_VALID, IE, CMD_PTR, the registers, the key store
and memory stay. -/
def raise (s : State) (code : FaultCode) (info : Word) : State :=
  { s with busy := false, err := true, errcode := code.code, errPc := s.pc, errInfo := info }

/-- A stopped command: fault entry, or the model's own fault. -/
def stop (s : State) : Stop → Outcome
  | .raise code info => .next (raise s code info)
  | .sideEffect a => .fault (.sideEffectRegion a)

/-- The last command address (R25). -/
def lastPc : Word := 0xFFFFFFF0

/-- The end of a command other than HALT: CMD_PTR advances by 16, or PC_OVERFLOW at the last address (R251, R285). -/
def complete (s : State) : Outcome :=
  if s.pc = lastPc then .next (raise s .pcOverflow s.pc) else .next { s with pc := s.pc + 16 }

/-- A command that stores nothing: what its checks gave, completed or stopped. `s` is the state before the command, so
that a fault leaves no trace of it (R22, R291). -/
def conclude (s : State) : Except Stop State → Outcome
  | .ok t => complete t
  | .error e => stop s e

/-- `assert c else raise Fault(code, info)` (R12). -/
def check (c : Bool) (code : FaultCode) (info : Word) : Except Stop Unit :=
  if c then .ok () else .error (.raise code info)

/-- The NO_KEY check of the commands marked Key in R105. -/
def needKey (s : State) : Except Stop Unit := check s.keyValid .noKey 0

/-! ### Access stages (R286) -/

/-- One of the refused addresses of a stage, any of them (R281, 93_implementation_defined.md I3; assumption 10). -/
def pickRefused (s : State) (x : Nat) (xs : List Nat) : Nat :=
  (x :: xs).getD (Config.freePick s.draws % (xs.length + 1)) x

/-- One access stage over some addresses: BUS_ERROR where a byte does not answer (R60, R286), else the model's stop
where one is not plain memory (R69). -/
def accessAddrs (s : State) (as : List Nat) : Except Stop Unit :=
  match as.filter (fun a => !memOk s.platform a) with
  | x :: xs => .error (.raise .busError (BitVec.ofNat 32 (pickRefused s x xs)))
  | [] =>
    match as.find? (fun a => kindAt s.platform a == some .sideEffect) with
    | some a => .error (.sideEffect a)
    | none => .ok ()

/-- An access stage over ranges of (start, length). -/
def access (s : State) (ranges : List (Nat × Nat)) : Except Stop Unit :=
  accessAddrs s (ranges.flatMap (fun r => addresses r.1 r.2))

/-- Stage 4 of a command that passed every other check: the data write and then `after`, which writes the register
results. A BUS_ERROR leaves any value in the destination and no register written (R290, R291). -/
def storeThen (s : State) (dst : Nat) (bs : List Byte) (after : State → State) : Outcome :=
  match access s [(dst, bs.length)] with
  | .ok () => complete (after (memWrite s dst bs))
  | .error e => stop (scramble s dst bs.length) e

/-- The command fetch: 16 bytes at CMD_PTR (R64, R251). -/
def fetch (s : State) : Except Stop (List Byte) :=
  match access s [(s.pc.toNat, 16)] with
  | .ok () => .ok (seqBytes s .fetch s.pc.toNat 16)
  | .error e => .error e

end Sys2Proof.Machine
end

