-- ==== Sys2Proof/Machine/Operands.lean ====
section
/-! DEFINITION. Operand forms: memory ranges (spec/20_memory.md R65, R68), field descriptors and the descriptor table
(R66, R67), and the checks that S2V, SEAL and OPEN share (spec/43_vector_mac.md R175). -/

namespace Sys2Proof.Machine

/-- A range is legal when it is empty or ends within the address space (R65). -/
def rangeLegal (a n : Nat) : Bool := decide (n = 0) || decide (a + n ≤ Config.addrSpace)

/-- The RANGE check of a range whose start is the address word `a` (R65). -/
def needRange (a : Word) (n : Nat) : Except Stop Unit := check (rangeLegal a.toNat n) .range a

/-- Two non-empty ranges that share a byte overlap; an empty one overlaps nothing (R65, R68). -/
def overlaps (a n b m : Nat) : Bool :=
  decide (0 < n) && decide (0 < m) && decide (a < b + m) && decide (b < a + n)

/-- The OVERLAP check of XOREND and CTRXOR: in place, or disjoint from the source (R68). -/
def needInPlaceOrDisjoint (a b : Word) (n : Nat) : Except Stop Unit :=
  check (decide (b = a) || !overlaps b.toNat n a.toNat n) .overlap b

/-- The LEN_MAX check (spec/60_exceptions.md R284, reason 4). -/
def needLen (n : Word) : Except Stop Unit := check (decide (n.toNat ≤ Config.maxLen)) .contract lenMax

/-- The operand bytes of a command with one source (R172 and its like): range, data-read stage, bytes. -/
def readOperand (s : State) (a : Word) (n : Nat) : Except Stop (List Byte) := do
  needRange a n
  access s [(a.toNat, n)]
  return seqBytes s (.data 0) a.toNat n

/-! ### Descriptors -/

/-- A decoded descriptor (R67): absent, or the range of a present field. -/
inductive Desc where
  | absent
  | present (addr : Word) (len : Nat)
  deriving DecidableEq, Repr

/-- `Word(a)` read from the descriptor table (R62). -/
def tableWord (s : State) (a : Nat) : Word :=
  wordOfBytes (seqByte s .table a) (seqByte s .table (a + 1)) (seqByte s .table (a + 2)) (seqByte s .table (a + 3))

/-- Descriptor `i` of the table at `a` (R66, R67). -/
def readDesc (s : State) (a i : Nat) : Except Stop Desc :=
  let w0 := tableWord s (a + 8 * i)
  let w1 := tableWord s (a + 8 * i + 4)
  if w1.extractLsb' 24 7 ≠ 0 then .error (.raise .badDescriptor (BitVec.ofNat 32 i))
  else if w1.getLsbD 31 then .ok .absent
  else .ok (.present w0 (w1.extractLsb' 0 24).toNat)

/-- Descriptors `i` to `i + k - 1`, stopping at the lowest bad index (R293). -/
def readDescs (s : State) (a i : Nat) : Nat → Except Stop (List Desc)
  | 0 => .ok []
  | k + 1 => do
    let d ← readDesc s a i
    let ds ← readDescs s a (i + 1) k
    return d :: ds

/-- The ranges of the present fields, in index order. -/
def presentRanges : List Desc → List (Nat × Nat)
  | [] => []
  | .absent :: ds => presentRanges ds
  | .present a n :: ds => (a.toNat, n) :: presentRanges ds

/-- The RANGE check of the present fields in index order (R175). -/
def needFieldRanges : List Desc → Except Stop Unit
  | [] => .ok ()
  | .absent :: ds => needFieldRanges ds
  | .present a n :: ds => do
    needRange a n
    needFieldRanges ds

/-- A descriptor table that passed every check of R175 up to the RANGE of the fields: the fields before the last, and
the last one, which is present. -/
structure Table where
  front : List Desc
  lastAddr : Word
  lastLen : Nat
  deriving DecidableEq, Repr

/-- The ranges of all present fields of a table. -/
def Table.ranges (t : Table) : List (Nat × Nat) := presentRanges t.front ++ [(t.lastAddr.toNat, t.lastLen)]

/-- The last field must be present (R178): CONTRACT reason 3 with its index otherwise. -/
def splitLast (ds : List Desc) : Except Stop Table :=
  match ds.getLast? with
  | some (.present a n) => .ok ⟨ds.dropLast, a, n⟩
  | _ => .error (.raise .contract (lastAbsent (ds.length - 1)))

/-- The checks of R175 in their order, from NO_KEY to the RANGE of the fields. -/
def readTable (s : State) (a n : Word) : Except Stop Table := do
  needKey s
  check (decide (1 ≤ n.toNat)) .contract countZero
  check (decide (n.toNat ≤ Config.maxFields)) .contract countMax
  check (decide (a.toNat % 8 = 0)) .misaligned a
  needRange a (8 * n.toNat)
  access s [(a.toNat, 8 * n.toNat)]
  let ds ← readDescs s a.toNat 0 n.toNat
  let t ← splitLast ds
  needFieldRanges ds
  return t

/-- A field of S2V: "ordered sequence of tagged values" (R67). -/
inductive Field where
  | absent
  | present (bytes : List Byte)
  deriving DecidableEq, Repr

/-- The fields of descriptors numbered from `k`, with the bytes of the present ones. -/
def readFields (s : State) : Nat → List Desc → List Field
  | _, [] => []
  | k, .absent :: ds => .absent :: readFields s (k + 1) ds
  | k, .present a n :: ds => .present (seqBytes s (.data k) a.toNat n) :: readFields s (k + 1) ds

/-- The fields before the last. -/
def Table.frontFields (s : State) (t : Table) : List Field := readFields s 0 t.front

/-- The bytes of the last field. -/
def Table.lastBytes (s : State) (t : Table) : List Byte :=
  seqBytes s (.data t.front.length) t.lastAddr.toNat t.lastLen

/-- The OVERLAP check of SEAL and OPEN: the destination is disjoint from the table and from every present field (R68). -/
def needDisjoint (t : Table) (a n b : Word) (len : Nat) : Except Stop Unit :=
  check (((a.toNat, 8 * n.toNat) :: t.ranges).all (fun r => !overlaps b.toNat len r.1 r.2)) .overlap b

end Sys2Proof.Machine
end

