-- ==== Sys2Proof/Machine/Counter.lean ====
section
/-! DEFINITION. Counter mask and counter mode: `ctr`, `ctrks`, `ctrxor`, CTRMASK, CTRXOR
(spec/44_counter.md R200-R205). -/

namespace Sys2Proof.Machine

/-- `ctr` (R200): bit 7 of bytes 8 and 12, which are bits 63 and 31 of the value, cleared. -/
def ctr (v : Block) : Block := v &&& ~~~((1 <<< 63 : Block) ||| (1 <<< 31 : Block))

/-- `ctrks(k, Q, n)` (R201): the counter is the whole block, incremented modulo `2^128` (R205). -/
def ctrks (k : List Byte) (q : Block) (n : Nat) : List Byte :=
  ((List.range ((n + 15) / 16)).flatMap (fun j => blockBytes (Config.E k (q + BitVec.ofNat 128 j)))).take n

/-- `ctrxor(k, Q, P)` (R202). -/
def ctrxor (k : List Byte) (q : Block) (p : List Byte) : List Byte :=
  List.zipWith (fun x y => x ^^^ y) p (ctrks k q p.length)

/-- CTRMASK (R203). -/
def execCtrmask (rd rs1 : Reg) (s : State) : Outcome := complete (s.setB rd (ctr (s.getB rs1)))

/-- What CTRXOR stores: its checks before the write, in the order of R204, then the bytes. -/
def ctrxorPlan (s : State) (rs1 : Reg) (a b n : Word) : Except Stop (List Byte) := do
  needKey s
  needLen n
  needRange a n.toNat
  needRange b n.toNat
  needInPlaceOrDisjoint a b n.toNat
  access s [(a.toNat, n.toNat)]
  return ctrxor s.encKey (s.getB rs1) (seqBytes s (.data 0) a.toNat n.toNat)

/-- CTRXOR (R204). -/
def execCtrxor (rs1 : Reg) (a b n : Word) (s : State) : Outcome :=
  match ctrxorPlan s rs1 a b n with
  | .ok bs => storeThen s b.toNat bs id
  | .error e => stop s e

end Sys2Proof.Machine
end

