-- ==== Sys2Proof/Machine/Doubling.lean ====
section
/-! DEFINITION. Finite-field doubling: `dbl` and DBL (spec/41_doubling.md R130, R131). -/

namespace Sys2Proof.Machine

/-- `dbl` (R130): shift left by one across the block, then `0x87` into the last byte when the top bit was set. -/
def dbl (v : Block) : Block := if v.msb then (v <<< 1) ^^^ 0x87 else v <<< 1

/-- DBL (R131). -/
def execDbl (rd rs1 : Reg) (s : State) : Outcome := complete (s.setB rd (dbl (s.getB rs1)))

end Sys2Proof.Machine
end

