-- ==== Sys2Proof/Machine/Combiner.lean ====
section
/-! DEFINITION. The terminal combiner: `pad`, `xorend`, `terminal`, PADXOR, XOREND (spec/42_combiner.md R150-R154). -/

namespace Sys2Proof.Machine

/-- `pad` of a string of at most 15 bytes (R150). -/
def pad (x : List Byte) : Block := blockOfBytes (x ++ 0x80 :: List.replicate (15 - x.length) 0)

/-- `xorend(a, b)` for `|a| ≥ |b|` (R151, 90_conflicts.md C1, C2); every caller has checked the length (R284). -/
def xorend (a b : List Byte) : List Byte :=
  a.take (a.length - b.length) ++ List.zipWith (fun x y => x ^^^ y) (a.drop (a.length - b.length)) b

/-- The combiner mux (R152): the message of the last CMAC. -/
def terminal (x : List Byte) (d : Block) : List Byte :=
  if 16 ≤ x.length then xorend x (blockBytes d) else blockBytes (pad x ^^^ dbl d)

/-- PADXOR (R153). -/
def execPadxor (rd rs1 : Reg) (a n : Word) (s : State) : Outcome :=
  conclude s do
    check (decide (n.toNat ≤ 15)) .contract shortOnly
    let x ← readOperand s a n.toNat
    return s.setB rd (pad x ^^^ dbl (s.getB rs1))

/-- What XOREND stores: its checks before the write, in the order of R154, then the bytes. -/
def xorendPlan (s : State) (rs1 : Reg) (a b n : Word) : Except Stop (List Byte) := do
  check (decide (16 ≤ n.toNat)) .contract longOnly
  needLen n
  needRange a n.toNat
  needRange b n.toNat
  needInPlaceOrDisjoint a b n.toNat
  access s [(a.toNat, n.toNat)]
  return xorend (seqBytes s (.data 0) a.toNat n.toNat) (blockBytes (s.getB rs1))

/-- XOREND (R154). -/
def execXorend (rs1 : Reg) (a b n : Word) (s : State) : Outcome :=
  match xorendPlan s rs1 a b n with
  | .ok bs => storeThen s b.toNat bs id
  | .error e => stop s e

end Sys2Proof.Machine
end

