-- ==== Sys2Proof/Machine/VectorMac.lean ====
section
/-! DEFINITION. The vector MAC: `s2v`, MACZ, MAC, FOLD, MACEND, S2V (spec/43_vector_mac.md R170-R178). -/

namespace Sys2Proof.Machine

/-- Step 2 of `s2v` for one field: a present one folds in, an absent one is skipped (R170, R176). -/
def foldField (k : List Byte) (d : Block) : Field → Block
  | .absent => d
  | .present bs => dbl d ^^^ Config.CMAC k bs

/-- Step 1 of `s2v`: CMAC of the zero block (R170). -/
def macZero (k : List Byte) : Block := Config.CMAC k (blockBytes 0)

/-- The chaining value after the fields before the last (R170). -/
def s2vChain (k : List Byte) (front : List Field) : Block := front.foldl (foldField k) (macZero k)

/-- `s2v` of the fields before the last and the bytes of the last, which is present (R170). -/
def s2v (k : List Byte) (front : List Field) (last : List Byte) : Block :=
  Config.CMAC k (terminal last (s2vChain k front))

/-- MACZ (R171). -/
def execMacz (rd : Reg) (s : State) : Outcome :=
  conclude s do
    needKey s
    return s.setB rd (macZero s.macKey)

/-- MAC (R172). -/
def execMac (rd : Reg) (a n : Word) (s : State) : Outcome :=
  conclude s do
    needKey s
    needLen n
    let m ← readOperand s a n.toNat
    return s.setB rd (Config.CMAC s.macKey m)

/-- FOLD (R173). -/
def execFold (rd rs1 : Reg) (a n : Word) (s : State) : Outcome :=
  conclude s do
    needKey s
    needLen n
    let m ← readOperand s a n.toNat
    return s.setB rd (dbl (s.getB rs1) ^^^ Config.CMAC s.macKey m)

/-- MACEND (R174). -/
def execMacend (rd rs1 : Reg) (a n : Word) (s : State) : Outcome :=
  conclude s do
    needKey s
    needLen n
    let x ← readOperand s a n.toNat
    return s.setB rd (Config.CMAC s.macKey (terminal x (s.getB rs1)))

/-- S2V (R175). -/
def execS2v (rd : Reg) (a n : Word) (s : State) : Outcome :=
  conclude s do
    let t ← readTable s a n
    access s t.ranges
    return s.setB rd (s2v s.macKey (t.frontFields s) (t.lastBytes s))

end Sys2Proof.Machine
end

