-- ==== Sys2Proof/Machine/Aead.lean ====
section
/-! DEFINITION. The AEAD envelope: KEYLD, KEYCLR, CTEQ, SEAL, OPEN (spec/45_aead.md R221-R227, R231). -/

namespace Sys2Proof.Machine

/-- An AEAD key length is twice a size of `KEYSIZES` (R222). -/
def keyLengthOk (n : Nat) : Bool := Config.keySizes.any (fun h => n == 2 * h)

/-- KEYLD (R222): the first half of the bytes is MACKEY, the second ENCKEY. -/
def execKeyld (a n : Word) (s : State) : Outcome :=
  conclude s do
    check (keyLengthOk n.toNat) .invalidKey n
    let key ← readOperand s a n.toNat
    return { s with
      macKey := key.take (n.toNat / 2), encKey := key.drop (n.toNat / 2), klen := n.toNat / 2, keyValid := true }

/-- KEYCLR (R223); with KLEN 0 the two keys are the empty string (R23; assumption 7). -/
def execKeyclr (s : State) : Outcome :=
  complete { s with macKey := [], encKey := [], klen := 0, keyValid := false }

/-- CTEQ (R224): the only command that writes EQ. -/
def execCteq (rs1 rs2 : Reg) (s : State) : Outcome :=
  complete { s with eq := ctEq (s.getB rs1) (s.getB rs2) }

/-! ### The envelope as functions -/

/-- `V || ctrxor(ENCKEY, ctr(V), P)` with `V` the synthetic value of the fields and `P` (R225, R231). -/
def sealBytes (macKey encKey : List Byte) (front : List Field) (p : List Byte) : List Byte :=
  let v := s2v macKey front p
  blockBytes v ++ ctrxor encKey (ctr v) p

/-- The tag `V'` of a ciphertext of 16 bytes or more (R226, R231). -/
def tagOf (x : List Byte) : Block := blockOfBytes (x.take 16)

/-- The candidate plaintext of a ciphertext of 16 bytes or more (R226). -/
def candidate (encKey x : List Byte) : List Byte := ctrxor encKey (ctr (tagOf x)) (x.drop 16)

/-- The synthetic value OPEN recomputes over the candidate plaintext (R226). -/
def openTag (macKey encKey : List Byte) (front : List Field) (x : List Byte) : Block :=
  s2v macKey front (candidate encKey x)

/-! ### SEAL and OPEN -/

/-- What a command that writes memory and a block register does once it passed every check before its write. -/
structure Envelope where
  tag : Block
  out : List Byte
  deriving DecidableEq, Repr

/-- SEAL up to its write, in the order of R225. -/
def sealPlan (s : State) (a b n : Word) : Except Stop Envelope := do
  let t ← readTable s a n
  needRange b (16 + t.lastLen)
  needDisjoint t a n b (16 + t.lastLen)
  access s t.ranges
  let p := t.lastBytes s
  return ⟨s2v s.macKey (t.frontFields s) p, sealBytes s.macKey s.encKey (t.frontFields s) p⟩

/-- SEAL (R225): the tag and the masked plaintext to memory, then the tag to RD. -/
def execSealAead (rd : Reg) (a b n : Word) (s : State) : Outcome :=
  match sealPlan s a b n with
  | .ok e => storeThen s b.toNat e.out (fun t => t.setB rd e.tag)
  | .error e => stop s e

/-- OPEN up to its write, in the order of R226. The bytes written are those of the second pass, which reads the
ciphertext again (R227); they are the verified candidate unless the host raced with the ciphertext (assumption 15). -/
def openPlan (s : State) (a b n : Word) : Except Stop Envelope := do
  let t ← readTable s a n
  needRange b (t.lastLen - 16)
  needDisjoint t a n b (t.lastLen - 16)
  access s t.ranges
  check (decide (16 ≤ t.lastLen)) .authFailed 1
  let x := t.lastBytes s
  let v := openTag s.macKey s.encKey (t.frontFields s) x
  check (ctEq v (tagOf x)) .authFailed 0
  let body := seqBytes s .again (t.lastAddr.toNat + 16) (t.lastLen - 16)
  return ⟨v, ctrxor s.encKey (ctr (tagOf x)) body⟩

/-- OPEN (R226): the plaintext to memory, then the tag to RD. EQ is not written. -/
def execOpenAead (rd : Reg) (a b n : Word) (s : State) : Outcome :=
  match openPlan s a b n with
  | .ok e => storeThen s b.toNat e.out (fun t => t.setB rd e.tag)
  | .error e => stop s e

end Sys2Proof.Machine
end

