-- ==== Sys2Proof/Machine/Control.lean ====
section
/-! DEFINITION. Sequencer control and data movement: HALT, NOP, BLD, BST, BZERO, BMOV, BXOR
(spec/46_sequencer_data.md R260-R266). -/

namespace Sys2Proof.Machine

/-- HALT (R260): the run ends with DONE; CMD_PTR stays. -/
def execHalt (s : State) : Outcome := .next { s with busy := false, done := true }

/-- NOP (R261). -/
def execNop (s : State) : Outcome := complete s

/-- BLD (R262). -/
def execBld (rd : Reg) (a : Word) (s : State) : Outcome :=
  conclude s do
    let bs ← readOperand s a 16
    return s.setB rd (blockOfBytes bs)

/-- What BST stores: its checks before the write, then the bytes of the register (R263). -/
def bstPlan (s : State) (rs1 : Reg) (a : Word) : Except Stop (List Byte) := do
  needRange a 16
  return blockBytes (s.getB rs1)

/-- BST (R263). -/
def execBst (rs1 : Reg) (a : Word) (s : State) : Outcome :=
  match bstPlan s rs1 a with
  | .ok bs => storeThen s a.toNat bs id
  | .error e => stop s e

/-- BZERO (R264). -/
def execBzero (rd : Reg) (s : State) : Outcome := complete (s.setB rd 0)

/-- BMOV (R265). -/
def execBmov (rd rs1 : Reg) (s : State) : Outcome := complete (s.setB rd (s.getB rs1))

/-- BXOR (R266). -/
def execBxor (rd rs1 rs2 : Reg) (s : State) : Outcome := complete (s.setB rd (s.getB rs1 ^^^ s.getB rs2))

end Sys2Proof.Machine
end

