-- ==== Sys2Proof/Machine/Dispatch.lean ====
section
/-! DEFINITION. `exec`: one arm per command. -/

namespace Sys2Proof.Machine

/-- One command on the state it finds (spec/46_sequencer_data.md R251). -/
def exec (i : Instr) (s : State) : Host.Outcome State Fault Refusal :=
  match i with
  | .halt => Sys2Proof.Machine.execHalt s
  | .nop => Sys2Proof.Machine.execNop s
  | .keyld a n => Sys2Proof.Machine.execKeyld a n s
  | .keyclr => Sys2Proof.Machine.execKeyclr s
  | .bld rd a => Sys2Proof.Machine.execBld rd a s
  | .bst rs1 a => Sys2Proof.Machine.execBst rs1 a s
  | .bzero rd => Sys2Proof.Machine.execBzero rd s
  | .bmov rd rs1 => Sys2Proof.Machine.execBmov rd rs1 s
  | .bxor rd rs1 rs2 => Sys2Proof.Machine.execBxor rd rs1 rs2 s
  | .cteq rs1 rs2 => Sys2Proof.Machine.execCteq rs1 rs2 s
  | .dbl rd rs1 => Sys2Proof.Machine.execDbl rd rs1 s
  | .ctrmask rd rs1 => Sys2Proof.Machine.execCtrmask rd rs1 s
  | .padxor rd rs1 a n => Sys2Proof.Machine.execPadxor rd rs1 a n s
  | .xorend rs1 a b n => Sys2Proof.Machine.execXorend rs1 a b n s
  | .macz rd => Sys2Proof.Machine.execMacz rd s
  | .mac rd a n => Sys2Proof.Machine.execMac rd a n s
  | .fold rd rs1 a n => Sys2Proof.Machine.execFold rd rs1 a n s
  | .macend rd rs1 a n => Sys2Proof.Machine.execMacend rd rs1 a n s
  | .ctrxor rs1 a b n => Sys2Proof.Machine.execCtrxor rs1 a b n s
  | .s2v rd a n => Sys2Proof.Machine.execS2v rd a n s
  | .sealAead rd a b n => Sys2Proof.Machine.execSealAead rd a b n s
  | .openAead rd a b n => Sys2Proof.Machine.execOpenAead rd a b n s

end Sys2Proof.Machine
end

