-- ==== Sys2Proof/Machine/Sequencer.lean ====
section
/-! DEFINITION. One cycle of the sequencer: fetch, decode, execute (spec/46_sequencer_data.md R251), and how the host
places the command that the next cycle runs. -/

namespace Sys2Proof.Machine

/-- A step happens: the free values it draws are not those of another step (assumption 4). -/
def State.tick (s : State) : State := { s with draws := s.draws + 1 }

/-- One cycle of R251: the fetch may fault (BUS_ERROR), then the decoding (ILLEGAL_OPCODE with CW), then the command
runs and completes or faults. -/
def sequencerStep (s : State) : Outcome :=
  match fetch s with
  | .error e => stop s e
  | .ok bs =>
    match decode bs with
    | .error _ => .next (raise s .illegalOpcode (commandWord bs))
    | .ok (i, _) => exec i s

/-- Memory answers with plain memory at all of these addresses. -/
def allPlain (p : Platform) (as : List Nat) : Bool := as.all (fun a => kindAt p a == some .plain)

/-- The state in which the very next step runs the command `bs`: `bs` stands at CMD_PTR where plain memory answers and
no host store races, a run is on, and it is the sequencer's turn (assumption 6). -/
def placeCommand (s : State) (bs : List Byte) : State :=
  { s with
    mem := s.mem.writeBytes s.pc.toNat bs
    platform := if allPlain s.platform (addresses s.pc.toNat bs.length) then s.platform
      else { s.platform with regions := ⟨s.pc.toNat, bs.length, .plain⟩ :: s.platform.regions }
    raced := s.raced.filter (fun a => !(addresses s.pc.toNat bs.length).contains a)
    dirty := s.dirty.filter (fun a => !(addresses s.pc.toNat bs.length).contains a)
    busy := true
    agenda := [] }

end Sys2Proof.Machine
end

