-- ==== Sys2Proof/Machine/HostSide.lean ====
section
/-! DEFINITION. What the host does: MMIO reads and writes (spec/10_state.md R30-R40), GO (spec/46_sequencer_data.md R250),
soft reset (spec/70_reset_and_hazards.md R321), and its accesses to DMA memory (spec/20_memory.md R81-R83). -/

namespace Sys2Proof.Machine

/-! ### MMIO -/

/-- The offset of an admitted MMIO access: a naturally aligned 32-bit access of the 64-byte window (spec/10_state.md
R30, R31; assumption 16). -/
def mmioOffset (p : Platform) (addr width : Nat) : Option Nat :=
  if width = 4 ∧ addr % 4 = 0 ∧ p.base ≤ addr ∧ addr < p.base + Config.windowBytes ∧ (addr - p.base) % 4 = 0 then
    some (addr - p.base)
  else none

/-- The word at an offset (R30, R32-R40); reading changes nothing (spec/20_memory.md R70). -/
def mmioRead (s : State) (off : Nat) : Word :=
  if off = 0x00 then Config.idValue
  else if off = 0x04 then capsWord
  else if off = 0x08 then s.ctrlWord
  else if off = 0x0C then s.statusWord
  else if off = 0x10 then s.pc
  else if off = 0x14 then s.errPc
  else if off = 0x18 then s.errInfo
  else if off = 0x1C then limitsWord
  else 0

/-- GO (R250). Host stores and cleans before it are no race with the run that starts (R81), and the run has written
nothing yet. -/
def startRun (s : State) : State :=
  { s with
    busy := true, done := false, err := false, errcode := 0, errPc := 0, errInfo := 0, raced := [], written := [] }

/-- Every piece of the block's state at its reset value (R320, R321); memory, the platform and the host stay. -/
def resetBlock (s : State) : State :=
  { State.reset with
    mem := s.mem, platform := s.platform, agenda := s.agenda, raced := s.raced, dirty := s.dirty
    written := s.written, stale := s.stale, hostData := s.hostData, draws := s.draws }

/-- The destination range that an abandoned command may have begun to write (R321, 93_implementation_defined.md I2), an
empty one where the command has none or its RANGE check fails. OPEN may have begun only after the tag verified (R321,
spec/45_aead.md R227); SEAL's range is known only from a table that passes its checks (assumption 12). -/
def abandonedRange (i : Instr) (s : State) : Nat × Nat :=
  let legal (dst : Word) (n : Nat) : Nat × Nat := (dst.toNat, if rangeLegal dst.toNat n then n else 0)
  match i with
  | .halt | .nop | .keyclr => (0, 0)
  | .keyld _ _ => (0, 0)
  | .bld _ _ => (0, 0)
  | .bst _ a => legal a 16
  | .bzero _ => (0, 0)
  | .bmov _ _ => (0, 0)
  | .bxor _ _ _ => (0, 0)
  | .cteq _ _ => (0, 0)
  | .dbl _ _ => (0, 0)
  | .ctrmask _ _ => (0, 0)
  | .padxor _ _ _ _ => (0, 0)
  | .xorend _ _ b n => legal b n.toNat
  | .macz _ => (0, 0)
  | .mac _ _ _ => (0, 0)
  | .fold _ _ _ _ => (0, 0)
  | .macend _ _ _ _ => (0, 0)
  | .ctrxor _ _ b n => legal b n.toNat
  | .s2v _ _ _ => (0, 0)
  | .sealAead _ a b n =>
    match readTable s a n with
    | .ok t => legal b (16 + t.lastLen)
    | .error _ => (0, 0)
  | .openAead _ a b n =>
    match openPlan s a b n with
    | .ok e => (b.toNat, e.out.length)
    | .error _ => (0, 0)

/-- The running command is abandoned: every byte of its destination range takes any value (R321, 93 I2). -/
def abandon (i : Instr) (s : State) : State := scramble s (abandonedRange i s).1 (abandonedRange i s).2

/-- Soft reset (R321): neither DONE nor ERR; a command that runs, the one at CMD_PTR, is abandoned. One that cannot be
fetched has no destination (assumption 12). -/
def softReset (s : State) : State :=
  if s.busy then
    match fetch s with
    | .error _ => resetBlock s
    | .ok bs =>
      match decode bs with
      | .error _ => resetBlock s
      | .ok (i, _) => resetBlock (abandon i s)
  else resetBlock s

/-- A write of CTRL, in the order of R34: SRST first, which discards the rest; else IE, and then GO if idle. A GO that
meets the end of a run gives the same result in both orders but for what GO itself writes (spec/60_exceptions.md R294;
assumption 21). -/
def writeCtrl (s : State) (v : Word) : State :=
  if v.getLsbD 1 then softReset s
  else if v.getLsbD 0 && !s.busy then startRun { s with ie := v.getLsbD 2 }
  else { s with ie := v.getLsbD 2 }

/-- A write of STATUS: W1C of DONE, and of ERR with ERRCODE (R35). -/
def writeStatus (s : State) (v : Word) : State :=
  { s with
    done := s.done && !v.getLsbD 1
    err := s.err && !v.getLsbD 2
    errcode := if v.getLsbD 2 then 0 else s.errcode }

/-- A write of CMD_PTR: bits [3:0] stay 0; ignored while BUSY = 1 (R36). -/
def writeCmdPtr (s : State) (v : Word) : State := if s.busy then s else { s with pc := v &&& 0xFFFFFFF0 }

/-- A write at an offset (R30); the read-only and reserved registers ignore it (R32, R33, R37-R40). -/
def mmioWrite (s : State) (off : Nat) (v : Word) : State :=
  if off = 0x08 then writeCtrl s v
  else if off = 0x0C then writeStatus s v
  else if off = 0x10 then writeCmdPtr s v
  else s

/-! ### DMA memory -/

/-- A store of the host. During a run it races with the run's reads of the byte (R83); on a platform that is not
coherent it is not visible until the host cleans the byte (R81). The host sees its own store (assumptions 8, 9). -/
def hostStore (s : State) (a : Nat) (v : Byte) : State :=
  { s with
    mem := s.mem.write a v
    raced := if s.busy then s.raced.insert a else s.raced
    dirty := if s.platform.coherent then s.dirty else s.dirty.insert a
    stale := s.stale.filter (fun x => x != a) }

/-- The host cleans a byte: its store becomes visible to the next run (R81, R330), and races with the current one. Where
the block wrote the byte after the store, either write may have come last, so the byte takes any value
(assumption 9). -/
def hostClean (s : State) (a : Nat) : State :=
  if s.platform.coherent || !s.dirty.contains a then s
  else
    { s with
      mem := if s.stale.contains a then s.mem.write a (Config.freeByte s.draws .host a) else s.mem
      raced := if s.busy then s.raced.insert a else s.raced
      dirty := s.dirty.filter (fun x => x != a) }

/-- The host invalidates a byte: its next load sees what a completed run wrote (R332), and what the current run wrote
only by an invalidation after its end. A store that it had not cleaned is gone where the block wrote the byte after it;
elsewhere the store may be lost or not, so the byte takes any value (assumption 9). -/
def hostInvalidate (s : State) (a : Nat) : State :=
  if s.platform.coherent then s
  else
    { s with
      mem := if s.dirty.contains a && !s.stale.contains a then s.mem.write a (Config.freeByte s.draws .host a)
        else s.mem
      raced := if s.busy && s.dirty.contains a then s.raced.insert a else s.raced
      dirty := s.dirty.filter (fun x => x != a)
      stale := if s.busy && s.written.contains a then s.stale else s.stale.filter (fun x => x != a) }

/-- An access of the host to DMA memory, admitted where plain memory answers (assumption 14). -/
def hostMemory (s : State) (a : Nat) (t : State) : Outcome :=
  if kindAt s.platform a = some .plain then .next t else .refused (.hostAccess a)

/-! ### The turn of an agent -/

/-- One event of the host (R254), its loads seeing memory through `view`. -/
def hostStepWith (view : State → Nat → Byte) (e : Event) (s : State) : Outcome :=
  match e with
  | .seqTurn | .awaitIdle => .next s
  | .mmioRead addr width =>
    match mmioOffset s.platform addr width with
    | some off => .next { s with hostData := mmioRead s off }
    | none => .refused (.hostAccess addr)
  | .mmioWrite addr width v =>
    match mmioOffset s.platform addr width with
    | some off => .next (mmioWrite s off v)
    | none => .refused (.hostAccess addr)
  | .store a v => hostMemory s a.toNat (hostStore s a.toNat v)
  | .load a => hostMemory s a.toNat { s with hostData := (view s a.toNat).setWidth 32 }
  | .clean a => hostMemory s a.toNat (hostClean s a.toNat)
  | .invalidate a => hostMemory s a.toNat (hostInvalidate s a.toNat)

/-- The sequencer takes its turn: during a run, where no event of the host comes first, at a `seqTurn`, and as long as
the host waits (R251, R254; assumption 5). -/
def sequencerTakes (s : State) : Option State :=
  if s.busy then
    match s.agenda with
    | [] => some s.tick
    | .awaitIdle :: _ => some s.tick
    | .seqTurn :: es => some { s with agenda := es }.tick
    | .mmioRead _ _ :: _ | .mmioWrite _ _ _ :: _ | .store _ _ :: _ | .load _ :: _ | .clean _ :: _
    | .invalidate _ :: _ => none
  else none

/-- One turn, the sequencer's where `takes` gives the state for its cycle, or else the next event of the host, its loads
seeing memory through `view`; an idle block with nothing to come keeps all its state (spec/60_exceptions.md R306;
assumption 5). -/
def turnWith (takes : State → Option State) (view : State → Nat → Byte) (s : State) : Outcome :=
  match takes s with
  | some u => sequencerStep u
  | none =>
    match s.agenda with
    | [] => .next s
    | e :: rest => hostStepWith view e { s with agenda := rest }.tick

/-! ### Races (spec/20_memory.md R83) -/

/-- The bytes that events of the host write: stores, and the cleans and invalidations of bytes that are then not cleaned
(assumption 8). -/
def hostWrites (coherent : Bool) : List Nat → List Event → List Nat
  | _, [] => []
  | dirty, .store a _ :: es =>
    a.toNat :: hostWrites coherent (if coherent then dirty else dirty.insert a.toNat) es
  | dirty, .clean a :: es | dirty, .invalidate a :: es =>
    if coherent || !dirty.contains a.toNat then hostWrites coherent dirty es
    else a.toNat :: hostWrites coherent (dirty.filter (fun x => x != a.toNat)) es
  | dirty, .seqTurn :: es | dirty, .awaitIdle :: es | dirty, .mmioRead _ _ :: es | dirty, .mmioWrite _ _ _ :: es
  | dirty, .load _ :: es => hostWrites coherent dirty es

/-- The bytes that the first `n` events to come write. -/
def State.comingWrites (s : State) (n : Nat) : List Nat :=
  hostWrites s.platform.coherent s.dirty (s.agenda.take n)

/-- The bytes that the first `n` events to come write are drawn where the run reads them. -/
def State.drawn (s : State) (n : Nat) : State := { s with raced := List.union (s.comingWrites n) s.raced }

/-- The event is met with BUSY = 0, or leaves BUSY = 0: a wait of the host, or a soft reset (R34). -/
def Event.endsRun (p : Platform) : Event → Bool
  | .awaitIdle => true
  | .mmioWrite addr width v => mmioOffset p addr width == some 0x08 && v.getLsbD 1
  | .seqTurn | .mmioRead _ _ | .store _ _ | .load _ | .clean _ | .invalidate _ => false

/-- The run may take `n` events while BUSY = 1, for all that is known of a run without a meaning (R69; assumption 8). -/
def mayMeet (s : State) (n : Nat) : Bool :=
  decide (n ≤ s.agenda.length) && (s.agenda.take n).all fun e => !e.endsRun s.platform

/-- The run takes `n` events, each while BUSY = 1, where it draws the bytes in `raced` and no others. Where the machine
stops before them, the run has no meaning, and it may take them. -/
def meets : Nat → State → Bool
  | 0, _ => true
  | n + 1, s =>
    s.busy &&
      match turnWith sequencerTakes (fun _ _ => 0) s with
      | .next t => decide (t.agenda.length < s.agenda.length) && meets n t
      | .fault _ | .refused _ => mayMeet s (n + 1)

/-- The bytes that the run draws: those of as many events to come, up to `n`, as the run meets while BUSY = 1 when it
draws them. A byte of a later event is none of them: no write of the host to it meets the run, or none would if it were
drawn (R83, 93_implementation_defined.md I1). Where the run that draws them stops without a meaning, it may meet them, so
they are drawn, and the machine stops (R69; assumption 8). -/
def foreseen : Nat → State → List Nat
  | 0, s => s.raced
  | n + 1, s => if meets (n + 1) (s.drawn (n + 1)) then (s.drawn (n + 1)).raced else foreseen n s

/-- The state the sequencer runs its cycle from, where it is its turn: what the host writes later in the run races with
what the cycle reads (R83). -/
def sequencerTurn (s : State) : Option State :=
  (sequencerTakes s).map fun u => { u with raced := foreseen s.agenda.length s }

/-- The current run writes the byte, has written it or will write it, as far as `fuel` turns tell; where the machine
stops or the fuel runs out, it may (R83; assumption 9). What the host's loads return has no effect on the run. -/
def runWrites : Nat → State → Nat → Bool
  | 0, s, a => s.written.contains a || s.busy
  | fuel + 1, s, a =>
    s.written.contains a ||
      (s.busy &&
        match turnWith sequencerTurn (fun _ _ => 0) s with
        | .next t => runWrites fuel t a
        | .fault _ | .refused _ => true)

/-- More turns than a run takes: one for each event of the host and `2^28` commands (R252). -/
def runFuel (s : State) : Nat := s.agenda.length + 2 ^ 28

/-- The byte a load of the host returns: any byte where the current run writes it, before or after the load (R83), and
where the host of a platform that is not coherent may hold an old copy (R332; assumption 9). -/
def hostByte (s : State) (a : Nat) : Byte :=
  if (s.busy && runWrites (runFuel s) s a) || (!s.platform.coherent && s.stale.contains a) then
    Config.freeByte s.draws .host a
  else s.mem.read a

/-- One event of the host (R254). -/
def hostStep (e : Event) (s : State) : Outcome := hostStepWith hostByte e s

/-- One turn of the machine. -/
def turn (s : State) : Outcome := turnWith sequencerTurn hostByte s

end Sys2Proof.Machine
end

