-- ==== Sys2Proof/Machine/Step.lean ====
section
/-! DEFINITION. The step of the machine, and the state in which the next step runs a given opcode-table word. -/

namespace Sys2Proof.Machine

/-- One step: a turn of the sequencer, or one event of the host (spec/46_sequencer_data.md R251, R254). -/
def step (s : State) : Host.Outcome State Fault Refusal := turn s

/-- `s` with the instruction of `decodeTableWord nbits w` where the next step fetches, and a run on (assumption 6). -/
def State.withFetchWord (s : State) (nbits w : Nat) : State := placeCommand s (tableBytes nbits w)

end Sys2Proof.Machine
end

