-- ==== Sys2Proof/Safety.lean ====
section
/-! DEFINITION. The terms in which claims speak of safe runs: the invariant of the machine, what a command needs of
memory, and a straight-line list of commands. -/

namespace Sys2Proof.Machine

/-! ### The invariant -/

/-- CMD_PTR bits [3:0] are 0 (spec/10_state.md R25). -/
abbrev State.pcAligned (s : State) : Prop := s.pc.extractLsb' 0 4 = 0

/-- The key store is one of R23: KLEN is 0, 16, 24 or 32, both keys have that length, and KEY_VALID says whether
there is a key. -/
abbrev State.keysOk (s : State) : Prop :=
  (s.klen = 0 ∨ s.klen ∈ Config.keySizes) ∧ s.macKey.length = s.klen ∧ s.encKey.length = s.klen ∧
    (s.keyValid = true ↔ s.klen ≠ 0)

/-- DONE and ERR are never both 1, neither is 1 during a run, and ERRCODE is one of R280 with ERR and 0 without
(spec/10_state.md R35, spec/46_sequencer_data.md R250, R252). -/
abbrev State.statusOk (s : State) : Prop :=
  ¬(s.done = true ∧ s.err = true) ∧ (s.busy = true → s.done = false ∧ s.err = false) ∧
    (s.err = false → s.errcode = 0) ∧ (s.err = true → 1 ≤ s.errcode.toNat ∧ s.errcode.toNat ≤ 0x0B)

/-- What every step keeps: the hard-wired bits of CMD_PTR, a key store of R23, the status rules, and memory in its
canonical form. -/
abbrev State.Inv (s : State) : Prop := s.pcAligned ∧ s.keysOk ∧ s.statusOk ∧ s.mem.wf

/-! ### What a command needs -/

/-- Plain memory answers at every byte of the range. -/
abbrev plainRange (p : Platform) (a n : Nat) : Prop := ∀ x, a ≤ x → x < a + n → kindAt p x = some .plain

/-- No byte is hidden from the run: no write of the host races with it, and nothing is uncleaned
(spec/70_reset_and_hazards.md R330, R331). -/
abbrev State.quiet (s : State) : Prop := s.raced = [] ∧ (s.platform.coherent = true ∨ s.dirty = [])

/-- The platform has no region with side effects (spec/20_memory.md R69). -/
abbrev Platform.plain (p : Platform) : Prop := ∀ r ∈ p.regions, r.kind = .plain

/-- `s` after a completed command: CMD_PTR advanced (spec/46_sequencer_data.md R251). -/
def State.next (s : State) : State := { s with pc := s.pc + 16 }

/-- The address lies in the range. -/
abbrev inRange (x a n : Nat) : Prop := a ≤ x ∧ x < a + n

/-- From `s` to `t` the block wrote these `n` bytes from `a` and no others, as the model records it for the host
(spec/20_memory.md R82, R83). -/
abbrev marks (s t : State) (a n : Nat) : Prop :=
  ∀ x, (x ∈ t.written ↔ inRange x a n ∨ x ∈ s.written) ∧ (x ∈ t.stale ↔ inRange x a n ∨ x ∈ s.stale)

/-- `k` turns of one run: each starts with BUSY = 1. -/
def runWithin : Nat → State → Option State
  | 0, s => some s
  | k + 1, s =>
    if s.busy then
      match step s with
      | .next t => runWithin k t
      | .fault _ | .refused _ => none
    else none

/-- What a descriptor table must be for the checks of spec/43_vector_mac.md R175 to pass, from NO_KEY to the RANGE of the
fields: its descriptors are those of `t.front` and then the last, a present field. -/
structure TableOk (s : State) (a n : Word) (t : Table) : Prop where
  key : s.keyValid = true
  count : n.toNat = t.front.length + 1
  countMax : n.toNat ≤ Config.maxFields
  aligned : a.toNat % 8 = 0
  legal : a.toNat + 8 * n.toNat ≤ Config.addrSpace
  plain : plainRange s.platform a.toNat (8 * n.toNat)
  front : ∀ j (h : j < t.front.length), readDesc s a.toNat j = .ok t.front[j]
  last : readDesc s a.toNat t.front.length = .ok (.present t.lastAddr t.lastLen)
  ranges : ∀ r ∈ t.ranges, rangeLegal r.1 r.2 = true

/-! ### What a command names -/

/-- The destination register of a command (spec/30_encoding.md R105). -/
def destReg : Instr → Option Reg
  | .halt | .nop | .keyclr => none
  | .keyld _ _ => none
  | .bld rd _ => some rd
  | .bst _ _ => none
  | .bzero rd => some rd
  | .bmov rd _ => some rd
  | .bxor rd _ _ => some rd
  | .cteq _ _ => none
  | .dbl rd _ => some rd
  | .ctrmask rd _ => some rd
  | .padxor rd _ _ _ => some rd
  | .xorend _ _ _ _ => none
  | .macz rd => some rd
  | .mac rd _ _ => some rd
  | .fold rd _ _ _ => some rd
  | .macend rd _ _ _ => some rd
  | .ctrxor _ _ _ _ => none
  | .s2v rd _ _ => some rd
  | .sealAead rd _ _ _ => some rd
  | .openAead rd _ _ _ => some rd

/-- The commands that write DMA memory (spec/20_memory.md R61). -/
def storesMemory : Instr → Bool
  | .bst _ _ | .xorend _ _ _ _ | .ctrxor _ _ _ _ | .sealAead _ _ _ _ | .openAead _ _ _ _ => true
  | .halt | .nop | .keyld _ _ | .keyclr | .bld _ _ | .bzero _ | .bmov _ _ | .bxor _ _ _ | .cteq _ _ | .dbl _ _
  | .ctrmask _ _ | .padxor _ _ _ _ | .macz _ | .mac _ _ _ | .fold _ _ _ _ | .macend _ _ _ _ | .s2v _ _ _ => false

/-- The destination range of a command that passes every check before its write (spec/20_memory.md R61,
spec/60_exceptions.md R291); none for a command that writes no memory, or that faults before its write. -/
def destOf (i : Instr) (s : State) : Option (Nat × Nat) :=
  let range (dst : Word) (r : Except Stop (List Byte)) : Option (Nat × Nat) :=
    match r with
    | .ok bs => some (dst.toNat, bs.length)
    | .error _ => none
  match i with
  | .halt | .nop | .keyclr => none
  | .keyld _ _ => none
  | .bld _ _ => none
  | .bst rs1 a => range a (bstPlan s rs1 a)
  | .bzero _ => none
  | .bmov _ _ => none
  | .bxor _ _ _ => none
  | .cteq _ _ => none
  | .dbl _ _ => none
  | .ctrmask _ _ => none
  | .padxor _ _ _ _ => none
  | .xorend rs1 a b n => range b (xorendPlan s rs1 a b n)
  | .macz _ => none
  | .mac _ _ _ => none
  | .fold _ _ _ _ => none
  | .macend _ _ _ _ => none
  | .ctrxor rs1 a b n => range b (ctrxorPlan s rs1 a b n)
  | .s2v _ _ _ => none
  | .sealAead _ a b n => range b ((sealPlan s a b n).map Envelope.out)
  | .openAead _ a b n => range b ((openPlan s a b n).map Envelope.out)

/-- The commands marked Key in spec/30_encoding.md R105. -/
def needsKey : Instr → Bool
  | .macz _ | .mac _ _ _ | .fold _ _ _ _ | .macend _ _ _ _ | .ctrxor _ _ _ _ | .s2v _ _ _ | .sealAead _ _ _ _
  | .openAead _ _ _ _ => true
  | .halt | .nop | .keyld _ _ | .keyclr | .bld _ _ | .bst _ _ | .bzero _ | .bmov _ _ | .bxor _ _ _ | .cteq _ _
  | .dbl _ _ | .ctrmask _ _ | .padxor _ _ _ _ | .xorend _ _ _ _ => false

/-! ### A list of commands, one after another -/

/-- Straight-line execution of commands, stopping where one does not give a next state. -/
def runList : List Instr → State → Outcome
  | [], s => .next s
  | i :: is, s =>
    match exec i s with
    | .next t => runList is t
    | .fault f => .fault f
    | .refused r => .refused r

/-- The FOLDs of the present fields (spec/43_vector_mac.md R179). -/
def foldCommands (rx : Reg) : List Desc → List Instr
  | [] => []
  | .absent :: ds => foldCommands rx ds
  | .present a n :: ds => .fold rx rx a (BitVec.ofNat 32 n) :: foldCommands rx ds

/-- The primitives that S2V is equivalent to (spec/43_vector_mac.md R179). -/
def s2vPrimitives (rd rx : Reg) (t : Table) : List Instr :=
  .macz rx :: (foldCommands rx t.front ++ [.macend rd rx t.lastAddr (BitVec.ofNat 32 t.lastLen)])

end Sys2Proof.Machine
end

