-- ==== Sys2Proof/Certificates/Slice0/Obligations.lean ====
section
/-! DEFINITION. What the model claims, from the rules of spec/. Each docstring names the rules a statement rests on. A
statement holds in every state that meets its hypotheses, reachable or not, and for every platform, every `E`, every
`CMAC` and every free value. -/

open Sys2Proof Sys2Proof.Machine

/-! ### Reset and the invariant -/

/-- spec/70_reset_and_hazards.md R320: every piece of state after power-on reset; the sequencer is idle and does not start
by itself. -/
def Obligations.ResetState : Prop :=
  (∀ r : Reg, State.reset.getB r = 0) ∧ (∀ x ∈ State.reset.macKey, x = 0) ∧ (∀ x ∈ State.reset.encKey, x = 0) ∧
  State.reset.klen = 0 ∧ State.reset.keyValid = false ∧ State.reset.pc = 0 ∧ State.reset.ie = false ∧
  State.reset.busy = false ∧ State.reset.done = false ∧ State.reset.err = false ∧ State.reset.eq = false ∧
  State.reset.errcode = 0 ∧ State.reset.errPc = 0 ∧ State.reset.errInfo = 0 ∧ State.reset.irq = false ∧
  step State.reset = .next State.reset

/-- The invariant holds after reset (spec/10_state.md R42). -/
def Obligations.ResetMeetsInvariant : Prop := State.reset.Inv

/-- Every step keeps the invariant: the hard-wired bits of CMD_PTR (R25), the key store of R23, the status rules (R35,
R252), and memory in canonical form. -/
def Obligations.StepKeepsInvariant : Prop :=
  ∀ s t : State, s.Inv → step s = .next t → t.Inv

/-! ### Encoding -/

/-- Decoding the encoding of a well-formed command gives it back, with every operand, and leaves the bytes after it
(spec/30_encoding.md R100, R101, R105, R108, R109). -/
def Obligations.DecodeEncode : Prop :=
  ∀ (i : Instr) (rest : List Byte), i.wf = true → decode (encode i ++ rest) = .ok (i, rest)

/-- Exactly the words of the opcode map decode: those that match an opcode under its mask and hold 0 to 7 in every used
register field (spec/30_encoding.md R103, R106, R107); what they decode to is well-formed. -/
def Obligations.DecodableWords : Prop :=
  ∀ cw a b n : Word,
    ((∃ i, decodeWords cw a b n = .ok i) ↔
      ∃ o : Op, cw &&& o.mask = o.code.setWidth 32 ∧ (o.uses.rd = true → (cw.extractLsb' 8 4).toNat < 8) ∧
        (o.uses.rs1 = true → (cw.extractLsb' 12 4).toNat < 8) ∧ (o.uses.rs2 = true → (cw.extractLsb' 16 4).toNat < 8)) ∧
    ∀ i, decodeWords cw a b n = .ok i → i.wf = true

/-- Command bytes written out in spec/95_test_vectors.md (P1, P2, P3, E3, E4, E7, E8) decode, or do not, as listed there. -/
def Obligations.SampleWordsDecode : Prop :=
  decode [0x04, 0, 0, 0, 0, 0x20, 0, 0, 0, 0, 0, 0, 0, 0, 0, 0] = .ok (.bld 0 0x2000, []) ∧
  decode [0x10, 1, 0, 0, 0, 0, 0, 0, 0, 0, 0, 0, 0, 0, 0, 0] = .ok (.dbl 1 0, []) ∧
  decode [0x08, 3, 2, 0, 0, 0, 0, 0, 0, 0, 0, 0, 0, 0, 0, 0] = .ok (.bxor 3 0 2, []) ∧
  decode [0x05, 0x30, 0, 0, 0, 0x21, 0, 0, 0, 0, 0, 0, 0, 0, 0, 0] = .ok (.bst 3 0x2100, []) ∧
  decode [0x22, 0, 0, 0, 0, 0x31, 0, 0, 0, 0, 0, 0, 0x18, 0, 0, 0] = .ok (.fold 0 0 0x3100 24, []) ∧
  decode [0x24, 0x30, 0, 0, 0, 0x32, 0, 0, 0, 0x34, 0, 0, 0x0e, 0, 0, 0] = .ok (.ctrxor 3 0x3200 0x3400 14, []) ∧
  decode [0x32, 1, 0, 0, 0x40, 0x43, 0, 0, 0, 0x60, 0, 0, 4, 0, 0, 0] = .ok (.openAead 1 0x4340 0x6000 4, []) ∧
  decodeWords 0x00000101 0 0 0 = .error .unusedFieldNonzero ∧
  decodeWords 0x0000000A 0 0 0 = .error (.reservedOpcode 0x0A) ∧
  decodeWords 0x00000808 0 0 0 = .error .registerOutOfRange ∧
  decodeWords 0x00080000 0 0 0 = .error .unusedFieldNonzero

/-! ### The step -/

/-- When it is the sequencer's turn in a run and the fetched bytes decode to a command, the step is that command on the
state whose draw counter moved on and in which what the host writes later in the run is foreseen (spec/46_sequencer_data.md
R251, R254, spec/20_memory.md R83). Whose turn it is, is the model's choice (assumption 5): the sequencer's where no event
of the host comes first (an empty agenda), where a `seqTurn` comes, and where the host waits (`awaitIdle`). What is foreseen
is the model's reading of R83 (assumption 8): `raced := foreseen …`. -/
def Obligations.StepRunsCommand : Prop :=
  (∀ (s u : State) (bs rest : List Byte) (i : Instr), sequencerTurn s = some u → fetch u = .ok bs →
    decode bs = .ok (i, rest) → step s = exec i u) ∧
  ∀ s : State, (s.busy = false → sequencerTurn s = none) ∧
    (s.busy = true → s.agenda = [] → sequencerTurn s = some s.tick) ∧
    (∀ es, s.busy = true → s.agenda = .awaitIdle :: es → sequencerTurn s = some s.tick) ∧
    (∀ es, s.busy = true → s.agenda = .seqTurn :: es → sequencerTurn s = some
      { s with agenda := es, raced := foreseen s.agenda.length s }.tick) ∧
    (∀ e es, s.agenda = e :: es → e ≠ .seqTurn → e ≠ .awaitIdle → sequencerTurn s = none)

/-- spec/30_encoding.md R103 and R109: a command word with a reserved opcode, a nonzero RSV, a nonzero unused register
field or a used one above 7 raises ILLEGAL_OPCODE with ERR_INFO = CW; the operand words play no part. -/
def Obligations.IllegalCommandWord : Prop :=
  ∀ (s u : State) (cw a b n : Word), sequencerTurn s = some u →
    fetch u = .ok (bytesOfWord cw ++ bytesOfWord a ++ bytesOfWord b ++ bytesOfWord n) →
    ((∀ o : Op, o.code ≠ cw.extractLsb' 0 8) ∨ cw.extractLsb' 20 12 ≠ 0 ∨
      ∃ o : Op, o.code = cw.extractLsb' 0 8 ∧
        ((o.uses.rd = true ∧ 7 < (cw.extractLsb' 8 4).toNat) ∨ (o.uses.rd = false ∧ cw.extractLsb' 8 4 ≠ 0) ∨
         (o.uses.rs1 = true ∧ 7 < (cw.extractLsb' 12 4).toNat) ∨ (o.uses.rs1 = false ∧ cw.extractLsb' 12 4 ≠ 0) ∨
         (o.uses.rs2 = true ∧ 7 < (cw.extractLsb' 16 4).toNat) ∨ (o.uses.rs2 = false ∧ cw.extractLsb' 16 4 ≠ 0))) →
    step s = .next (raise u .illegalOpcode cw)

/-- spec/60_exceptions.md R306: an idle block keeps all its state, and nothing but GO wakes the sequencer: a step from
BUSY = 0 to BUSY = 1 is an admitted write of CTRL with GO = 1 and SRST = 0. -/
def Obligations.OnlyGoWakes : Prop :=
  (∀ s : State, s.busy = false → s.agenda = [] → step s = .next s) ∧
  ∀ s t : State, s.busy = false → step s = .next t → t.busy = true →
    ∃ addr width v rest, s.agenda = .mmioWrite addr width v :: rest ∧ mmioOffset s.platform addr width = some 0x08 ∧
      v.getLsbD 0 = true ∧ v.getLsbD 1 = false

/-! ### What commands can and cannot change -/

/-- Sequential advance is the only way CMD_PTR changes while the sequencer runs (spec/10_state.md R25): a command leaves it
or adds 16, without wrapping. -/
def Obligations.CommandMovesPcBy16 : Prop :=
  ∀ (i : Instr) (s t : State), s.pcAligned → exec i s = .next t →
    t.pc = s.pc ∨ (i ≠ .halt ∧ t.pc.toNat = s.pc.toNat + 16 ∧ t.busy = s.busy)

/-- Which commands write which flags and the key store: EQ only CTEQ, KEY_VALID and the key store only KEYLD and KEYCLR, DONE
only HALT, IE none (spec/10_state.md R23, R26); no command writes the platform or the host's part of the state, and one
that stores nothing marks no byte as written. -/
def Obligations.FlagAndKeyFrame : Prop :=
  ∀ (i : Instr) (s t : State), exec i s = .next t →
    ((∀ r q, i ≠ .cteq r q) → t.eq = s.eq) ∧
    ((∀ a n, i ≠ .keyld a n) → i ≠ .keyclr →
      t.keyValid = s.keyValid ∧ t.klen = s.klen ∧ t.macKey = s.macKey ∧ t.encKey = s.encKey) ∧
    (i ≠ .halt → t.done = s.done) ∧ t.ie = s.ie ∧
    t.platform = s.platform ∧ t.agenda = s.agenda ∧ t.raced = s.raced ∧ t.dirty = s.dirty ∧
    t.hostData = s.hostData ∧ t.draws = s.draws ∧
    (storesMemory i = false → t.written = s.written ∧ t.stale = s.stale)

/-- A command changes no block register but the one it names as its destination (spec/10_state.md R21, R22). -/
def Obligations.RegisterFrame : Prop :=
  ∀ (i : Instr) (s t : State) (r : Reg), exec i s = .next t → destReg i ≠ some r → t.getB r = s.getB r

/-- The commands that write no memory leave every byte of it (spec/20_memory.md R61). -/
def Obligations.MemoryFrame : Prop :=
  ∀ (i : Instr) (s t : State), storesMemory i = false → exec i s = .next t → ∀ x, t.mem.read x = s.mem.read x

/-- A storing command leaves every byte outside its destination range, faulting or not (spec/20_memory.md R61, R69,
spec/60_exceptions.md R291): BST 16 bytes at A; XOREND and CTRXOR N bytes at B; SEAL 16 + LEN bytes at B; OPEN LEN - 16
bytes at B; and SEAL and OPEN leave all of memory where the table is refused. -/
def Obligations.StoreFrame : Prop :=
  ∀ (s t : State) (r : Reg) (a b n : Word) (x : Nat),
    (exec (.bst r a) s = .next t → ¬ inRange x a.toNat 16 → t.mem.read x = s.mem.read x) ∧
    (exec (.xorend r a b n) s = .next t → ¬ inRange x b.toNat n.toNat → t.mem.read x = s.mem.read x) ∧
    (exec (.ctrxor r a b n) s = .next t → ¬ inRange x b.toNat n.toNat → t.mem.read x = s.mem.read x) ∧
    (∀ tb, readTable s a n = .ok tb → exec (.sealAead r a b n) s = .next t → ¬ inRange x b.toNat (16 + tb.lastLen) →
      t.mem.read x = s.mem.read x) ∧
    (∀ tb, readTable s a n = .ok tb → exec (.openAead r a b n) s = .next t → ¬ inRange x b.toNat (tb.lastLen - 16) →
      t.mem.read x = s.mem.read x) ∧
    (∀ e, readTable s a n = .error e → exec (.sealAead r a b n) s = .next t → t.mem.read x = s.mem.read x) ∧
    (∀ e, readTable s a n = .error e → exec (.openAead r a b n) s = .next t → t.mem.read x = s.mem.read x)

/-- Every command ends in one of these ways and no other (spec/60_exceptions.md R285, R290, R291, R293,
spec/46_sequencer_data.md R252, R260): HALT; completion of a command that changed no run-control state, with CMD_PTR
advanced or PC_OVERFLOW; a precise fault, which changes nothing but the fault record; a data-write BUS_ERROR, which besides
the fault record changes only the command's destination range and leaves it free. -/
def Obligations.CommandOutcomes : Prop :=
  ∀ (i : Instr) (s t : State), exec i s = .next t →
    (i = .halt ∧ t = { s with busy := false, done := true }) ∨
    (∃ u : State, u.pc = s.pc ∧ u.busy = s.busy ∧ u.done = s.done ∧ u.err = s.err ∧ u.errcode = s.errcode ∧
      u.errPc = s.errPc ∧ u.errInfo = s.errInfo ∧ u.ie = s.ie ∧
      ((s.pc ≠ lastPc ∧ t = u.next) ∨ (s.pc = lastPc ∧ t = raise u .pcOverflow lastPc))) ∨
    (∃ code info, t = raise s code info) ∨
    (∃ dst len x, destOf i s = some (dst, len) ∧ inRange x dst len ∧ memOk s.platform x = false ∧
      t = raise (scramble s dst len) .busError (BitVec.ofNat 32 x))

/-- spec/60_exceptions.md R285: a command that completes at `0xFFFFFFF0` keeps its effects, raises PC_OVERFLOW with ERR_PC
and ERR_INFO `0xFFFFFFF0`, and leaves CMD_PTR there. Its effects are those it has at address 0. -/
def Obligations.PcOverflowKeepsEffects : Prop :=
  ∀ (i : Instr) (s u : State), s.pc = lastPc → i ≠ .halt → exec i { s with pc := 0 } = .next u → u.pc = 16 →
    exec i s = .next (raise { u with pc := lastPc } .pcOverflow lastPc)

/-- Fault entry (spec/60_exceptions.md R290): BUSY 0, ERR 1, the code, the command's address and the detail word; all the
rest stays. ERRCODE is the code that R280 gives each of the eleven faults. -/
def Obligations.FaultEntry : Prop :=
  ∀ (s : State) (code : FaultCode) (info : Word),
    (raise s code info).busy = false ∧ (raise s code info).err = true ∧ (raise s code info).errcode = code.code ∧
    (raise s code info).errPc = s.pc ∧ (raise s code info).errInfo = info ∧
    raise s code info = { s with
      busy := false, err := true, errcode := (raise s code info).errcode, errPc := (raise s code info).errPc,
      errInfo := (raise s code info).errInfo } ∧
    1 ≤ code.code.toNat ∧ code.code.toNat ≤ 0x0B ∧
    (raise s .illegalOpcode info).errcode = 0x01 ∧ (raise s .invalidKey info).errcode = 0x02 ∧
    (raise s .authFailed info).errcode = 0x03 ∧ (raise s .contract info).errcode = 0x04 ∧
    (raise s .noKey info).errcode = 0x05 ∧ (raise s .misaligned info).errcode = 0x06 ∧
    (raise s .range info).errcode = 0x07 ∧ (raise s .overlap info).errcode = 0x08 ∧
    (raise s .busError info).errcode = 0x09 ∧ (raise s .badDescriptor info).errcode = 0x0A ∧
    (raise s .pcOverflow info).errcode = 0x0B

/-- Every run is finite, at most `2^28` commands (spec/46_sequencer_data.md R252, 93_implementation_defined.md I15): with no
host event and no region outside the spec (spec/20_memory.md R69), a run from any state of the invariant ends. -/
def Obligations.EveryRunEnds : Prop :=
  ∀ s : State, s.Inv → s.agenda = [] → s.platform.plain →
    ∃ k ≤ 2 ^ 28, ∃ t, Host.Core.run Sys2Proof.core k s = .next t ∧ t.busy = false

/-- A run ends in one way (spec/46_sequencer_data.md R252): the step that sets BUSY to 0 sets DONE alone, with CMD_PTR kept,
or sets ERR alone, or is a soft reset and sets neither. -/
def Obligations.RunEndsOneWay : Prop :=
  ∀ s t : State, s.Inv → s.busy = true → step s = .next t → t.busy = false →
    (t.done = true ∧ t.err = false ∧ t.errcode = 0 ∧ t.pc = s.pc) ∨
    (t.done = false ∧ t.err = true ∧ t.errPc = s.pc ∧ t.pc = s.pc) ∨
    (t.done = false ∧ t.err = false ∧ t.ie = false ∧
      ∃ addr width v rest, s.agenda = .mmioWrite addr width v :: rest ∧
        mmioOffset s.platform addr width = some 0x08 ∧ v.getLsbD 1 = true)

/-! ### Register commands -/

/-- HALT, NOP, BZERO, BMOV and BXOR complete with the result of their rules and change nothing else
(spec/46_sequencer_data.md R260, R261, R264-R266); a block register written holds the value, and the others keep theirs
(spec/10_state.md R21). -/
def Obligations.ControlAndMoveComplete : Prop :=
  ∀ (s : State) (rd rs1 rs2 : Reg),
    exec .halt s = .next { s with busy := false, done := true } ∧
    (s.pc ≠ lastPc →
      exec .nop s = .next s.next ∧ exec (.bzero rd) s = .next (s.setB rd 0).next ∧
      exec (.bmov rd rs1) s = .next (s.setB rd (s.getB rs1)).next ∧
      exec (.bxor rd rs1 rs2) s = .next (s.setB rd (s.getB rs1 ^^^ s.getB rs2)).next) ∧
    (∀ v, rd.toNat < 8 → (s.setB rd v).getB rd = v) ∧ (∀ v q, q ≠ rd → (s.setB rd v).getB q = s.getB q)

/-- DBL completes (spec/41_doubling.md R130, R131), its result given byte by byte: each byte shifted left with the top bit
of the next one, and `0x87` into the last byte when bit 7 of byte 0 was set. -/
def Obligations.DblCompletes : Prop :=
  ∀ (s : State) (rd rs1 : Reg), s.pc ≠ lastPc →
    ∃ v : Block, exec (.dbl rd rs1) s = .next (s.setB rd v).next ∧
      (∀ i < 15, blockByte v i = (blockByte (s.getB rs1) i <<< 1) ||| (blockByte (s.getB rs1) (i + 1) >>> 7)) ∧
      blockByte v 15 =
        (blockByte (s.getB rs1) 15 <<< 1) ^^^ (if (blockByte (s.getB rs1) 0).getLsbD 7 then 0x87 else 0x00)

/-- spec/41_doubling.md R132, the laws of `dbl`: zero fixed, linear, a bijection with the given inverse, doubling of the
value without the top bit, and with it the shifted block with `0x87` into the last byte. -/
def Obligations.DblLaws : Prop :=
  dbl 0 = 0 ∧ (∀ x y : Block, dbl (x ^^^ y) = dbl x ^^^ dbl y) ∧
  (∀ r : Block, dbl (if r.getLsbD 0 then ((r >>> 1) ^^^ 0x43) ||| (1 <<< 127) else r >>> 1) = r) ∧
  (∀ x y : Block, dbl x = dbl y → x = y) ∧
  (∀ b : Block, b.getLsbD 127 = false → (dbl b).toNat = 2 * b.toNat) ∧
  (∀ b : Block, b.getLsbD 127 = true → dbl b = (b <<< 1) ^^^ 0x87)

/-- CTRMASK completes (spec/44_counter.md R200, R203): bit 7 of bytes 8 and 12 is cleared and every other byte kept. -/
def Obligations.CtrmaskCompletes : Prop :=
  ∀ (s : State) (rd rs1 : Reg), s.pc ≠ lastPc →
    ∃ v : Block, exec (.ctrmask rd rs1) s = .next (s.setB rd v).next ∧
      ∀ i < 16, blockByte v i =
        if i = 8 ∨ i = 12 then blockByte (s.getB rs1) i &&& 0x7F else blockByte (s.getB rs1) i

/-- CTEQ completes, EQ is plain equality of the two blocks, and nothing else changes (spec/45_aead.md R221, R224). -/
def Obligations.CteqCompletes : Prop :=
  ∀ (s : State) (rs1 rs2 : Reg), s.pc ≠ lastPc →
    exec (.cteq rs1 rs2) s = .next { s with eq := decide (s.getB rs1 = s.getB rs2) }.next

/-! ### The key store -/

/-- KEYLD of an accepted length completes: the first half of the key bytes is MACKEY, the second ENCKEY (spec/45_aead.md
R222); KEYCLR completes and leaves no key (R223; that the cleared keys are empty strings is assumption 7). -/
def Obligations.KeyCommandsComplete : Prop :=
  ∀ (s : State) (a n : Word), s.pc ≠ lastPc →
    (∀ h ∈ Config.keySizes, n.toNat = 2 * h → a.toNat + n.toNat ≤ Config.addrSpace →
      plainRange s.platform a.toNat n.toNat →
      exec (.keyld a n) s = .next { s with
        macKey := seqBytes s (.data 0) a.toNat h, encKey := seqBytes s (.data 0) (a.toNat + h) h, klen := h
        keyValid := true }.next) ∧
    exec .keyclr s = .next { s with macKey := [], encKey := [], klen := 0, keyValid := false }.next

/-- Without a key every command marked Key raises NO_KEY, whatever its operands (spec/30_encoding.md R105,
spec/60_exceptions.md R280, R293). -/
def Obligations.NoKeyComesFirst : Prop :=
  ∀ (i : Instr) (s : State), needsKey i = true → s.keyValid = false → exec i s = .next (raise s .noKey 0)

/-- Nothing but the commands marked Key reads the two keys (spec/10_state.md R23, spec/30_encoding.md R105): any other
command acts the same whatever they are, and no MMIO register depends on them. -/
def Obligations.KeysNotReadOut : Prop :=
  (∀ (i : Instr) (s t : State) (mk ek : List Byte), needsKey i = false → exec i s = .next t →
    ∃ u, exec i { s with macKey := mk, encKey := ek } = .next u ∧
      { u with macKey := t.macKey, encKey := t.encKey } = t) ∧
  ∀ (s : State) (mk ek : List Byte) (off : Nat), mmioRead { s with macKey := mk, encKey := ek } off = mmioRead s off

/-! ### Memory commands -/

/-- BLD completes: byte `i` of the register is the byte read at `A + i` (spec/46_sequencer_data.md R262, spec/20_memory.md
R63). -/
def Obligations.BldCompletes : Prop :=
  ∀ (s : State) (rd : Reg) (a : Word), s.pc ≠ lastPc → a.toNat + 16 ≤ Config.addrSpace →
    plainRange s.platform a.toNat 16 →
    ∃ v : Block, exec (.bld rd a) s = .next (s.setB rd v).next ∧
      ∀ i < 16, blockByte v i = seqByte s (.data 0) (a.toNat + i)

/-- BST completes: byte `i` of the register is at `A + i`, every other byte of memory is kept, and no other state changes
but CMD_PTR and the model's record of the write (spec/46_sequencer_data.md R263). -/
def Obligations.BstCompletes : Prop :=
  ∀ (s : State) (rs1 : Reg) (a : Word), s.mem.wf → s.pc ≠ lastPc → a.toNat + 16 ≤ Config.addrSpace →
    plainRange s.platform a.toNat 16 →
    ∃ t : State, exec (.bst rs1 a) s = .next t ∧
      t = { s.next with mem := t.mem, written := t.written, stale := t.stale } ∧ marks s t a.toNat 16 ∧
      (∀ i < 16, t.mem.read (a.toNat + i) = blockByte (s.getB rs1) i) ∧
      (∀ x, ¬ inRange x a.toNat 16 → t.mem.read x = s.mem.read x)

/-- A store into the next command's bytes is seen when that command is fetched (spec/20_memory.md R86). -/
def Obligations.SelfModifyingList : Prop :=
  ∀ (s : State) (rs1 : Reg) (a : Word), s.mem.wf → s.quiet → s.pcAligned → s.pc ≠ lastPc → a = s.pc + 16 →
    plainRange s.platform a.toNat 16 →
    ∃ t : State, exec (.bst rs1 a) s = .next t ∧ t.pc = a ∧ fetch t = .ok (blockBytes (s.getB rs1))

/-- PADXOR completes (spec/42_combiner.md R150, R153): the padded field, byte by byte, XOR the doubled chaining value. -/
def Obligations.PadxorCompletes : Prop :=
  ∀ (s : State) (rd rs1 : Reg) (a n : Word), s.pc ≠ lastPc → n.toNat ≤ 15 → rangeLegal a.toNat n.toNat = true →
    plainRange s.platform a.toNat n.toNat →
    ∃ v : Block, exec (.padxor rd rs1 a n) s = .next (s.setB rd v).next ∧
      ∀ i < 16, blockByte v i =
        (if i < n.toNat then seqByte s (.data 0) (a.toNat + i) else if i = n.toNat then 0x80 else 0x00) ^^^
          blockByte (dbl (s.getB rs1)) i

/-- XOREND completes (spec/42_combiner.md R151, R154): the first N - 16 bytes are copied and the last 16 XORed with the
block; every other byte of memory is kept, and no register changes. -/
def Obligations.XorendCompletes : Prop :=
  ∀ (s : State) (rs1 : Reg) (a b n : Word), s.mem.wf → s.pc ≠ lastPc → 16 ≤ n.toNat → n.toNat ≤ Config.maxLen →
    a.toNat + n.toNat ≤ Config.addrSpace → b.toNat + n.toNat ≤ Config.addrSpace →
    (b = a ∨ ∀ x, inRange x b.toNat n.toNat → ¬ inRange x a.toNat n.toNat) →
    plainRange s.platform a.toNat n.toNat → plainRange s.platform b.toNat n.toNat →
    ∃ t : State, exec (.xorend rs1 a b n) s = .next t ∧
      t = { s.next with mem := t.mem, written := t.written, stale := t.stale } ∧ marks s t b.toNat n.toNat ∧
      (∀ i < n.toNat, t.mem.read (b.toNat + i) =
        if i < n.toNat - 16 then seqByte s (.data 0) (a.toNat + i)
        else seqByte s (.data 0) (a.toNat + i) ^^^ blockByte (s.getB rs1) (i - (n.toNat - 16))) ∧
      (∀ x, ¬ inRange x b.toNat n.toNat → t.mem.read x = s.mem.read x)

/-- spec/42_combiner.md R152 and R155: the two arms of `terminal(x, D)`, byte by byte (the short arm doubles `D`, the long
one does not), and that it is injective in `x` within one length class. -/
def Obligations.TerminalInjective : Prop :=
  (∀ (x : List Byte) (d : Block),
    (x.length < 16 → (terminal x d).length = 16 ∧ ∀ i < 16, (terminal x d)[i]? =
      some ((if i < x.length then x.getD i 0 else if i = x.length then 0x80 else 0x00) ^^^ blockByte (dbl d) i)) ∧
    (16 ≤ x.length → (terminal x d).length = x.length ∧ ∀ i < x.length, (terminal x d)[i]? =
      some (if i < x.length - 16 then x.getD i 0 else x.getD i 0 ^^^ blockByte d (i - (x.length - 16))))) ∧
  ∀ (x y : List Byte) (d : Block), (16 ≤ x.length ↔ 16 ≤ y.length) → terminal x d = terminal y d → x = y

/-- MACZ, MAC, FOLD and MACEND complete with the result of their rules, and S2V with `s2v` of the fields of a table whose
checks pass; nothing else changes (spec/43_vector_mac.md R170-R176). -/
def Obligations.MacCommandsComplete : Prop :=
  ∀ (s : State) (rd rs1 : Reg) (a n : Word), s.pc ≠ lastPc → s.keyValid = true →
    exec (.macz rd) s = .next (s.setB rd (Config.CMAC s.macKey (List.replicate 16 0))).next ∧
    (n.toNat ≤ Config.maxLen → rangeLegal a.toNat n.toNat = true → plainRange s.platform a.toNat n.toNat →
      exec (.mac rd a n) s =
        .next (s.setB rd (Config.CMAC s.macKey (seqBytes s (.data 0) a.toNat n.toNat))).next ∧
      exec (.fold rd rs1 a n) s =
        .next (s.setB rd (dbl (s.getB rs1) ^^^ Config.CMAC s.macKey (seqBytes s (.data 0) a.toNat n.toNat))).next ∧
      exec (.macend rd rs1 a n) s =
        .next (s.setB rd (Config.CMAC s.macKey (terminal (seqBytes s (.data 0) a.toNat n.toNat) (s.getB rs1)))).next) ∧
    (∀ t, TableOk s a n t → (∀ r ∈ t.ranges, plainRange s.platform r.1 r.2) →
      exec (.s2v rd a n) s = .next (s.setB rd (s2v s.macKey (t.frontFields s) (t.lastBytes s))).next)

/-- CTRXOR completes (spec/44_counter.md R201, R202, R204, R205): byte `i` is XORed with byte `i mod 16` of
`E(ENCKEY, Q + i div 16)`, the counter wrapping modulo `2^128`; every other byte of memory is kept. -/
def Obligations.CtrxorCompletes : Prop :=
  ∀ (s : State) (rs1 : Reg) (a b n : Word), s.mem.wf → s.pc ≠ lastPc → s.keyValid = true → n.toNat ≤ Config.maxLen →
    rangeLegal a.toNat n.toNat = true → rangeLegal b.toNat n.toNat = true →
    (b = a ∨ ∀ x, inRange x b.toNat n.toNat → ¬ inRange x a.toNat n.toNat) →
    plainRange s.platform a.toNat n.toNat → plainRange s.platform b.toNat n.toNat →
    ∃ t : State, exec (.ctrxor rs1 a b n) s = .next t ∧
      t = { s.next with mem := t.mem, written := t.written, stale := t.stale } ∧ marks s t b.toNat n.toNat ∧
      (∀ i < n.toNat, t.mem.read (b.toNat + i) =
        seqByte s (.data 0) (a.toNat + i) ^^^
          blockByte (Config.E s.encKey (s.getB rs1 + BitVec.ofNat 128 (i / 16))) (i % 16)) ∧
      (∀ x, ¬ inRange x b.toNat n.toNat → t.mem.read x = s.mem.read x)

/-- spec/44_counter.md R207: counter mode is an involution, for every key, counter and string. -/
def Obligations.CtrxorInvolution : Prop :=
  ∀ (k : List Byte) (q : Block) (p : List Byte), ctrxor k q (ctrxor k q p) = p

/-- spec/44_counter.md R206: from a masked counter, no increment of one message carries out of bit 31, so bits 127:32 stay
constant; and a message of MAX_LEN bytes takes at most `2^20` blocks. -/
def Obligations.MaskedCounterNeverCarries : Prop :=
  (Config.maxLen + 15) / 16 ≤ 2 ^ 20 ∧
  ∀ (v : Block) (j : Nat), j < 2 ^ 20 →
    (ctr v).getLsbD 63 = false ∧ (ctr v).getLsbD 31 = false ∧
    ((ctr v).extractLsb' 0 32).toNat + j < 2 ^ 32 ∧
    (ctr v + BitVec.ofNat 128 j).extractLsb' 32 96 = (ctr v).extractLsb' 32 96

/-! ### The descriptor table and S2V -/

/-- A descriptor in memory (spec/20_memory.md R62, R66, R67), by its eight bytes: reserved bits raise BAD_DESCRIPTOR with the
index; bit 31 alone of the second word makes it Absent; else ADDR and LEN are little-endian. -/
def Obligations.DescriptorDecoding : Prop :=
  ∀ (s : State) (a i : Nat), s.quiet →
    ((s.mem.read (a + 8 * i + 7)).extractLsb' 0 7 ≠ 0 →
      readDesc s a i = .error (.raise .badDescriptor (BitVec.ofNat 32 i))) ∧
    (s.mem.read (a + 8 * i + 7) = 0x80 → readDesc s a i = .ok .absent) ∧
    (s.mem.read (a + 8 * i + 7) = 0x00 → ∃ addr : Word,
      addr.toNat = (s.mem.read (a + 8 * i)).toNat + 2 ^ 8 * (s.mem.read (a + 8 * i + 1)).toNat +
        2 ^ 16 * (s.mem.read (a + 8 * i + 2)).toNat + 2 ^ 24 * (s.mem.read (a + 8 * i + 3)).toNat ∧
      readDesc s a i = .ok (.present addr ((s.mem.read (a + 8 * i + 4)).toNat +
        2 ^ 8 * (s.mem.read (a + 8 * i + 5)).toNat + 2 ^ 16 * (s.mem.read (a + 8 * i + 6)).toNat)))

/-- spec/43_vector_mac.md R179: S2V leaves in RD what MACZ, one FOLD per present field before the last, and MACEND leave
there; S2V changes no other block register, the primitives only the one they chain in. -/
def Obligations.S2vEqualsPrimitives : Prop :=
  ∀ (s : State) (rd rx : Reg) (a n : Word) (t : Table), s.quiet → rd.toNat < 8 → rx.toNat < 8 →
    s.pc.toNat + 16 * (t.front.length + 2) ≤ lastPc.toNat → TableOk s a n t →
    (∀ r ∈ t.ranges, plainRange s.platform r.1 r.2) →
    ∃ u w : State, exec (.s2v rd a n) s = .next u ∧ runList (s2vPrimitives rd rx t) s = .next w ∧
      w.getB rd = u.getB rd ∧ (∀ q, q ≠ rd → u.getB q = s.getB q) ∧
      (∀ q, q ≠ rd → q ≠ rx → w.getB q = s.getB q) ∧ u.mem = s.mem ∧ w.mem = s.mem

/-- The faults of S2V, SEAL and OPEN on their table, with a key, in the order of spec/60_exceptions.md R293 and
spec/43_vector_mac.md R175: CONTRACT 1, CONTRACT 2, MISALIGNED, RANGE of the table, BUS_ERROR on it, BAD_DESCRIPTOR at the
lowest index, CONTRACT 3 with the last index, RANGE of the lowest field. -/
def Obligations.TableFaults : Prop :=
  ∀ (s : State) (rd : Reg) (a b n : Word) (i : Instr), s.keyValid = true →
    (i = .s2v rd a n ∨ i = .sealAead rd a b n ∨ i = .openAead rd a b n) →
    (n.toNat = 0 → exec i s = .next (raise s .contract 1)) ∧
    (128 ≤ n.toNat → exec i s = .next (raise s .contract 2)) ∧
    (1 ≤ n.toNat → n.toNat ≤ 127 →
      (a.toNat % 8 ≠ 0 → exec i s = .next (raise s .misaligned a)) ∧
      (a.toNat % 8 = 0 →
        (Config.addrSpace < a.toNat + 8 * n.toNat → exec i s = .next (raise s .range a)) ∧
        (a.toNat + 8 * n.toNat ≤ Config.addrSpace →
          ((∃ y, inRange y a.toNat (8 * n.toNat) ∧ memOk s.platform y = false) →
            ∃ x, inRange x a.toNat (8 * n.toNat) ∧ memOk s.platform x = false ∧
              exec i s = .next (raise s .busError (BitVec.ofNat 32 x))) ∧
          (plainRange s.platform a.toNat (8 * n.toNat) →
            (∀ j < n.toNat, (∀ k < j, ∃ d, readDesc s a.toNat k = .ok d) →
              readDesc s a.toNat j = .error (.raise .badDescriptor (BitVec.ofNat 32 j)) →
              exec i s = .next (raise s .badDescriptor (BitVec.ofNat 32 j))) ∧
            ((∀ k < n.toNat, ∃ d, readDesc s a.toNat k = .ok d) →
              (readDesc s a.toNat (n.toNat - 1) = .ok .absent →
                exec i s = .next (raise s .contract (3 + BitVec.ofNat 32 (n.toNat - 1) <<< 8))) ∧
              (readDesc s a.toNat (n.toNat - 1) ≠ .ok .absent →
                ∀ j < n.toNat, ∀ d len, readDesc s a.toNat j = .ok (.present d len) →
                  rangeLegal d.toNat len = false →
                  (∀ k < j, ∀ d' len', readDesc s a.toNat k = .ok (.present d' len') →
                    rangeLegal d'.toNat len' = true) →
                  exec i s = .next (raise s .range d)))))))

/-! ### SEAL and OPEN -/

/-- SEAL completes (spec/45_aead.md R225, R231): the synthetic value and then the masked-counter ciphertext at B, the value
in RD; every other byte of memory is kept and no other state changes but CMD_PTR and the model's record of the write. -/
def Obligations.SealCompletes : Prop :=
  ∀ (s : State) (rd : Reg) (a b n : Word) (t : Table) (v : Block), s.mem.wf → s.pc ≠ lastPc → TableOk s a n t →
    (∀ r ∈ t.ranges, plainRange s.platform r.1 r.2) →
    b.toNat + (16 + t.lastLen) ≤ Config.addrSpace →
    (∀ r ∈ (a.toNat, 8 * n.toNat) :: t.ranges, ∀ x, inRange x b.toNat (16 + t.lastLen) → ¬ inRange x r.1 r.2) →
    plainRange s.platform b.toNat (16 + t.lastLen) →
    v = s2v s.macKey (t.frontFields s) (t.lastBytes s) →
    ∃ u : State, exec (.sealAead rd a b n) s = .next u ∧
      u = { (s.setB rd v).next with mem := u.mem, written := u.written, stale := u.stale } ∧
      marks s u b.toNat (16 + t.lastLen) ∧
      (∀ i < 16, u.mem.read (b.toNat + i) = blockByte v i) ∧
      (∀ i < t.lastLen, u.mem.read (b.toNat + 16 + i) =
        seqByte s (.data t.front.length) (t.lastAddr.toNat + i) ^^^
          blockByte (Config.E s.encKey (ctr v + BitVec.ofNat 128 (i / 16))) (i % 16)) ∧
      (∀ x, ¬ inRange x b.toNat (16 + t.lastLen) → u.mem.read x = s.mem.read x)

/-- OPEN completes when the tag verifies (spec/45_aead.md R226): the plaintext at B, the recomputed value in RD; every other
byte of memory is kept and no other state changes but CMD_PTR and the model's record of the write. The state is quiet,
so that the second pass reads the ciphertext of the first (R227). -/
def Obligations.OpenCompletes : Prop :=
  ∀ (s : State) (rd : Reg) (a b n : Word) (t : Table), s.mem.wf → s.quiet → s.pc ≠ lastPc → TableOk s a n t →
    (∀ r ∈ t.ranges, plainRange s.platform r.1 r.2) → 16 ≤ t.lastLen →
    rangeLegal b.toNat (t.lastLen - 16) = true →
    (∀ r ∈ (a.toNat, 8 * n.toNat) :: t.ranges, ∀ x, inRange x b.toNat (t.lastLen - 16) → ¬ inRange x r.1 r.2) →
    plainRange s.platform b.toNat (t.lastLen - 16) →
    openTag s.macKey s.encKey (t.frontFields s) (t.lastBytes s) = tagOf (t.lastBytes s) →
    ∃ u : State, exec (.openAead rd a b n) s = .next u ∧
      u = { (s.setB rd (tagOf (t.lastBytes s))).next with
        mem := u.mem, written := u.written, stale := u.stale } ∧
      marks s u b.toNat (t.lastLen - 16) ∧
      (∀ i < t.lastLen - 16, u.mem.read (b.toNat + i) =
        s.mem.read (t.lastAddr.toNat + 16 + i) ^^^
          blockByte (Config.E s.encKey (ctr (tagOf (t.lastBytes s)) + BitVec.ofNat 128 (i / 16))) (i % 16)) ∧
      (∀ x, ¬ inRange x b.toNat (t.lastLen - 16) → u.mem.read x = s.mem.read x)

/-- OPEN on a tag that does not verify, or a ciphertext shorter than 16 bytes, raises AUTH_FAILED and writes no byte and no
register (spec/45_aead.md R226, R227, spec/60_exceptions.md R283). -/
def Obligations.OpenRejects : Prop :=
  ∀ (s : State) (rd : Reg) (a b n : Word) (t : Table), TableOk s a n t →
    (∀ r ∈ t.ranges, plainRange s.platform r.1 r.2) → rangeLegal b.toNat (t.lastLen - 16) = true →
    (∀ r ∈ (a.toNat, 8 * n.toNat) :: t.ranges, ∀ x, inRange x b.toNat (t.lastLen - 16) → ¬ inRange x r.1 r.2) →
    (t.lastLen < 16 → exec (.openAead rd a b n) s = .next (raise s .authFailed 1)) ∧
    (16 ≤ t.lastLen → openTag s.macKey s.encKey (t.frontFields s) (t.lastBytes s) ≠ tagOf (t.lastBytes s) →
      exec (.openAead rd a b n) s = .next (raise s .authFailed 0))

/-- OPEN writes no byte of memory unless the tag has verified, whatever faults occur (spec/45_aead.md R227): where the table
is refused, the ciphertext is short or the tag does not verify, every byte stays. -/
def Obligations.NoPlaintextBeforeVerification : Prop :=
  ∀ (s u : State) (rd : Reg) (a b n : Word) (x : Nat), exec (.openAead rd a b n) s = .next u →
    (∀ t, TableOk s a n t → 16 ≤ t.lastLen →
      openTag s.macKey s.encKey (t.frontFields s) (t.lastBytes s) ≠ tagOf (t.lastBytes s)) →
    u.mem.read x = s.mem.read x

/-- spec/45_aead.md R228, the round trip: what SEAL wrote, given to OPEN with the same key and the same other fields,
opens to the plaintext SEAL read, with the same synthetic value. -/
def Obligations.SealThenOpen : Prop :=
  ∀ (s v u : State) (rd rd' : Reg) (a b n a' b' n' : Word) (t t' : Table),
    s.mem.wf → s.quiet → s.busy = true → rd.toNat < 8 → TableOk s a n t →
    exec (.sealAead rd a b n) s = .next v → v.busy = true →
    u.mem.wf → u.quiet → u.pc ≠ lastPc → rd'.toNat < 8 → u.macKey = s.macKey → u.encKey = s.encKey →
    TableOk u a' n' t' → t'.frontFields u = t.frontFields s → t'.lastLen = 16 + t.lastLen →
    (∀ i < 16 + t.lastLen, u.mem.read (t'.lastAddr.toNat + i) = v.mem.read (b.toNat + i)) →
    (∀ r ∈ t'.ranges, plainRange u.platform r.1 r.2) → rangeLegal b'.toNat t.lastLen = true →
    (∀ r ∈ (a'.toNat, 8 * n'.toNat) :: t'.ranges, ∀ x, inRange x b'.toNat t.lastLen → ¬ inRange x r.1 r.2) →
    plainRange u.platform b'.toNat t.lastLen →
    ∃ w : State, exec (.openAead rd' a' b' n') u = .next w ∧ w.busy = u.busy ∧ w.err = u.err ∧
      w.getB rd' = v.getB rd ∧ ∀ i < t.lastLen, w.mem.read (b'.toNat + i) = s.mem.read (t.lastAddr.toNat + i)

/-- spec/45_aead.md R229: the output of SEAL is a function of the keys and the fields alone. -/
def Obligations.SealDeterministic : Prop :=
  ∀ (s u s' u' : State) (rd rd' : Reg) (a b n a' b' n' : Word) (t t' : Table),
    s.mem.wf → s'.mem.wf → s.busy = true → s'.busy = true → rd.toNat < 8 → rd'.toNat < 8 →
    TableOk s a n t → TableOk s' a' n' t' → s'.macKey = s.macKey → s'.encKey = s.encKey →
    t'.frontFields s' = t.frontFields s → t'.lastBytes s' = t.lastBytes s →
    exec (.sealAead rd a b n) s = .next u → u.busy = true →
    exec (.sealAead rd' a' b' n') s' = .next u' → u'.busy = true →
    u'.getB rd' = u.getB rd ∧ ∀ i < 16 + t.lastLen, u'.mem.read (b'.toNat + i) = u.mem.read (b.toNat + i)

/-! ### Operand faults -/

/-- The length faults: KEYLD of a length other than 32, 48 and 64 raises INVALID_KEY with ERR_INFO = N (spec/45_aead.md
R222, spec/60_exceptions.md R282); SHORT_ONLY, LONG_ONLY before LEN_MAX, and LEN_MAX (R284). -/
def Obligations.LengthFaults : Prop :=
  ∀ (s : State) (rd rs1 : Reg) (a b n : Word),
    (n.toNat ≠ 32 → n.toNat ≠ 48 → n.toNat ≠ 64 → exec (.keyld a n) s = .next (raise s .invalidKey n)) ∧
    (16 ≤ n.toNat → exec (.padxor rd rs1 a n) s = .next (raise s .contract 5)) ∧
    (n.toNat < 16 → exec (.xorend rs1 a b n) s = .next (raise s .contract 6)) ∧
    (Config.maxLen < n.toNat → exec (.xorend rs1 a b n) s = .next (raise s .contract 4)) ∧
    (Config.maxLen < n.toNat → s.keyValid = true →
      exec (.mac rd a n) s = .next (raise s .contract 4) ∧ exec (.fold rd rs1 a n) s = .next (raise s .contract 4) ∧
      exec (.macend rd rs1 a n) s = .next (raise s .contract 4) ∧
      exec (.ctrxor rs1 a b n) s = .next (raise s .contract 4))

/-- The RANGE faults of single operands (spec/20_memory.md R65): a non-empty range that passes `2^32 - 1` raises RANGE with
its start, after the length and key checks; for XOREND and CTRXOR the source comes before the destination. -/
def Obligations.RangeFaults : Prop :=
  ∀ (s : State) (rd rs1 : Reg) (a b n : Word),
    (Config.addrSpace < a.toNat + 16 →
      exec (.bld rd a) s = .next (raise s .range a) ∧ exec (.bst rs1 a) s = .next (raise s .range a)) ∧
    (0 < n.toNat → Config.addrSpace < a.toNat + n.toNat →
      (n.toNat = 32 ∨ n.toNat = 48 ∨ n.toNat = 64 → exec (.keyld a n) s = .next (raise s .range a)) ∧
      (n.toNat ≤ 15 → exec (.padxor rd rs1 a n) s = .next (raise s .range a)) ∧
      (16 ≤ n.toNat → n.toNat ≤ Config.maxLen → exec (.xorend rs1 a b n) s = .next (raise s .range a)) ∧
      (n.toNat ≤ Config.maxLen → s.keyValid = true →
        exec (.mac rd a n) s = .next (raise s .range a) ∧ exec (.fold rd rs1 a n) s = .next (raise s .range a) ∧
        exec (.macend rd rs1 a n) s = .next (raise s .range a) ∧
        exec (.ctrxor rs1 a b n) s = .next (raise s .range a))) ∧
    (0 < n.toNat → n.toNat ≤ Config.maxLen → a.toNat + n.toNat ≤ Config.addrSpace →
      Config.addrSpace < b.toNat + n.toNat →
      (16 ≤ n.toNat → exec (.xorend rs1 a b n) s = .next (raise s .range b)) ∧
      (s.keyValid = true → exec (.ctrxor rs1 a b n) s = .next (raise s .range b)))

/-- Destinations that break spec/20_memory.md R68. XOREND and CTRXOR raise OVERLAP where the destination is not the source
and shares a byte with it. SEAL and OPEN (spec/45_aead.md R225, R226) raise RANGE where the destination passes the address
space, then OVERLAP where it shares a byte with the table or a present field. Nothing but the fault record changes. -/
def Obligations.DestinationFaults : Prop :=
  (∀ (s : State) (rs1 : Reg) (a b n : Word), n.toNat ≤ Config.maxLen → a.toNat + n.toNat ≤ Config.addrSpace →
    b.toNat + n.toNat ≤ Config.addrSpace → b ≠ a → (∃ x, inRange x b.toNat n.toNat ∧ inRange x a.toNat n.toNat) →
    (16 ≤ n.toNat → exec (.xorend rs1 a b n) s = .next (raise s .overlap b)) ∧
    (s.keyValid = true → exec (.ctrxor rs1 a b n) s = .next (raise s .overlap b))) ∧
  (∀ (s : State) (rd : Reg) (a b n : Word) (t : Table) (len : Nat) (i : Instr), TableOk s a n t →
    (i = .sealAead rd a b n ∧ len = 16 + t.lastLen ∨ i = .openAead rd a b n ∧ len = t.lastLen - 16) → 0 < len →
    (Config.addrSpace < b.toNat + len → exec i s = .next (raise s .range b)) ∧
    (b.toNat + len ≤ Config.addrSpace →
      (∃ r ∈ (a.toNat, 8 * n.toNat) :: t.ranges, ∃ x, inRange x b.toNat len ∧ inRange x r.1 r.2) →
      exec i s = .next (raise s .overlap b)))

/-- A read where memory does not answer raises BUS_ERROR, with ERR_INFO one such byte of the stage, and changes nothing but
the fault record (spec/60_exceptions.md R280, R281, R286, R291): the command fetch, the source of the commands with one
operand and of XOREND and CTRXOR, and the fields of S2V, SEAL and OPEN, whose earlier checks pass (R293). -/
def Obligations.ReadBusErrors : Prop :=
  (∀ s u : State, sequencerTurn s = some u → (∃ y, inRange y s.pc.toNat 16 ∧ memOk s.platform y = false) →
    ∃ x, inRange x s.pc.toNat 16 ∧ memOk s.platform x = false ∧
      step s = .next (raise u .busError (BitVec.ofNat 32 x))) ∧
  (∀ (s : State) (rd rs1 : Reg) (a b n : Word) (i : Instr) (len : Nat),
    (i = .bld rd a ∧ len = 16 ∨
     i = .keyld a n ∧ len = n.toNat ∧ (n.toNat = 32 ∨ n.toNat = 48 ∨ n.toNat = 64) ∨
     i = .padxor rd rs1 a n ∧ len = n.toNat ∧ n.toNat ≤ 15 ∨
     (i = .mac rd a n ∨ i = .fold rd rs1 a n ∨ i = .macend rd rs1 a n) ∧ len = n.toNat ∧
       n.toNat ≤ Config.maxLen ∧ s.keyValid = true ∨
     (i = .xorend rs1 a b n ∧ 16 ≤ n.toNat ∨ i = .ctrxor rs1 a b n ∧ s.keyValid = true) ∧ len = n.toNat ∧
       n.toNat ≤ Config.maxLen ∧ b.toNat + n.toNat ≤ Config.addrSpace ∧
       (b = a ∨ ∀ x, inRange x b.toNat n.toNat → ¬ inRange x a.toNat n.toNat)) →
    a.toNat + len ≤ Config.addrSpace → (∃ y, inRange y a.toNat len ∧ memOk s.platform y = false) →
    ∃ x, inRange x a.toNat len ∧ memOk s.platform x = false ∧
      exec i s = .next (raise s .busError (BitVec.ofNat 32 x))) ∧
  (∀ (s : State) (rd : Reg) (a b n : Word) (t : Table) (i : Instr), TableOk s a n t →
    (i = .s2v rd a n ∨ ∃ len, (i = .sealAead rd a b n ∧ len = 16 + t.lastLen ∨
        i = .openAead rd a b n ∧ len = t.lastLen - 16) ∧
      rangeLegal b.toNat len = true ∧
      ∀ r ∈ (a.toNat, 8 * n.toNat) :: t.ranges, ∀ x, inRange x b.toNat len → ¬ inRange x r.1 r.2) →
    (∃ r ∈ t.ranges, ∃ y, inRange y r.1 r.2 ∧ memOk s.platform y = false) →
    ∃ r ∈ t.ranges, ∃ x, inRange x r.1 r.2 ∧ memOk s.platform x = false ∧
      exec i s = .next (raise s .busError (BitVec.ofNat 32 x)))

/-- A data write where memory does not answer raises BUS_ERROR with one such byte; the destination bytes take any value and
nothing else changes but the fault record (spec/60_exceptions.md R286, R290, R291, 93_implementation_defined.md I4). -/
def Obligations.DataWriteBusError : Prop :=
  ∀ (i : Instr) (s : State) (dst len : Nat), destOf i s = some (dst, len) →
    (∃ y, inRange y dst len ∧ memOk s.platform y = false) →
    (∃ x, inRange x dst len ∧ memOk s.platform x = false ∧
      exec i s = .next (raise (scramble s dst len) .busError (BitVec.ofNat 32 x))) ∧
    (s.mem.wf → ∀ x, inRange x dst len → (scramble s dst len).mem.read x = Config.freeByte s.draws .leftover x)

/-! ### The host -/

/-- An MMIO read returns the register and changes nothing of the block (spec/10_state.md R30, R32-R41, spec/20_memory.md
R70); reserved offsets read 0. -/
def Obligations.MmioReadReturnsRegister : Prop :=
  ∀ (s : State) (off : Nat) (rest : List Event), s.platform.base % 4 = 0 → off % 4 = 0 → off < 64 →
    s.agenda = .mmioRead (s.platform.base + off) 4 :: rest →
    ∃ w : Word, step s = .next { s with agenda := rest, draws := s.draws + 1, hostData := w } ∧
      (off = 0x00 → w = 0x53495631) ∧ (off = 0x04 → w = 0x07100010) ∧ (off = 0x1C → w = 0x0000187F) ∧
      (off = 0x08 → w = if s.ie then 4 else 0) ∧ (off = 0x10 → w = s.pc) ∧ (off = 0x14 → w = s.errPc) ∧
      (off = 0x18 → w = s.errInfo) ∧ (0x20 ≤ off → w = 0) ∧
      (off = 0x0C → w.getLsbD 0 = s.busy ∧ w.getLsbD 1 = s.done ∧ w.getLsbD 2 = s.err ∧ w.getLsbD 3 = s.keyValid ∧
        w.getLsbD 4 = s.eq ∧ w.extractLsb' 5 3 = 0 ∧ w.extractLsb' 8 8 = s.errcode ∧ w.extractLsb' 16 16 = 0)

/-- A host access to the window that is not a naturally aligned 32-bit access, or lies outside it, is refused
(spec/10_state.md R31, 93_implementation_defined.md I9). -/
def Obligations.UnadmittedAccessRefused : Prop :=
  ∀ (s : State) (addr width : Nat) (v : Word) (rest : List Event),
    (width ≠ 4 ∨ addr % 4 ≠ 0 ∨ addr < s.platform.base ∨ s.platform.base + 64 ≤ addr) →
    (s.agenda = .mmioRead addr width :: rest → step s = .refused (.hostAccess addr)) ∧
    (s.agenda = .mmioWrite addr width v :: rest → step s = .refused (.hostAccess addr))

/-- A write of CTRL with SRST = 0 (spec/10_state.md R34, spec/46_sequencer_data.md R250): IE takes bit 2; GO starts a run
when BUSY = 0, clearing DONE, ERR, ERRCODE, ERR_PC and ERR_INFO and keeping CMD_PTR, the registers, the key store, EQ and
memory; GO while BUSY = 1 is ignored. A GO that meets the end of a run, by HALT or by ILLEGAL_OPCODE that no event to come
overwrites, gives the same result in both orders but for what GO itself writes, from which the host learns whether a new run
started (spec/60_exceptions.md R294; that R294 means this is assumption 21). -/
def Obligations.CtrlWriteStartsRun : Prop :=
  (∀ (s : State) (v : Word) (rest : List Event), s.platform.base % 4 = 0 → v.getLsbD 1 = false →
    s.agenda = .mmioWrite (s.platform.base + 0x08) 4 v :: rest →
    ∃ t : State, step s = .next t ∧ t.ie = v.getLsbD 2 ∧ t.pc = s.pc ∧ t.b = s.b ∧ t.klen = s.klen ∧
      t.macKey = s.macKey ∧ t.encKey = s.encKey ∧ t.keyValid = s.keyValid ∧ t.eq = s.eq ∧ t.mem = s.mem ∧
      t.agenda = rest ∧
      (v.getLsbD 0 = true → s.busy = false →
        t.busy = true ∧ t.done = false ∧ t.err = false ∧ t.errcode = 0 ∧ t.errPc = 0 ∧ t.errInfo = 0 ∧
          t.raced = [] ∧ t.written = []) ∧
      (v.getLsbD 0 = false ∨ s.busy = true →
        t.busy = s.busy ∧ t.done = s.done ∧ t.err = s.err ∧ t.errcode = s.errcode ∧ t.errPc = s.errPc ∧
          t.errInfo = s.errInfo ∧ t.raced = s.raced ∧ t.written = s.written)) ∧
  ∀ (s : State) (v : Word) (es : List Event) (bs : List Byte), s.platform.base % 4 = 0 → v.getLsbD 1 = false →
    v.getLsbD 0 = true → s.busy = true → s.quiet → fetch s = .ok bs →
    (∀ x, inRange x s.pc.toNat 16 → x ∉ hostWrites s.platform.coherent s.dirty es) →
    ((∃ more, decode bs = .ok (.halt, more)) ∨ ∃ e, decode bs = .error e) →
    ∃ t : State, t.busy = false ∧ (t.done = true ∨ t.err = true) ∧
      Host.Core.run Sys2Proof.core 2
        { s with agenda := .mmioWrite (s.platform.base + 0x08) 4 v :: .seqTurn :: es } = .next t ∧
      Host.Core.run Sys2Proof.core 2
        { s with agenda := .seqTurn :: .mmioWrite (s.platform.base + 0x08) 4 v :: es } = .next (startRun t)

/-- spec/10_state.md R36: bits [31:4] of CMD_PTR are written while BUSY = 0, bits [3:0] read 0 and ignore writes, and a write
while BUSY = 1 is ignored. -/
def Obligations.CmdPtrWrite : Prop :=
  ∀ (s : State) (v : Word) (rest : List Event), s.platform.base % 4 = 0 →
    s.agenda = .mmioWrite (s.platform.base + 0x10) 4 v :: rest →
    ∃ w : Word, step s = .next { s with agenda := rest, draws := s.draws + 1, pc := w } ∧
      (s.busy = true → w = s.pc) ∧
      (s.busy = false → w.extractLsb' 4 28 = v.extractLsb' 4 28 ∧ w.extractLsb' 0 4 = 0)

/-- A write of STATUS (spec/10_state.md R35): 1 to bit 1 clears DONE, 1 to bit 2 clears ERR and ERRCODE, 0 leaves them. A
write of a read-only or reserved register changes nothing (R32, R33, R37-R40). -/
def Obligations.OtherRegisterWrites : Prop :=
  ∀ (s : State) (off : Nat) (v : Word) (rest : List Event), s.platform.base % 4 = 0 → off % 4 = 0 → off < 64 →
    s.agenda = .mmioWrite (s.platform.base + off) 4 v :: rest →
    (off = 0x0C → step s = .next { s with
      agenda := rest, draws := s.draws + 1
      done := if v.getLsbD 1 then false else s.done
      err := if v.getLsbD 2 then false else s.err
      errcode := if v.getLsbD 2 then 0 else s.errcode }) ∧
    (off ≠ 0x08 → off ≠ 0x0C → off ≠ 0x10 → step s = .next { s with agenda := rest, draws := s.draws + 1 })

/-- A soft reset (spec/70_reset_and_hazards.md R321, spec/10_state.md R34) completes in every state; the block takes its
reset values whatever else is written; idle, memory stays; during a run, every byte in the destination range of the command
at CMD_PTR takes any value (93_implementation_defined.md I2), and every byte outside it stays. Which range counts is
assumption 12: 16 bytes at A for BST, N bytes at B for XOREND and CTRXOR, 16 + LEN bytes at B for SEAL with a table that
passes, and LEN - 16 bytes at B for an OPEN whose checks passed and whose tag verified; none where the range is illegal, for
any other SEAL or OPEN, and for the other commands. -/
def Obligations.SoftReset : Prop :=
  (∀ (s : State) (v : Word) (rest : List Event), s.platform.base % 4 = 0 → v.getLsbD 1 = true →
    s.agenda = .mmioWrite (s.platform.base + 0x08) 4 v :: rest →
    ∃ t, step s = .next t ∧
      t = { State.reset with
        mem := t.mem, platform := s.platform, agenda := rest, raced := s.raced, dirty := s.dirty
        written := t.written, stale := t.stale, hostData := s.hostData, draws := s.draws + 1 } ∧
      (s.busy = false → t.mem = s.mem ∧ t.written = s.written ∧ t.stale = s.stale) ∧
      (s.busy = true → ∀ x, (∀ bs i more, fetch { s with agenda := rest }.tick = .ok bs → decode bs = .ok (i, more) →
        ¬ inRange x (abandonedRange i { s with agenda := rest }.tick).1
          (abandonedRange i { s with agenda := rest }.tick).2) → t.mem.read x = s.mem.read x) ∧
      (s.busy = true → s.mem.wf → ∀ bs i more x, fetch { s with agenda := rest }.tick = .ok bs →
        decode bs = .ok (i, more) → inRange x (abandonedRange i { s with agenda := rest }.tick).1
          (abandonedRange i { s with agenda := rest }.tick).2 →
        t.mem.read x = Config.freeByte (s.draws + 1) .leftover x)) ∧
  (∀ (s : State) (i : Instr), storesMemory i = false → (abandonedRange i s).2 = 0) ∧
  ∀ (s : State) (r : Reg) (a b n : Word),
    abandonedRange (.bst r a) s = (a.toNat, if a.toNat + 16 ≤ Config.addrSpace then 16 else 0) ∧
    abandonedRange (.xorend r a b n) s = (b.toNat, if b.toNat + n.toNat ≤ Config.addrSpace then n.toNat else 0) ∧
    abandonedRange (.ctrxor r a b n) s = (b.toNat, if b.toNat + n.toNat ≤ Config.addrSpace then n.toNat else 0) ∧
    (∀ t, TableOk s a n t → abandonedRange (.sealAead r a b n) s =
      (b.toNat, if b.toNat + (16 + t.lastLen) ≤ Config.addrSpace then 16 + t.lastLen else 0)) ∧
    ((∀ t, ¬ TableOk s a n t) → (abandonedRange (.sealAead r a b n) s).2 = 0) ∧
    (∀ t, TableOk s a n t → (∀ q ∈ t.ranges, plainRange s.platform q.1 q.2) → 16 ≤ t.lastLen →
      rangeLegal b.toNat (t.lastLen - 16) = true →
      (∀ q ∈ (a.toNat, 8 * n.toNat) :: t.ranges, ∀ x, inRange x b.toNat (t.lastLen - 16) → ¬ inRange x q.1 q.2) →
      openTag s.macKey s.encKey (t.frontFields s) (t.lastBytes s) = tagOf (t.lastBytes s) →
      abandonedRange (.openAead r a b n) s = (b.toNat, t.lastLen - 16)) ∧
    ((abandonedRange (.openAead r a b n) s).2 = 0 ∨ ∃ t, TableOk s a n t ∧ 16 ≤ t.lastLen ∧
      openTag s.macKey s.encKey (t.frontFields s) (t.lastBytes s) = tagOf (t.lastBytes s) ∧
      abandonedRange (.openAead r a b n) s = (b.toNat, t.lastLen - 16))

/-- IRQ is `IE AND (DONE OR ERR)` at all times: HALT and every fault raise it when IE = 1, and the host lowers it by
writing 1 to the set bit of STATUS, by clearing IE, by GO, or by a soft reset (spec/10_state.md R41,
spec/60_exceptions.md R295). -/
def Obligations.InterruptLine : Prop :=
  (∀ s : State, s.irq = (s.ie && (s.done || s.err))) ∧
  (∀ (s t : State) (code : FaultCode) (info : Word),
    (raise s code info).irq = s.ie ∧ (exec .halt s = .next t → t.irq = s.ie)) ∧
  ∀ (s t : State) (v : Word) (rest : List Event), s.platform.base % 4 = 0 → step s = .next t →
    (s.agenda = .mmioWrite (s.platform.base + 0x0C) 4 v :: rest →
      t.irq = (s.ie && ((s.done && !v.getLsbD 1) || (s.err && !v.getLsbD 2)))) ∧
    (s.agenda = .mmioWrite (s.platform.base + 0x08) 4 v :: rest →
      t.irq = (!v.getLsbD 1 && v.getLsbD 2 && !(v.getLsbD 0 && !s.busy) && (s.done || s.err)))

/-- What the host's accesses to DMA memory do (spec/20_memory.md R81-R83, spec/70_reset_and_hazards.md R330-R332;
assumptions 8, 9): each event where plain memory answers; a store, which the run in progress reads as any byte and the next
run as it is, on a platform that is not coherent only after a clean, during a run or not; what the block wrote, which the
host reads as any byte during the run, after it on a coherent platform as it is, and on another after an invalidation;
and where a store and a write of the block meet in an uncleaned byte. -/
def Obligations.HostVisibility : Prop :=
  (∀ (s : State) (a : Word) (v : Byte) (rest : List Event), kindAt s.platform a.toNat = some .plain →
    (s.agenda = .store a v :: rest → step s = .next (hostStore { s with agenda := rest }.tick a.toNat v)) ∧
    (s.agenda = .load a :: rest → step s = .next { s with
      agenda := rest, draws := s.draws + 1
      hostData := (hostByte { s with agenda := rest }.tick a.toNat).setWidth 32 }) ∧
    (s.agenda = .clean a :: rest → step s = .next (hostClean { s with agenda := rest }.tick a.toNat)) ∧
    (s.agenda = .invalidate a :: rest → step s = .next (hostInvalidate { s with agenda := rest }.tick a.toNat))) ∧
  ∀ (s : State) (x : Nat) (v w : Byte) (acc : Config.Access), s.mem.wf →
    (∀ y, (hostStore s x v).mem.read y = if y = x then v else s.mem.read y) ∧
    (∀ y, y ≠ x → seqByte (hostStore s x v) acc y = seqByte s acc y) ∧
    (s.busy = true → seqByte (hostStore s x v) acc x = Config.freeByte s.draws acc x) ∧
    ((s.busy && runWrites (runFuel s) (hostStore s x v) x) = false → hostByte (hostStore s x v) x = v) ∧
    (s.busy = true → hostByte (memWrite s x [w]) x = Config.freeByte s.draws .host x) ∧
    (s.platform.coherent = true →
      seqByte (startRun (hostStore s x v)) acc x = v ∧
      (s.busy = false → hostByte (memWrite s x [w]) x = w)) ∧
    (s.platform.coherent = false →
      seqByte (startRun (hostStore s x v)) acc x = Config.freeByte s.draws acc x ∧
      seqByte (startRun (hostClean (hostStore s x v) x)) acc x = v ∧
      hostByte (memWrite s x [w]) x = Config.freeByte s.draws .host x ∧
      (s.busy = false → hostByte (hostInvalidate (memWrite s x [w]) x) x = w) ∧
      (x ∈ s.stale → (s.busy && runWrites (runFuel s) (hostInvalidate s x) x) = false →
        hostByte (hostInvalidate s x) x = s.mem.read x) ∧
      (hostClean (memWrite (hostStore s x v) x [w]) x).mem.read x = Config.freeByte s.draws .host x ∧
      (hostInvalidate (hostStore s x v) x).mem.read x = Config.freeByte s.draws .host x)

/-- Races reach over the whole run and no further (spec/20_memory.md R81, R83, spec/70_reset_and_hazards.md R331; which
bytes are drawn is assumption 8). Where a run that draws the bytes of the host's events to come takes these events while
BUSY = 1, or stops without a meaning before them (spec/20_memory.md R69), what it reads of these bytes is any byte, and it
does take them, or stops: so with every store that a run takes while BUSY = 1, unless the run would not come to it if it
drew the byte. A byte that the host does not store, or only behind its wait for the end of the run, is read as it is; and so
is a byte that no event of the host writes while BUSY = 1 in the run, if the run does not stop. What the host loads of a byte that the run has written or writes later is any byte, and any other as it is. -/
def Obligations.RacesReachOverTheRun : Prop :=
  (∀ (s u : State) (n x : Nat) (acc : Config.Access), sequencerTurn s = some u → meets n (s.drawn n) = true →
    x ∈ s.comingWrites n → seqByte u acc x = Config.freeByte u.draws acc x ∧
      ∃ (k : Nat) (t : State), runWithin k s = some t ∧ t.busy = true ∧
        ((∃ (e : Event) (es : List Event), t.agenda = e :: es ∧ x ∈ hostWrites t.platform.coherent t.dirty [e]) ∨
          ∀ v, step t ≠ .next v)) ∧
  (∀ (s u t : State) (k n : Nat) (a : Word) (v : Byte) (es : List Event) (acc : Config.Access),
    sequencerTurn s = some u → runWithin k s = some t → t.busy = true → t.agenda = .store a v :: es →
    s.agenda.length = n + es.length →
    seqByte u acc a.toNat = Config.freeByte u.draws acc a.toNat ∨ meets n (s.drawn n) = false) ∧
  (∀ (s u : State) (x : Nat) (acc : Config.Access), sequencerTurn s = some u → x ∉ s.raced →
    (s.platform.coherent = true ∨ x ∉ s.dirty) →
    (∀ before after : List Event, (s.agenda = before ∨ s.agenda = before ++ .awaitIdle :: after) →
      (∀ a v, Event.store a v ∈ before → a.toNat ≠ x) → seqByte u acc x = s.mem.read x) ∧
    ((∀ (k : Nat) (t : State) (e : Event) (es : List Event), runWithin k s = some t → t.busy = true →
        t.agenda = e :: es → x ∉ hostWrites t.platform.coherent t.dirty [e]) →
      (∀ (k : Nat) (t : State), runWithin k s = some t → t.busy = true → ∃ v, step t = .next v) →
      seqByte u acc x = s.mem.read x)) ∧
  ∀ (s t : State) (a : Word) (rest : List Event), s.busy = true → s.agenda = .load a :: rest → step s = .next t →
    (∀ k u, runWithin k t = some u → a.toNat ∈ u.written →
      t.hostData = (Config.freeByte t.draws .host a.toNat).setWidth 32) ∧
    (∀ k u, s.pcAligned → runWithin k t = some u → u.busy = false → a.toNat ∉ u.written →
      (s.platform.coherent = true ∨ a.toNat ∉ s.stale) → t.hostData = (s.mem.read a.toNat).setWidth 32)
end

