-- ==== Sys2Proof/Laws/Blocks.lean ====
section
/-! SUPPORT. A block and its 16 bytes (spec/00_scope.md R10): lengths, single bytes, and the two round trips. -/

namespace Sys2Proof.Machine

@[simp] theorem blockBytes_length (v : Block) : (blockBytes v).length = 16 := by simp [blockBytes]

@[simp] theorem blockBytes_getElem (v : Block) (i : Nat) (h : i < (blockBytes v).length) :
    (blockBytes v)[i] = blockByte v i := by simp [blockBytes]

theorem blockByte_getLsbD (v : Block) (i j : Nat) (hj : j < 8) :
    (blockByte v i).getLsbD j = v.getLsbD (8 * (15 - i) + j) := by
  simp [blockByte, hj]

/-- Two blocks with the same bytes are equal. -/
theorem block_ext {v w : Block} (h : ∀ i, i < 16 → blockByte v i = blockByte w i) : v = w := by
  apply BitVec.eq_of_getLsbD_eq
  intro k hk
  have hi := congrArg (fun x : Byte => x.getLsbD (k % 8)) (h (15 - k / 8) (by omega))
  simp only [blockByte_getLsbD _ (15 - k / 8) (k % 8) (by omega)] at hi
  rwa [show 8 * (15 - (15 - k / 8)) + k % 8 = k by omega] at hi

theorem blockBytes_injective {v w : Block} (h : blockBytes v = blockBytes w) : v = w :=
  block_ext fun i hi => by
    have := congrArg (fun l : List Byte => l[i]?) h
    simpa [hi] using this

/-- Bits of the running value of `blockOfBytes`: the last byte read is lowest. -/
theorem foldl_bytes_getLsbD (bs : List Byte) (acc : Block) (k : Nat) (hk : k < 128) :
    (bs.foldl (fun (acc : Block) (x : Byte) => (acc <<< 8) ||| x.setWidth 128) acc).getLsbD k =
      if h : k / 8 < bs.length then (bs[bs.length - 1 - k / 8]'(by omega)).getLsbD (k % 8)
      else acc.getLsbD (k - 8 * bs.length) := by
  induction bs generalizing acc with
  | nil => simp
  | cons x xs ih =>
    rw [List.foldl_cons, ih]
    by_cases h1 : k / 8 < xs.length
    · rw [dif_pos h1, dif_pos (by simp; omega)]
      congr 1
      rw [List.getElem_cons, dif_neg (by simp; omega)]
      congr 1
      simp; omega
    · rw [dif_neg h1]
      by_cases h2 : k / 8 < (x :: xs).length
      · rw [dif_pos h2]
        simp only [List.length_cons] at h2
        have hx : k / 8 = xs.length := by omega
        simp only [List.length_cons, hx, show xs.length + 1 - 1 - xs.length = 0 by omega, List.getElem_cons_zero]
        simp [show k - 8 * xs.length = k % 8 by omega, show k % 8 < 8 by omega, show k % 8 < 128 by omega]
      · rw [dif_neg h2]
        simp only [List.length_cons] at h2 ⊢
        have h3 : 8 ≤ k - 8 * xs.length := by omega
        rw [BitVec.getLsbD_or, BitVec.getLsbD_shiftLeft, BitVec.getLsbD_setWidth]
        simp [show ¬(k - 8 * xs.length < 8) by omega, show k - 8 * xs.length < 128 by omega,
          BitVec.getLsbD_of_ge x (k - 8 * xs.length) h3, show k - 8 * xs.length - 8 = k - 8 * (xs.length + 1) by omega]

/-- Byte `i` of the block of 16 bytes is the byte at offset `i`. -/
theorem blockByte_blockOfBytes (bs : List Byte) (h : bs.length = 16) (i : Nat) (hi : i < 16) :
    blockByte (blockOfBytes bs) i = bs[i] := by
  apply BitVec.eq_of_getLsbD_eq
  intro j hj
  rw [blockByte_getLsbD _ _ _ hj, blockOfBytes, foldl_bytes_getLsbD _ _ _ (by omega), dif_pos (by omega)]
  congr 1
  · congr 1; omega
  · omega

theorem blockBytes_blockOfBytes (bs : List Byte) (h : bs.length = 16) : blockBytes (blockOfBytes bs) = bs := by
  apply List.ext_getElem (by simp [h])
  intro i h1 h2
  rw [blockBytes_getElem, blockByte_blockOfBytes bs h i (by omega)]

theorem blockOfBytes_blockBytes (v : Block) : blockOfBytes (blockBytes v) = v :=
  block_ext fun i hi => by
    rw [blockByte_blockOfBytes _ (by simp) i hi, blockBytes_getElem]

@[simp] theorem blockByte_xor (v w : Block) (i : Nat) : blockByte (v ^^^ w) i = blockByte v i ^^^ blockByte w i := by
  simp [blockByte, BitVec.extractLsb'_xor]

end Sys2Proof.Machine
end

