-- ==== Sys2Proof/Laws/Datapath.lean ====
section
/-! SUPPORT. The byte strings of the datapath, byte by byte: `xorend`, the keystream, counter mode, SEAL's output. -/

namespace Sys2Proof.Machine

/-! ### `xorend` -/

theorem xorend_length {a b : List Byte} (h : b.length ≤ a.length) : (xorend a b).length = a.length := by
  simp only [xorend, List.length_append, List.length_take, List.length_zipWith, List.length_drop]
  omega

theorem xorend_getElem {a b : List Byte} (h : b.length ≤ a.length) (i : Nat) (hi : i < (xorend a b).length) :
    (xorend a b)[i] =
      if hk : i < a.length - b.length then a[i]'(by omega)
      else (a[i]'(by rwa [xorend_length h] at hi)) ^^^
        (b[i - (a.length - b.length)]'(by rw [xorend_length h] at hi; omega)) := by
  have hi' := hi
  rw [xorend_length h] at hi'
  simp only [xorend]
  by_cases hk : i < a.length - b.length
  · rw [dif_pos hk, List.getElem_append_left (by simp; omega), List.getElem_take]
  · rw [dif_neg hk, List.getElem_append_right (by simp; omega), List.getElem_zipWith, List.getElem_drop]
    simp only [List.length_take, Nat.min_eq_left (Nat.sub_le a.length b.length)]
    congr 2
    omega

/-! ### Counter mode -/

theorem flatMap_blocks_length (l : List Nat) (f : Nat → Block) :
    (l.flatMap (fun j => blockBytes (f j))).length = 16 * l.length := by
  induction l with
  | nil => rfl
  | cons x l ih => simp only [List.flatMap_cons, List.length_append, blockBytes_length, ih, List.length_cons]; omega

theorem flatMap_blocks_getElem (l : List Nat) (f : Nat → Block) (i : Nat)
    (hi : i < (l.flatMap (fun j => blockBytes (f j))).length) :
    (l.flatMap (fun j => blockBytes (f j)))[i] =
      blockByte (f (l[i / 16]'(by rw [flatMap_blocks_length] at hi; omega))) (i % 16) := by
  induction l generalizing i with
  | nil => simp at hi
  | cons x l ih =>
    simp only [List.flatMap_cons]
    by_cases h : i < 16
    · rw [List.getElem_append_left (by simpa using h), blockBytes_getElem]
      simp [Nat.div_eq_of_lt h, Nat.mod_eq_of_lt h]
    · rw [List.getElem_append_right (by simp; omega), ih]
      simp only [blockBytes_length, List.getElem_cons, show ¬(i / 16 = 0) by omega, dif_neg, not_false_eq_true,
        show (i - 16) / 16 = i / 16 - 1 by omega, show (i - 16) % 16 = i % 16 by omega]

@[simp] theorem ctrks_length (k : List Byte) (q : Block) (n : Nat) : (ctrks k q n).length = n := by
  rw [ctrks, List.length_take, flatMap_blocks_length, List.length_range]
  omega

/-- Byte `i` of the keystream is byte `i mod 16` of the cipher block of counter `Q + i div 16` (R201). -/
theorem ctrks_getElem (k : List Byte) (q : Block) (n i : Nat) (hi : i < (ctrks k q n).length) :
    (ctrks k q n)[i] = blockByte (Config.E k (q + BitVec.ofNat 128 (i / 16))) (i % 16) := by
  simp only [ctrks, List.getElem_take]
  rw [flatMap_blocks_getElem _ (fun j => Config.E k (q + BitVec.ofNat 128 j))]
  simp

@[simp] theorem ctrxor_length (k : List Byte) (q : Block) (p : List Byte) : (ctrxor k q p).length = p.length := by
  simp [ctrxor]

theorem ctrxor_getElem (k : List Byte) (q : Block) (p : List Byte) (i : Nat) (hi : i < (ctrxor k q p).length) :
    (ctrxor k q p)[i] = (p[i]'(by simpa using hi)) ^^^
      blockByte (Config.E k (q + BitVec.ofNat 128 (i / 16))) (i % 16) := by
  simp [ctrxor, ctrks_getElem]

/-! ### SEAL -/

@[simp] theorem sealBytes_length (mk ek : List Byte) (front : List Field) (p : List Byte) :
    (sealBytes mk ek front p).length = 16 + p.length := by
  simp [sealBytes]

/-- The tag of what SEAL writes is the synthetic value, and its body the ciphertext (R231). -/
theorem tagOf_sealBytes (mk ek : List Byte) (front : List Field) (p : List Byte) :
    tagOf (sealBytes mk ek front p) = s2v mk front p := by
  simp [tagOf, sealBytes, blockOfBytes_blockBytes]

theorem drop_sealBytes (mk ek : List Byte) (front : List Field) (p : List Byte) :
    (sealBytes mk ek front p).drop 16 = ctrxor ek (ctr (s2v mk front p)) p := by
  simp [sealBytes]

end Sys2Proof.Machine
end

