-- ==== Sys2Proof/Laws/Encoding.lean ====
section
/-! SUPPORT. Words as bytes, and the fields of an encoded command word (spec/30_encoding.md R101, R106, R109). -/

namespace Sys2Proof

/-! ### Words and bytes (R62) -/

theorem wordOfBytes_bytesOfWord (w : Word) :
    wordOfBytes (w.extractLsb' 0 8) (w.extractLsb' 8 8) (w.extractLsb' 16 8) (w.extractLsb' 24 8) = w := by
  unfold wordOfBytes
  apply BitVec.eq_of_getLsbD_eq
  intro i hi
  simp only [BitVec.getLsbD_append, BitVec.getLsbD_extractLsb']
  by_cases h1 : i < 8
  · simp [h1]
  · by_cases h2 : i - 8 < 8
    · simp [h1, h2, show 8 + (i - 8) = i by omega]
    · by_cases h3 : i - 8 - 8 < 8
      · simp [h1, h2, h3, show 16 + (i - 8 - 8) = i by omega]
      · simp [h1, h2, h3, show 24 + (i - 8 - 8 - 8) = i by omega, show i - 8 - 8 - 8 < 8 by omega]

/-- The value of a little-endian word, as R62 writes it. -/
theorem wordOfBytes_toNat (b0 b1 b2 b3 : Byte) :
    (wordOfBytes b0 b1 b2 b3).toNat = b0.toNat + 2 ^ 8 * b1.toNat + 2 ^ 16 * b2.toNat + 2 ^ 24 * b3.toNat := by
  unfold wordOfBytes
  simp only [BitVec.toNat_append]
  have h0 := b0.isLt
  have h1 := b1.isLt
  have h2 := b2.isLt
  rw [← Nat.shiftLeft_add_eq_or_of_lt h0, ← Nat.shiftLeft_add_eq_or_of_lt h1, ← Nat.shiftLeft_add_eq_or_of_lt h2]
  simp only [Nat.shiftLeft_eq]
  omega

theorem wordOfBytes_getLsbD (b0 b1 b2 b3 : Byte) (i : Nat) (hi : i < 32) :
    (wordOfBytes b0 b1 b2 b3).getLsbD i =
      if i < 8 then b0.getLsbD i else if i < 16 then b1.getLsbD (i - 8)
      else if i < 24 then b2.getLsbD (i - 16) else b3.getLsbD (i - 24) := by
  unfold wordOfBytes
  simp only [BitVec.getLsbD_append]
  by_cases h1 : i < 8
  · simp [h1]
  · by_cases h2 : i < 16
    · simp [h1, h2, show i - 8 < 8 by omega]
    · by_cases h3 : i < 24
      · simp [h1, h2, h3, show ¬(i - 8 < 8) by omega, show i - 8 - 8 = i - 16 by omega, show i - 16 < 8 by omega]
      · simp [h1, h2, h3, show ¬(i - 8 < 8) by omega, show ¬(i - 8 - 8 < 8) by omega,
          show i - 8 - 8 - 8 = i - 24 by omega]

/-! ### Opcodes -/

theorem ofCode_code (o : Op) : Op.ofCode o.code = some o := by cases o <;> decide

theorem ofCode_eq_some {c : Byte} {o : Op} : Op.ofCode c = some o ↔ o.code = c := by
  constructor
  · intro h; simpa using List.find?_some h
  · rintro rfl; exact ofCode_code o

/-! ### The fields of an encoded command word (R101) -/

theorem commandWordOf_op (o : Op) (rd rs1 rs2 : Reg) : (commandWordOf o rd rs1 rs2).extractLsb' 0 8 = o.code := by
  apply BitVec.eq_of_getLsbD_eq
  intro i hi
  simp [commandWordOf, hi, show i < 12 by omega, show i < 16 by omega, show i < 32 by omega]

theorem commandWordOf_rsv (o : Op) (rd rs1 rs2 : Reg) : (commandWordOf o rd rs1 rs2).extractLsb' 20 12 = 0 := by
  apply BitVec.eq_of_getLsbD_eq
  intro i hi
  simp only [commandWordOf, BitVec.getLsbD_extractLsb', hi, BitVec.getLsbD_or, BitVec.getLsbD_shiftLeft,
    BitVec.getLsbD_setWidth]
  rw [BitVec.getLsbD_of_ge o.code _ (by omega), BitVec.getLsbD_of_ge rd _ (by omega),
    BitVec.getLsbD_of_ge rs1 _ (by omega), BitVec.getLsbD_of_ge rs2 _ (by omega)]
  simp

theorem commandWordOf_rd (o : Op) (rd rs1 rs2 : Reg) : (commandWordOf o rd rs1 rs2).extractLsb' 8 4 = rd := by
  apply BitVec.eq_of_getLsbD_eq
  intro i hi
  simp only [commandWordOf, BitVec.getLsbD_extractLsb', hi, BitVec.getLsbD_or, BitVec.getLsbD_shiftLeft,
    BitVec.getLsbD_setWidth]
  rw [BitVec.getLsbD_of_ge o.code _ (by omega)]
  simp [show 8 + i < 12 by omega, show 8 + i < 16 by omega, show 8 + i < 32 by omega, show i < 32 by omega]

theorem commandWordOf_rs1 (o : Op) (rd rs1 rs2 : Reg) : (commandWordOf o rd rs1 rs2).extractLsb' 12 4 = rs1 := by
  apply BitVec.eq_of_getLsbD_eq
  intro i hi
  simp only [commandWordOf, BitVec.getLsbD_extractLsb', hi, BitVec.getLsbD_or, BitVec.getLsbD_shiftLeft,
    BitVec.getLsbD_setWidth]
  rw [BitVec.getLsbD_of_ge o.code _ (by omega), BitVec.getLsbD_of_ge rd _ (by omega)]
  simp [show 12 + i < 16 by omega, show 12 + i < 32 by omega, show i < 32 by omega]

theorem commandWordOf_rs2 (o : Op) (rd rs1 rs2 : Reg) : (commandWordOf o rd rs1 rs2).extractLsb' 16 4 = rs2 := by
  apply BitVec.eq_of_getLsbD_eq
  intro i hi
  simp only [commandWordOf, BitVec.getLsbD_extractLsb', hi, BitVec.getLsbD_or, BitVec.getLsbD_shiftLeft,
    BitVec.getLsbD_setWidth]
  rw [BitVec.getLsbD_of_ge o.code _ (by omega), BitVec.getLsbD_of_ge rd _ (by omega),
    BitVec.getLsbD_of_ge rs1 _ (by omega)]
  simp [show 16 + i < 32 by omega, show i < 32 by omega]

/-! ### Decoding -/

theorem checkField_eq_ok {used : Bool} {r : Reg} {u : Unit} :
    checkField used r = .ok u ↔ if used then r.toNat < 8 else r = 0 := by
  unfold checkField
  cases used <;> simp

/-- What `decodeWords` accepts, as R109 lists it, and what it gives. -/
theorem decodeWords_eq_ok {cw a b n : Word} {i : Instr} :
    decodeWords cw a b n = .ok i ↔ ∃ o : Op, o.code = cw.extractLsb' 0 8 ∧ cw.extractLsb' 20 12 = 0 ∧
      (if o.uses.rd then (cw.extractLsb' 8 4).toNat < 8 else cw.extractLsb' 8 4 = 0) ∧
      (if o.uses.rs1 then (cw.extractLsb' 12 4).toNat < 8 else cw.extractLsb' 12 4 = 0) ∧
      (if o.uses.rs2 then (cw.extractLsb' 16 4).toNat < 8 else cw.extractLsb' 16 4 = 0) ∧
      i = assemble o (cw.extractLsb' 8 4) (cw.extractLsb' 12 4) (cw.extractLsb' 16 4) a b n := by
  constructor
  · intro h
    unfold decodeWords at h
    split at h
    · cases h
    · next o ho =>
      refine ⟨o, ofCode_eq_some.1 ho, ?_⟩
      split at h
      · cases h
      · next hr =>
        split at h
        · cases h
        · next h1 =>
          split at h
          · cases h
          · next h2 =>
            split at h
            · cases h
            · next h3 =>
              injection h with h
              exact ⟨by simpa using hr, checkField_eq_ok.1 h1, checkField_eq_ok.1 h2, checkField_eq_ok.1 h3, h.symm⟩
  · rintro ⟨o, h, hr, h1, h2, h3, rfl⟩
    unfold decodeWords
    rw [← h, ofCode_code]
    simp only [hr, checkField_eq_ok (u := ()) |>.2 h1, checkField_eq_ok (u := ()) |>.2 h2,
      checkField_eq_ok (u := ()) |>.2 h3]
    simp

/-- The bits of an opcode's mask (R106): OP, RSV and its unused register fields. -/
theorem mask_getLsbD (o : Op) (k : Nat) (hk : k < 32) :
    o.mask.getLsbD k = (decide (k < 8) || decide (20 ≤ k) || (decide (8 ≤ k) && decide (k < 12) && !o.uses.rd) ||
      (decide (12 ≤ k) && decide (k < 16) && !o.uses.rs1) || (decide (16 ≤ k) && decide (k < 20) && !o.uses.rs2)) := by
  cases o <;> (revert hk; revert k; decide)

end Sys2Proof
end

