-- ==== Sys2Proof/Laws/Memory.lean ====
section
/-! SUPPORT. The laws of DMA memory: read after write, writes elsewhere, byte strings, and the canonical form. -/

namespace Sys2Proof.Machine

/-! ### One byte -/

@[simp] theorem Memory.read_nil (a : Nat) : Memory.read [] a = 0 := rfl

theorem Memory.read_cons (c : Host.Cell) (m : Memory) (a : Nat) :
    Memory.read (c :: m) a = if c.1 = a then c.2 else Memory.read m a := rfl

/-- An address below every entry is not listed. -/
theorem Memory.read_eq_zero_of_lt (m : Memory) (a : Nat) (h : ∀ c ∈ m, a < c.1) : Memory.read m a = 0 := by
  induction m with
  | nil => rfl
  | cons c m ih =>
    rw [Memory.read_cons, if_neg (by have := h c (by simp); omega)]
    exact ih fun c' hc' => h c' (by simp [hc'])

/-- Entries at strictly rising addresses: the first part of the canonical form. -/
abbrev Memory.sorted (m : Memory) : Prop := m.Pairwise (fun x y => x.1 < y.1)

theorem Memory.wf_sorted {m : Memory} (h : m.wf) : m.sorted := h.1

theorem Memory.read_write_same (m : Memory) (hs : m.sorted) (a : Nat) (v : Byte) :
    (Memory.write m a v).read a = v := by
  induction m with
  | nil =>
    rw [Memory.write]
    split
    · next hv => rw [hv]; rfl
    · simp [Memory.read_cons]
  | cons c m ih =>
    obtain ⟨hc, hm⟩ := List.pairwise_cons.1 hs
    unfold Memory.write
    by_cases hlt : a < c.1
    · by_cases hv : v = 0
      · rw [if_pos hlt, if_pos hv, Memory.read_cons, if_neg (by omega), hv]
        exact Memory.read_eq_zero_of_lt m a fun c' hc' => by have := hc c' hc'; omega
      · rw [if_pos hlt, if_neg hv, Memory.read_cons, if_pos rfl]
    · by_cases heq : a = c.1
      · by_cases hv : v = 0
        · rw [if_neg hlt, if_pos heq, if_pos hv, hv]
          exact Memory.read_eq_zero_of_lt m a fun c' hc' => by have := hc c' hc'; omega
        · rw [if_neg hlt, if_pos heq, if_neg hv, Memory.read_cons, if_pos rfl]
      · rw [if_neg hlt, if_neg heq, Memory.read_cons, if_neg (by omega)]
        exact ih hm

theorem Memory.read_write_other (m : Memory) (a x : Nat) (v : Byte) (h : x ≠ a) :
    (Memory.write m a v).read x = m.read x := by
  induction m with
  | nil =>
    rw [Memory.write]
    split
    · rfl
    · rw [Memory.read_cons, if_neg h.symm]
  | cons c m ih =>
    unfold Memory.write
    split
    · split
      · rfl
      · rw [Memory.read_cons, if_neg h.symm]
    · split
      · next heq =>
        split
        · rw [Memory.read_cons, if_neg (by omega)]
        · rw [Memory.read_cons, if_neg h.symm, Memory.read_cons, if_neg (by omega)]
      · rw [Memory.read_cons, Memory.read_cons, ih]

/-- The entries after a write are old ones or the one written. -/
theorem Memory.mem_write {m : Memory} {a : Nat} {v : Byte} {c : Host.Cell} (h : c ∈ Memory.write m a v) :
    c ∈ m ∨ (c = (a, v) ∧ v ≠ 0) := by
  induction m with
  | nil =>
    rw [Memory.write] at h
    split at h
    · simp at h
    · next hv => exact .inr ⟨by simpa using h, hv⟩
  | cons d m ih =>
    unfold Memory.write at h
    split at h
    · split at h
      · exact .inl h
      · next hv => rcases List.mem_cons.1 h with h | h
                   · exact .inr ⟨h, hv⟩
                   · exact .inl h
    · split at h
      · split at h
        · exact .inl (List.mem_cons_of_mem _ h)
        · next hv => rcases List.mem_cons.1 h with h | h
                     · exact .inr ⟨h, hv⟩
                     · exact .inl (List.mem_cons_of_mem _ h)
      · rcases List.mem_cons.1 h with h | h
        · exact .inl (by simp [h])
        · rcases ih h with h | h
          · exact .inl (List.mem_cons_of_mem _ h)
          · exact .inr h

theorem Memory.write_sorted (m : Memory) (hs : m.sorted) (a : Nat) (v : Byte) : (Memory.write m a v).sorted := by
  induction m with
  | nil =>
    rw [Memory.write]
    split
    · exact List.Pairwise.nil
    · simp [Memory.sorted]
  | cons c m ih =>
    obtain ⟨hc, hm⟩ := List.pairwise_cons.1 hs
    unfold Memory.write
    split
    · split
      · exact hs
      · refine List.pairwise_cons.2 ⟨fun d hd => ?_, hs⟩
        rcases List.mem_cons.1 hd with hd | hd
        · subst hd; assumption
        · have := hc d hd; simp only; omega
    · split
      · next heq =>
        split
        · exact hm
        · exact List.pairwise_cons.2 ⟨fun d hd => by have := hc d hd; simp only; omega, hm⟩
      · refine List.pairwise_cons.2 ⟨fun d hd => ?_, ih hm⟩
        rcases Memory.mem_write hd with hd | ⟨hd, -⟩
        · exact hc d hd
        · subst hd; simp only; omega

theorem Memory.wf_nil : Memory.wf [] := ⟨List.Pairwise.nil, by simp⟩

/-- A write inside the address space keeps the canonical form. -/
theorem Memory.write_wf (m : Memory) (h : m.wf) (a : Nat) (ha : a < Config.addrSpace) (v : Byte) :
    (Memory.write m a v).wf :=
  ⟨Memory.write_sorted m h.1 a v, fun c hc => by
    rcases Memory.mem_write hc with hc | ⟨hc, hv⟩
    · exact h.2 c hc
    · subst hc; exact ⟨ha, hv⟩⟩

/-! ### Byte strings -/

@[simp] theorem Memory.writeBytes_nil (m : Memory) (a : Nat) : m.writeBytes a [] = m := rfl

@[simp] theorem Memory.writeBytes_cons (m : Memory) (a : Nat) (x : Byte) (xs : List Byte) :
    m.writeBytes a (x :: xs) = (m.write a x).writeBytes (a + 1) xs := rfl

theorem Memory.writeBytes_sorted (m : Memory) (hs : m.sorted) (a : Nat) (bs : List Byte) :
    (m.writeBytes a bs).sorted := by
  induction bs generalizing m a with
  | nil => exact hs
  | cons x xs ih => exact ih _ (Memory.write_sorted m hs a x) _

/-- A byte string inside the address space keeps the canonical form. -/
theorem Memory.writeBytes_wf (m : Memory) (h : m.wf) (a : Nat) (bs : List Byte)
    (ha : bs = [] ∨ a + bs.length ≤ Config.addrSpace) : (m.writeBytes a bs).wf := by
  induction bs generalizing m a with
  | nil => exact h
  | cons x xs ih =>
    simp only [List.cons_ne_nil, false_or, List.length_cons] at ha
    exact ih _ (Memory.write_wf m h a (by omega) x) _ (.inr (by omega))

theorem Memory.read_writeBytes_outside (m : Memory) (a : Nat) (bs : List Byte) (x : Nat)
    (h : x < a ∨ a + bs.length ≤ x) : (m.writeBytes a bs).read x = m.read x := by
  induction bs generalizing m a with
  | nil => rfl
  | cons y ys ih =>
    simp only [List.length_cons] at h
    rw [Memory.writeBytes_cons, ih _ _ (by omega), Memory.read_write_other _ _ _ _ (by omega)]

theorem Memory.read_writeBytes_inside (m : Memory) (hs : m.sorted) (a : Nat) (bs : List Byte) (i : Nat)
    (h : i < bs.length) : (m.writeBytes a bs).read (a + i) = bs[i] := by
  induction bs generalizing m a i with
  | nil => simp at h
  | cons y ys ih =>
    rw [Memory.writeBytes_cons]
    cases i with
    | zero =>
      rw [Memory.read_writeBytes_outside _ _ _ _ (by omega), Nat.add_zero, Memory.read_write_same m hs]
      rfl
    | succ i =>
      have := ih (m.write a y) (Memory.write_sorted m hs a y) (a + 1) i (by simpa using h)
      rw [show a + (i + 1) = a + 1 + i by omega, this]
      rfl

/-- Reading back a whole byte string gives it. -/
theorem Memory.read_back (m : Memory) (hs : m.sorted) (a : Nat) (bs : List Byte) :
    (addresses a bs.length).map (m.writeBytes a bs).read = bs := by
  apply List.ext_getElem (by simp [addresses])
  intro i h1 h2
  simp [addresses, Memory.read_writeBytes_inside m hs a bs i h2]

end Sys2Proof.Machine
end

