-- ==== Sys2Proof/Laws/State.lean ====
section
/-! SUPPORT. One lemma per field per update of State, true by unfolding once, so that no later proof unfolds a record
update. -/

namespace Sys2Proof.Machine

/-! ### `setB` -/

@[simp] theorem setB_b (s : State) (r : Reg) (v : Block) : (s.setB r v).b = s.b.setIfInBounds r.toNat v := rfl
@[simp] theorem setB_klen (s : State) (r : Reg) (v : Block) : (s.setB r v).klen = s.klen := rfl
@[simp] theorem setB_macKey (s : State) (r : Reg) (v : Block) : (s.setB r v).macKey = s.macKey := rfl
@[simp] theorem setB_encKey (s : State) (r : Reg) (v : Block) : (s.setB r v).encKey = s.encKey := rfl
@[simp] theorem setB_keyValid (s : State) (r : Reg) (v : Block) : (s.setB r v).keyValid = s.keyValid := rfl
@[simp] theorem setB_pc (s : State) (r : Reg) (v : Block) : (s.setB r v).pc = s.pc := rfl
@[simp] theorem setB_ie (s : State) (r : Reg) (v : Block) : (s.setB r v).ie = s.ie := rfl
@[simp] theorem setB_busy (s : State) (r : Reg) (v : Block) : (s.setB r v).busy = s.busy := rfl
@[simp] theorem setB_done (s : State) (r : Reg) (v : Block) : (s.setB r v).done = s.done := rfl
@[simp] theorem setB_err (s : State) (r : Reg) (v : Block) : (s.setB r v).err = s.err := rfl
@[simp] theorem setB_eq (s : State) (r : Reg) (v : Block) : (s.setB r v).eq = s.eq := rfl
@[simp] theorem setB_errcode (s : State) (r : Reg) (v : Block) : (s.setB r v).errcode = s.errcode := rfl
@[simp] theorem setB_errPc (s : State) (r : Reg) (v : Block) : (s.setB r v).errPc = s.errPc := rfl
@[simp] theorem setB_errInfo (s : State) (r : Reg) (v : Block) : (s.setB r v).errInfo = s.errInfo := rfl
@[simp] theorem setB_mem (s : State) (r : Reg) (v : Block) : (s.setB r v).mem = s.mem := rfl
@[simp] theorem setB_platform (s : State) (r : Reg) (v : Block) : (s.setB r v).platform = s.platform := rfl
@[simp] theorem setB_agenda (s : State) (r : Reg) (v : Block) : (s.setB r v).agenda = s.agenda := rfl
@[simp] theorem setB_raced (s : State) (r : Reg) (v : Block) : (s.setB r v).raced = s.raced := rfl
@[simp] theorem setB_dirty (s : State) (r : Reg) (v : Block) : (s.setB r v).dirty = s.dirty := rfl
@[simp] theorem setB_written (s : State) (r : Reg) (v : Block) : (s.setB r v).written = s.written := rfl
@[simp] theorem setB_stale (s : State) (r : Reg) (v : Block) : (s.setB r v).stale = s.stale := rfl
@[simp] theorem setB_hostData (s : State) (r : Reg) (v : Block) : (s.setB r v).hostData = s.hostData := rfl
@[simp] theorem setB_draws (s : State) (r : Reg) (v : Block) : (s.setB r v).draws = s.draws := rfl

/-! ### `tick` -/

@[simp] theorem tick_b (s : State) : s.tick.b = s.b := rfl
@[simp] theorem tick_klen (s : State) : s.tick.klen = s.klen := rfl
@[simp] theorem tick_macKey (s : State) : s.tick.macKey = s.macKey := rfl
@[simp] theorem tick_encKey (s : State) : s.tick.encKey = s.encKey := rfl
@[simp] theorem tick_keyValid (s : State) : s.tick.keyValid = s.keyValid := rfl
@[simp] theorem tick_pc (s : State) : s.tick.pc = s.pc := rfl
@[simp] theorem tick_ie (s : State) : s.tick.ie = s.ie := rfl
@[simp] theorem tick_busy (s : State) : s.tick.busy = s.busy := rfl
@[simp] theorem tick_done (s : State) : s.tick.done = s.done := rfl
@[simp] theorem tick_err (s : State) : s.tick.err = s.err := rfl
@[simp] theorem tick_eq (s : State) : s.tick.eq = s.eq := rfl
@[simp] theorem tick_errcode (s : State) : s.tick.errcode = s.errcode := rfl
@[simp] theorem tick_errPc (s : State) : s.tick.errPc = s.errPc := rfl
@[simp] theorem tick_errInfo (s : State) : s.tick.errInfo = s.errInfo := rfl
@[simp] theorem tick_mem (s : State) : s.tick.mem = s.mem := rfl
@[simp] theorem tick_platform (s : State) : s.tick.platform = s.platform := rfl
@[simp] theorem tick_agenda (s : State) : s.tick.agenda = s.agenda := rfl
@[simp] theorem tick_raced (s : State) : s.tick.raced = s.raced := rfl
@[simp] theorem tick_dirty (s : State) : s.tick.dirty = s.dirty := rfl
@[simp] theorem tick_written (s : State) : s.tick.written = s.written := rfl
@[simp] theorem tick_stale (s : State) : s.tick.stale = s.stale := rfl
@[simp] theorem tick_hostData (s : State) : s.tick.hostData = s.hostData := rfl
@[simp] theorem tick_draws (s : State) : s.tick.draws = s.draws + 1 := rfl

/-! ### `next` -/

@[simp] theorem next_b (s : State) : s.next.b = s.b := rfl
@[simp] theorem next_klen (s : State) : s.next.klen = s.klen := rfl
@[simp] theorem next_macKey (s : State) : s.next.macKey = s.macKey := rfl
@[simp] theorem next_encKey (s : State) : s.next.encKey = s.encKey := rfl
@[simp] theorem next_keyValid (s : State) : s.next.keyValid = s.keyValid := rfl
@[simp] theorem next_pc (s : State) : s.next.pc = s.pc + 16 := rfl
@[simp] theorem next_ie (s : State) : s.next.ie = s.ie := rfl
@[simp] theorem next_busy (s : State) : s.next.busy = s.busy := rfl
@[simp] theorem next_done (s : State) : s.next.done = s.done := rfl
@[simp] theorem next_err (s : State) : s.next.err = s.err := rfl
@[simp] theorem next_eq (s : State) : s.next.eq = s.eq := rfl
@[simp] theorem next_errcode (s : State) : s.next.errcode = s.errcode := rfl
@[simp] theorem next_errPc (s : State) : s.next.errPc = s.errPc := rfl
@[simp] theorem next_errInfo (s : State) : s.next.errInfo = s.errInfo := rfl
@[simp] theorem next_mem (s : State) : s.next.mem = s.mem := rfl
@[simp] theorem next_platform (s : State) : s.next.platform = s.platform := rfl
@[simp] theorem next_agenda (s : State) : s.next.agenda = s.agenda := rfl
@[simp] theorem next_raced (s : State) : s.next.raced = s.raced := rfl
@[simp] theorem next_dirty (s : State) : s.next.dirty = s.dirty := rfl
@[simp] theorem next_written (s : State) : s.next.written = s.written := rfl
@[simp] theorem next_stale (s : State) : s.next.stale = s.stale := rfl
@[simp] theorem next_hostData (s : State) : s.next.hostData = s.hostData := rfl
@[simp] theorem next_draws (s : State) : s.next.draws = s.draws := rfl

/-! ### `raise` -/

@[simp] theorem raise_b (s : State) (c : FaultCode) (info : Word) : (raise s c info).b = s.b := rfl
@[simp] theorem raise_klen (s : State) (c : FaultCode) (info : Word) : (raise s c info).klen = s.klen := rfl
@[simp] theorem raise_macKey (s : State) (c : FaultCode) (info : Word) : (raise s c info).macKey = s.macKey := rfl
@[simp] theorem raise_encKey (s : State) (c : FaultCode) (info : Word) : (raise s c info).encKey = s.encKey := rfl
@[simp] theorem raise_keyValid (s : State) (c : FaultCode) (info : Word) :
    (raise s c info).keyValid = s.keyValid := rfl
@[simp] theorem raise_pc (s : State) (c : FaultCode) (info : Word) : (raise s c info).pc = s.pc := rfl
@[simp] theorem raise_ie (s : State) (c : FaultCode) (info : Word) : (raise s c info).ie = s.ie := rfl
@[simp] theorem raise_busy (s : State) (c : FaultCode) (info : Word) : (raise s c info).busy = false := rfl
@[simp] theorem raise_done (s : State) (c : FaultCode) (info : Word) : (raise s c info).done = s.done := rfl
@[simp] theorem raise_err (s : State) (c : FaultCode) (info : Word) : (raise s c info).err = true := rfl
@[simp] theorem raise_eq (s : State) (c : FaultCode) (info : Word) : (raise s c info).eq = s.eq := rfl
@[simp] theorem raise_errcode (s : State) (c : FaultCode) (info : Word) : (raise s c info).errcode = c.code := rfl
@[simp] theorem raise_errPc (s : State) (c : FaultCode) (info : Word) : (raise s c info).errPc = s.pc := rfl
@[simp] theorem raise_errInfo (s : State) (c : FaultCode) (info : Word) : (raise s c info).errInfo = info := rfl
@[simp] theorem raise_mem (s : State) (c : FaultCode) (info : Word) : (raise s c info).mem = s.mem := rfl
@[simp] theorem raise_platform (s : State) (c : FaultCode) (info : Word) :
    (raise s c info).platform = s.platform := rfl
@[simp] theorem raise_agenda (s : State) (c : FaultCode) (info : Word) : (raise s c info).agenda = s.agenda := rfl
@[simp] theorem raise_raced (s : State) (c : FaultCode) (info : Word) : (raise s c info).raced = s.raced := rfl
@[simp] theorem raise_dirty (s : State) (c : FaultCode) (info : Word) : (raise s c info).dirty = s.dirty := rfl
@[simp] theorem raise_written (s : State) (c : FaultCode) (info : Word) : (raise s c info).written = s.written := rfl
@[simp] theorem raise_stale (s : State) (c : FaultCode) (info : Word) : (raise s c info).stale = s.stale := rfl
@[simp] theorem raise_hostData (s : State) (c : FaultCode) (info : Word) :
    (raise s c info).hostData = s.hostData := rfl
@[simp] theorem raise_draws (s : State) (c : FaultCode) (info : Word) : (raise s c info).draws = s.draws := rfl

/-! ### `memWrite` -/

@[simp] theorem memWrite_b (s : State) (a : Nat) (bs : List Byte) : (memWrite s a bs).b = s.b := rfl
@[simp] theorem memWrite_klen (s : State) (a : Nat) (bs : List Byte) : (memWrite s a bs).klen = s.klen := rfl
@[simp] theorem memWrite_macKey (s : State) (a : Nat) (bs : List Byte) : (memWrite s a bs).macKey = s.macKey := rfl
@[simp] theorem memWrite_encKey (s : State) (a : Nat) (bs : List Byte) : (memWrite s a bs).encKey = s.encKey := rfl
@[simp] theorem memWrite_keyValid (s : State) (a : Nat) (bs : List Byte) :
    (memWrite s a bs).keyValid = s.keyValid := rfl
@[simp] theorem memWrite_pc (s : State) (a : Nat) (bs : List Byte) : (memWrite s a bs).pc = s.pc := rfl
@[simp] theorem memWrite_ie (s : State) (a : Nat) (bs : List Byte) : (memWrite s a bs).ie = s.ie := rfl
@[simp] theorem memWrite_busy (s : State) (a : Nat) (bs : List Byte) : (memWrite s a bs).busy = s.busy := rfl
@[simp] theorem memWrite_done (s : State) (a : Nat) (bs : List Byte) : (memWrite s a bs).done = s.done := rfl
@[simp] theorem memWrite_err (s : State) (a : Nat) (bs : List Byte) : (memWrite s a bs).err = s.err := rfl
@[simp] theorem memWrite_eq (s : State) (a : Nat) (bs : List Byte) : (memWrite s a bs).eq = s.eq := rfl
@[simp] theorem memWrite_errcode (s : State) (a : Nat) (bs : List Byte) : (memWrite s a bs).errcode = s.errcode := rfl
@[simp] theorem memWrite_errPc (s : State) (a : Nat) (bs : List Byte) : (memWrite s a bs).errPc = s.errPc := rfl
@[simp] theorem memWrite_errInfo (s : State) (a : Nat) (bs : List Byte) : (memWrite s a bs).errInfo = s.errInfo := rfl
@[simp] theorem memWrite_mem (s : State) (a : Nat) (bs : List Byte) :
    (memWrite s a bs).mem = s.mem.writeBytes a bs := rfl
@[simp] theorem memWrite_platform (s : State) (a : Nat) (bs : List Byte) :
    (memWrite s a bs).platform = s.platform := rfl
@[simp] theorem memWrite_agenda (s : State) (a : Nat) (bs : List Byte) : (memWrite s a bs).agenda = s.agenda := rfl
@[simp] theorem memWrite_raced (s : State) (a : Nat) (bs : List Byte) : (memWrite s a bs).raced = s.raced := rfl
@[simp] theorem memWrite_dirty (s : State) (a : Nat) (bs : List Byte) : (memWrite s a bs).dirty = s.dirty := rfl
@[simp] theorem memWrite_written (s : State) (a : Nat) (bs : List Byte) :
    (memWrite s a bs).written = List.union (addresses a bs.length) s.written := rfl
@[simp] theorem memWrite_stale (s : State) (a : Nat) (bs : List Byte) :
    (memWrite s a bs).stale = List.union (addresses a bs.length) s.stale := rfl
@[simp] theorem memWrite_hostData (s : State) (a : Nat) (bs : List Byte) :
    (memWrite s a bs).hostData = s.hostData := rfl
@[simp] theorem memWrite_draws (s : State) (a : Nat) (bs : List Byte) : (memWrite s a bs).draws = s.draws := rfl

/-! ### `scramble` -/

@[simp] theorem scramble_b (s : State) (a n : Nat) : (scramble s a n).b = s.b := rfl
@[simp] theorem scramble_klen (s : State) (a n : Nat) : (scramble s a n).klen = s.klen := rfl
@[simp] theorem scramble_macKey (s : State) (a n : Nat) : (scramble s a n).macKey = s.macKey := rfl
@[simp] theorem scramble_encKey (s : State) (a n : Nat) : (scramble s a n).encKey = s.encKey := rfl
@[simp] theorem scramble_keyValid (s : State) (a n : Nat) : (scramble s a n).keyValid = s.keyValid := rfl
@[simp] theorem scramble_pc (s : State) (a n : Nat) : (scramble s a n).pc = s.pc := rfl
@[simp] theorem scramble_ie (s : State) (a n : Nat) : (scramble s a n).ie = s.ie := rfl
@[simp] theorem scramble_busy (s : State) (a n : Nat) : (scramble s a n).busy = s.busy := rfl
@[simp] theorem scramble_done (s : State) (a n : Nat) : (scramble s a n).done = s.done := rfl
@[simp] theorem scramble_err (s : State) (a n : Nat) : (scramble s a n).err = s.err := rfl
@[simp] theorem scramble_eq (s : State) (a n : Nat) : (scramble s a n).eq = s.eq := rfl
@[simp] theorem scramble_errcode (s : State) (a n : Nat) : (scramble s a n).errcode = s.errcode := rfl
@[simp] theorem scramble_errPc (s : State) (a n : Nat) : (scramble s a n).errPc = s.errPc := rfl
@[simp] theorem scramble_errInfo (s : State) (a n : Nat) : (scramble s a n).errInfo = s.errInfo := rfl
@[simp] theorem scramble_mem (s : State) (a n : Nat) :
    (scramble s a n).mem = s.mem.writeBytes a ((addresses a n).map (Config.freeByte s.draws .leftover)) := rfl
@[simp] theorem scramble_platform (s : State) (a n : Nat) : (scramble s a n).platform = s.platform := rfl
@[simp] theorem scramble_agenda (s : State) (a n : Nat) : (scramble s a n).agenda = s.agenda := rfl
@[simp] theorem scramble_raced (s : State) (a n : Nat) : (scramble s a n).raced = s.raced := rfl
@[simp] theorem scramble_dirty (s : State) (a n : Nat) : (scramble s a n).dirty = s.dirty := rfl
@[simp] theorem scramble_written (s : State) (a n : Nat) :
    (scramble s a n).written = List.union (addresses a ((addresses a n).map (Config.freeByte s.draws .leftover)).length) s.written := rfl
@[simp] theorem scramble_stale (s : State) (a n : Nat) :
    (scramble s a n).stale = List.union (addresses a ((addresses a n).map (Config.freeByte s.draws .leftover)).length) s.stale := rfl
@[simp] theorem scramble_hostData (s : State) (a n : Nat) : (scramble s a n).hostData = s.hostData := rfl
@[simp] theorem scramble_draws (s : State) (a n : Nat) : (scramble s a n).draws = s.draws := rfl

/-! ### `startRun` -/

@[simp] theorem startRun_b (s : State) : (startRun s).b = s.b := rfl
@[simp] theorem startRun_klen (s : State) : (startRun s).klen = s.klen := rfl
@[simp] theorem startRun_macKey (s : State) : (startRun s).macKey = s.macKey := rfl
@[simp] theorem startRun_encKey (s : State) : (startRun s).encKey = s.encKey := rfl
@[simp] theorem startRun_keyValid (s : State) : (startRun s).keyValid = s.keyValid := rfl
@[simp] theorem startRun_pc (s : State) : (startRun s).pc = s.pc := rfl
@[simp] theorem startRun_ie (s : State) : (startRun s).ie = s.ie := rfl
@[simp] theorem startRun_busy (s : State) : (startRun s).busy = true := rfl
@[simp] theorem startRun_done (s : State) : (startRun s).done = false := rfl
@[simp] theorem startRun_err (s : State) : (startRun s).err = false := rfl
@[simp] theorem startRun_eq (s : State) : (startRun s).eq = s.eq := rfl
@[simp] theorem startRun_errcode (s : State) : (startRun s).errcode = 0 := rfl
@[simp] theorem startRun_errPc (s : State) : (startRun s).errPc = 0 := rfl
@[simp] theorem startRun_errInfo (s : State) : (startRun s).errInfo = 0 := rfl
@[simp] theorem startRun_mem (s : State) : (startRun s).mem = s.mem := rfl
@[simp] theorem startRun_platform (s : State) : (startRun s).platform = s.platform := rfl
@[simp] theorem startRun_agenda (s : State) : (startRun s).agenda = s.agenda := rfl
@[simp] theorem startRun_raced (s : State) : (startRun s).raced = [] := rfl
@[simp] theorem startRun_dirty (s : State) : (startRun s).dirty = s.dirty := rfl
@[simp] theorem startRun_written (s : State) : (startRun s).written = [] := rfl
@[simp] theorem startRun_stale (s : State) : (startRun s).stale = s.stale := rfl
@[simp] theorem startRun_hostData (s : State) : (startRun s).hostData = s.hostData := rfl
@[simp] theorem startRun_draws (s : State) : (startRun s).draws = s.draws := rfl

/-! ### `resetBlock` -/

@[simp] theorem resetBlock_b (s : State) : (resetBlock s).b = State.reset.b := rfl
@[simp] theorem resetBlock_klen (s : State) : (resetBlock s).klen = State.reset.klen := rfl
@[simp] theorem resetBlock_macKey (s : State) : (resetBlock s).macKey = State.reset.macKey := rfl
@[simp] theorem resetBlock_encKey (s : State) : (resetBlock s).encKey = State.reset.encKey := rfl
@[simp] theorem resetBlock_keyValid (s : State) : (resetBlock s).keyValid = State.reset.keyValid := rfl
@[simp] theorem resetBlock_pc (s : State) : (resetBlock s).pc = State.reset.pc := rfl
@[simp] theorem resetBlock_ie (s : State) : (resetBlock s).ie = State.reset.ie := rfl
@[simp] theorem resetBlock_busy (s : State) : (resetBlock s).busy = State.reset.busy := rfl
@[simp] theorem resetBlock_done (s : State) : (resetBlock s).done = State.reset.done := rfl
@[simp] theorem resetBlock_err (s : State) : (resetBlock s).err = State.reset.err := rfl
@[simp] theorem resetBlock_eq (s : State) : (resetBlock s).eq = State.reset.eq := rfl
@[simp] theorem resetBlock_errcode (s : State) : (resetBlock s).errcode = State.reset.errcode := rfl
@[simp] theorem resetBlock_errPc (s : State) : (resetBlock s).errPc = State.reset.errPc := rfl
@[simp] theorem resetBlock_errInfo (s : State) : (resetBlock s).errInfo = State.reset.errInfo := rfl
@[simp] theorem resetBlock_mem (s : State) : (resetBlock s).mem = s.mem := rfl
@[simp] theorem resetBlock_platform (s : State) : (resetBlock s).platform = s.platform := rfl
@[simp] theorem resetBlock_agenda (s : State) : (resetBlock s).agenda = s.agenda := rfl
@[simp] theorem resetBlock_raced (s : State) : (resetBlock s).raced = s.raced := rfl
@[simp] theorem resetBlock_dirty (s : State) : (resetBlock s).dirty = s.dirty := rfl
@[simp] theorem resetBlock_written (s : State) : (resetBlock s).written = s.written := rfl
@[simp] theorem resetBlock_stale (s : State) : (resetBlock s).stale = s.stale := rfl
@[simp] theorem resetBlock_hostData (s : State) : (resetBlock s).hostData = s.hostData := rfl
@[simp] theorem resetBlock_draws (s : State) : (resetBlock s).draws = s.draws := rfl

/-! ### `writeStatus` -/

@[simp] theorem writeStatus_b (s : State) (v : Word) : (writeStatus s v).b = s.b := rfl
@[simp] theorem writeStatus_klen (s : State) (v : Word) : (writeStatus s v).klen = s.klen := rfl
@[simp] theorem writeStatus_macKey (s : State) (v : Word) : (writeStatus s v).macKey = s.macKey := rfl
@[simp] theorem writeStatus_encKey (s : State) (v : Word) : (writeStatus s v).encKey = s.encKey := rfl
@[simp] theorem writeStatus_keyValid (s : State) (v : Word) : (writeStatus s v).keyValid = s.keyValid := rfl
@[simp] theorem writeStatus_pc (s : State) (v : Word) : (writeStatus s v).pc = s.pc := rfl
@[simp] theorem writeStatus_ie (s : State) (v : Word) : (writeStatus s v).ie = s.ie := rfl
@[simp] theorem writeStatus_busy (s : State) (v : Word) : (writeStatus s v).busy = s.busy := rfl
@[simp] theorem writeStatus_done (s : State) (v : Word) : (writeStatus s v).done = (s.done && !v.getLsbD 1) := rfl
@[simp] theorem writeStatus_err (s : State) (v : Word) : (writeStatus s v).err = (s.err && !v.getLsbD 2) := rfl
@[simp] theorem writeStatus_eq (s : State) (v : Word) : (writeStatus s v).eq = s.eq := rfl
@[simp] theorem writeStatus_errcode (s : State) (v : Word) :
    (writeStatus s v).errcode = if v.getLsbD 2 then 0 else s.errcode := rfl
@[simp] theorem writeStatus_errPc (s : State) (v : Word) : (writeStatus s v).errPc = s.errPc := rfl
@[simp] theorem writeStatus_errInfo (s : State) (v : Word) : (writeStatus s v).errInfo = s.errInfo := rfl
@[simp] theorem writeStatus_mem (s : State) (v : Word) : (writeStatus s v).mem = s.mem := rfl
@[simp] theorem writeStatus_platform (s : State) (v : Word) : (writeStatus s v).platform = s.platform := rfl
@[simp] theorem writeStatus_agenda (s : State) (v : Word) : (writeStatus s v).agenda = s.agenda := rfl
@[simp] theorem writeStatus_raced (s : State) (v : Word) : (writeStatus s v).raced = s.raced := rfl
@[simp] theorem writeStatus_dirty (s : State) (v : Word) : (writeStatus s v).dirty = s.dirty := rfl
@[simp] theorem writeStatus_written (s : State) (v : Word) : (writeStatus s v).written = s.written := rfl
@[simp] theorem writeStatus_stale (s : State) (v : Word) : (writeStatus s v).stale = s.stale := rfl
@[simp] theorem writeStatus_hostData (s : State) (v : Word) : (writeStatus s v).hostData = s.hostData := rfl
@[simp] theorem writeStatus_draws (s : State) (v : Word) : (writeStatus s v).draws = s.draws := rfl

end Sys2Proof.Machine
end

