-- ==== Sys2Proof/Laws/Ops.lean ====
section
/-! SUPPORT. One lemma per shared operation that says once everything it can do; later proofs cite these. -/

namespace Sys2Proof.Machine

/-! ### Checked computations -/

@[simp] theorem bind_ok {α β : Type} (x : α) (f : α → Except Stop β) : (Except.ok x >>= f) = f x := rfl

@[simp] theorem bind_error {α β : Type} (e : Stop) (f : α → Except Stop β) :
    ((Except.error e : Except Stop α) >>= f) = .error e := rfl

@[simp] theorem pure_ok {α : Type} (x : α) : (pure x : Except Stop α) = .ok x := rfl

theorem bind_eq_ok {α β : Type} {x : Except Stop α} {f : α → Except Stop β} {r : β} :
    (x >>= f) = .ok r ↔ ∃ a, x = .ok a ∧ f a = .ok r := by
  cases x <;> simp

theorem bind_eq_error {α β : Type} {x : Except Stop α} {f : α → Except Stop β} {e : Stop} :
    (x >>= f) = .error e ↔ x = .error e ∨ ∃ a, x = .ok a ∧ f a = .error e := by
  cases x <;> simp

theorem check_eq_ok {c : Bool} {code : FaultCode} {info : Word} {u : Unit} :
    check c code info = .ok u ↔ c = true := by
  unfold check; split <;> simp_all

theorem check_eq_error {c : Bool} {code : FaultCode} {info : Word} {e : Stop} :
    check c code info = .error e ↔ c = false ∧ e = .raise code info := by
  unfold check; split <;> simp_all [eq_comm]

@[simp] theorem check_true (code : FaultCode) (info : Word) : check true code info = .ok () := rfl

@[simp] theorem check_false (code : FaultCode) (info : Word) : check false code info = .error (.raise code info) := rfl

theorem needKey_eq_ok {s : State} {u : Unit} : needKey s = .ok u ↔ s.keyValid = true := check_eq_ok

/-! ### Block registers -/

@[simp] theorem getB_setB_same (s : State) (r : Reg) (v : Block) (h : r.toNat < 8) : (s.setB r v).getB r = v := by
  simp [State.getB, State.setB, h]

theorem getB_setB_other (s : State) (r q : Reg) (v : Block) (h : q ≠ r) : (s.setB r v).getB q = s.getB q := by
  have h' : r.toNat ≠ q.toNat := fun e => h (BitVec.eq_of_toNat_eq e.symm)
  simp only [State.getB, State.setB, Vector.toList_setIfInBounds, List.getD_eq_getElem?_getD]
  rw [List.getElem?_set_ne h']

theorem getB_congr {s t : State} (h : s.b = t.b) (r : Reg) : s.getB r = t.getB r := by
  unfold State.getB; rw [h]

/-! ### Completing and stopping -/

theorem complete_of_ne_last {s : State} (h : s.pc ≠ lastPc) : complete s = .next s.next := if_neg h

theorem complete_of_last {s : State} (h : s.pc = lastPc) : complete s = .next (raise s .pcOverflow s.pc) := if_pos h

/-- What completing can do. -/
theorem complete_cases {s t : State} (h : complete s = .next t) :
    (s.pc ≠ lastPc ∧ t = s.next) ∨ (s.pc = lastPc ∧ t = raise s .pcOverflow s.pc) := by
  unfold complete at h
  split at h
  · exact .inr ⟨by assumption, by injection h with h; exact h.symm⟩
  · exact .inl ⟨by assumption, by injection h with h; exact h.symm⟩

theorem complete_ne_fault {s : State} {f : Fault} : complete s ≠ .fault f := by
  unfold complete; split <;> simp

theorem complete_ne_refused {s : State} {r : Refusal} : complete s ≠ .refused r := by
  unfold complete; split <;> simp

/-- What stopping can do. -/
theorem stop_eq_next {s t : State} {e : Stop} :
    stop s e = .next t ↔ ∃ c info, e = .raise c info ∧ t = raise s c info := by
  cases e <;> simp [stop, eq_comm]

theorem stop_eq_fault {s : State} {e : Stop} {f : Fault} :
    stop s e = .fault f ↔ ∃ a, e = .sideEffect a ∧ f = .sideEffectRegion a := by
  cases e <;> simp [stop, eq_comm]

theorem stop_ne_refused {s : State} {e : Stop} {r : Refusal} : stop s e ≠ .refused r := by
  cases e <;> simp [stop]

@[simp] theorem conclude_ok (s t : State) : conclude s (.ok t) = complete t := rfl

@[simp] theorem conclude_error (s : State) (e : Stop) : conclude s (.error e) = stop s e := rfl

/-- What a command that stores nothing can do: complete from what its checks gave, or take one precise fault. -/
theorem conclude_cases {s t : State} {r : Except Stop State} (h : conclude s r = .next t) :
    (∃ u, r = .ok u ∧ complete u = .next t) ∨ (∃ c info, r = .error (.raise c info) ∧ t = raise s c info) := by
  cases r with
  | ok u => exact .inl ⟨u, rfl, h⟩
  | error e => obtain ⟨c, info, rfl, rfl⟩ := stop_eq_next.1 h; exact .inr ⟨c, info, rfl, rfl⟩

/-! ### Access stages -/

theorem kindAt_lt {p : Platform} {a : Nat} {k : RegionKind} (h : kindAt p a = some k) : a < Config.addrSpace := by
  unfold kindAt at h; split at h
  · assumption
  · cases h

/-- A stage goes through exactly where plain memory answers at every byte. -/
theorem accessAddrs_eq_ok {s : State} {as : List Nat} {u : Unit} :
    accessAddrs s as = .ok u ↔ ∀ a ∈ as, kindAt s.platform a = some .plain := by
  unfold accessAddrs
  split
  · next x xs h =>
    have hx : x ∈ as.filter (fun a => !memOk s.platform a) := by rw [h]; simp
    simp only [List.mem_filter, memOk, Bool.not_eq_true', Option.isSome_eq_false_iff, Option.isNone_iff_eq_none] at hx
    simp only [reduceCtorEq, false_iff, not_forall]
    exact ⟨x, hx.1, by simp [hx.2]⟩
  · next h =>
    rw [List.filter_eq_nil_iff] at h
    split
    · next a ha =>
      have h1 := List.find?_some ha
      simp only [reduceCtorEq, false_iff, not_forall]
      refine ⟨a, List.mem_of_find?_eq_some ha, ?_⟩
      simp only [beq_iff_eq] at h1
      simp [h1]
    · next ha =>
      rw [List.find?_eq_none] at ha
      simp only [true_iff]
      intro a hm
      have h1 := h a hm
      have h2 := ha a hm
      simp only [memOk, Bool.not_eq_true', Option.isSome_eq_false_iff, Option.isNone_iff_eq_none] at h1
      simp only [beq_iff_eq] at h2
      match hk : kindAt s.platform a with
      | none => exact absurd hk h1
      | some .plain => rfl
      | some .sideEffect => exact absurd hk h2

theorem pickRefused_mem (s : State) (x : Nat) (xs : List Nat) : pickRefused s x xs ∈ x :: xs := by
  unfold pickRefused
  have hlt : Config.freePick s.draws % (xs.length + 1) < (x :: xs).length := Nat.mod_lt _ (Nat.succ_pos _)
  rw [List.getD_eq_getElem _ _ hlt]
  exact List.getElem_mem _

/-- A stage faults only with BUS_ERROR, and reports a byte of the stage that does not answer (R281, R286). -/
theorem accessAddrs_eq_raise {s : State} {as : List Nat} {c : FaultCode} {info : Word}
    (h : accessAddrs s as = .error (.raise c info)) :
    c = .busError ∧ ∃ x ∈ as, memOk s.platform x = false ∧ info = BitVec.ofNat 32 x := by
  unfold accessAddrs at h
  split at h
  · next x xs hf =>
    simp only [Except.error.injEq, Stop.raise.injEq] at h
    have hm := pickRefused_mem s x xs
    rw [← hf] at hm
    simp only [List.mem_filter, Bool.not_eq_true'] at hm
    exact ⟨h.1.symm, _, hm.1, hm.2, h.2.symm⟩
  · split at h <;> simp at h

/-- A stage reaches a region that is not plain memory only at a byte of the stage. -/
theorem accessAddrs_eq_sideEffect {s : State} {as : List Nat} {a : Nat}
    (h : accessAddrs s as = .error (.sideEffect a)) : a ∈ as ∧ kindAt s.platform a = some .sideEffect := by
  unfold accessAddrs at h
  split at h
  · simp at h
  · split at h
    · next x hx =>
      simp only [Except.error.injEq, Stop.sideEffect.injEq] at h
      subst h
      exact ⟨List.mem_of_find?_eq_some hx, by simpa using List.find?_some hx⟩
    · simp at h

theorem mem_addresses {x a n : Nat} : x ∈ addresses a n ↔ a ≤ x ∧ x < a + n := by
  simp [addresses, List.mem_range'_1]

@[simp] theorem addresses_length (a n : Nat) : (addresses a n).length = n := by simp [addresses]

@[simp] theorem addresses_zero (a : Nat) : addresses a 0 = [] := rfl

theorem access_eq_ok {s : State} {rs : List (Nat × Nat)} {u : Unit} :
    access s rs = .ok u ↔ ∀ r ∈ rs, plainRange s.platform r.1 r.2 := by
  unfold access
  rw [accessAddrs_eq_ok]
  simp only [List.mem_flatMap, mem_addresses, plainRange]
  exact ⟨fun h r hr x h1 h2 => h x ⟨r, hr, h1, h2⟩, fun h x ⟨r, hr, h1, h2⟩ => h r hr x h1 h2⟩

theorem access_single_eq_ok {s : State} {a n : Nat} {u : Unit} :
    access s [(a, n)] = .ok u ↔ plainRange s.platform a n := by
  rw [access_eq_ok]; simp

theorem access_eq_raise {s : State} {rs : List (Nat × Nat)} {c : FaultCode} {info : Word}
    (h : access s rs = .error (.raise c info)) :
    c = .busError ∧ ∃ r ∈ rs, ∃ x, inRange x r.1 r.2 ∧ memOk s.platform x = false ∧ info = BitVec.ofNat 32 x := by
  obtain ⟨hc, x, hx, hm, hi⟩ := accessAddrs_eq_raise h
  obtain ⟨r, hr, hx⟩ := List.mem_flatMap.1 hx
  exact ⟨hc, r, hr, x, mem_addresses.1 hx, hm, hi⟩

/-- On a platform without side-effect regions no stage reaches one. -/
theorem kindAt_ne_sideEffect {p : Platform} (h : p.plain) (a : Nat) : kindAt p a ≠ some .sideEffect := by
  unfold kindAt
  split
  · intro hk
    obtain ⟨r, hr, hk⟩ := Option.map_eq_some_iff.1 hk
    rw [h r (List.mem_of_find?_eq_some hr)] at hk
    cases hk
  · simp

theorem accessAddrs_ne_sideEffect {s : State} (h : s.platform.plain) {as : List Nat} {a : Nat} :
    accessAddrs s as ≠ .error (.sideEffect a) := fun he =>
  kindAt_ne_sideEffect h a (accessAddrs_eq_sideEffect he).2

/-! ### Reading and writing bytes -/

@[simp] theorem seqBytes_length (s : State) (acc : Config.Access) (a n : Nat) : (seqBytes s acc a n).length = n := by
  simp [seqBytes]

@[simp] theorem seqBytes_getElem (s : State) (acc : Config.Access) (a n i : Nat)
    (h : i < (seqBytes s acc a n).length) : (seqBytes s acc a n)[i] = seqByte s acc (a + i) := by
  simp [seqBytes, addresses]

theorem hidden_quiet {s : State} (h : s.quiet) (a : Nat) : hidden s a = false := by
  obtain ⟨hr, hd | hd⟩ := h <;> simp [hidden, hr, hd]

theorem seqByte_visible {s : State} {a : Nat} (h : hidden s a = false) (acc : Config.Access) :
    seqByte s acc a = s.mem.read a := by
  simp [seqByte, h]

theorem seqByte_hidden {s : State} {a : Nat} (h : hidden s a = true) (acc : Config.Access) :
    seqByte s acc a = Config.freeByte s.draws acc a := by
  simp [seqByte, h]

theorem seqByte_quiet {s : State} (h : s.quiet) (acc : Config.Access) (a : Nat) : seqByte s acc a = s.mem.read a :=
  seqByte_visible (hidden_quiet h a) acc

theorem seqBytes_quiet {s : State} (h : s.quiet) (acc : Config.Access) (a n : Nat) :
    seqBytes s acc a n = (addresses a n).map s.mem.read := by
  simp only [seqBytes]
  exact List.map_congr_left fun x _ => seqByte_quiet h acc x

/-- Two states that agree on memory, on what is hidden and on the draw counter read the same bytes. -/
theorem seqByte_congr {s t : State} (hm : s.mem = t.mem) (hu : hidden s = hidden t) (hd : s.draws = t.draws)
    (acc : Config.Access) (a : Nat) : seqByte s acc a = seqByte t acc a := by
  simp [seqByte, hm, hu, hd]

theorem seqBytes_congr {s t : State} (hm : s.mem = t.mem) (hu : hidden s = hidden t) (hd : s.draws = t.draws)
    (acc : Config.Access) (a n : Nat) : seqBytes s acc a n = seqBytes t acc a n := by
  simp only [seqBytes]
  exact List.map_congr_left fun x _ => seqByte_congr hm hu hd acc x

/-- What stage 4 can do: complete after the whole write, or a BUS_ERROR that leaves the destination free. -/
theorem storeThen_cases {s t : State} {dst : Nat} {bs : List Byte} {after : State → State}
    (h : storeThen s dst bs after = .next t) :
    (plainRange s.platform dst bs.length ∧ complete (after (memWrite s dst bs)) = .next t) ∨
    (∃ x, inRange x dst bs.length ∧ memOk s.platform x = false ∧
      t = raise (scramble s dst bs.length) .busError (BitVec.ofNat 32 x)) := by
  unfold storeThen at h
  split at h
  · next ha => exact .inl ⟨access_single_eq_ok.1 ha, h⟩
  · next e ha =>
    obtain ⟨c, info, rfl, rfl⟩ := stop_eq_next.1 h
    obtain ⟨rfl, r, hr, x, hx, hm, rfl⟩ := access_eq_raise ha
    simp only [List.mem_singleton] at hr
    subst hr
    exact .inr ⟨x, hx, hm, rfl⟩

theorem storeThen_plain {s : State} {dst : Nat} {bs : List Byte} {after : State → State}
    (h : plainRange s.platform dst bs.length) :
    storeThen s dst bs after = complete (after (memWrite s dst bs)) := by
  unfold storeThen; rw [(access_single_eq_ok (u := ())).2 h]

/-- Stage 4 completes where plain memory answers and CMD_PTR can advance. -/
theorem storeThen_completes {s : State} {dst : Nat} {bs : List Byte} {after : State → State}
    (h : plainRange s.platform dst bs.length) (hpc : (after (memWrite s dst bs)).pc ≠ lastPc) :
    storeThen s dst bs after = .next (after (memWrite s dst bs)).next := by
  rw [storeThen_plain h, complete_of_ne_last hpc]

/-- The fetch delivers 16 bytes exactly where plain memory answers. -/
theorem fetch_eq_ok {s : State} {bs : List Byte} :
    fetch s = .ok bs ↔ plainRange s.platform s.pc.toNat 16 ∧ bs = seqBytes s .fetch s.pc.toNat 16 := by
  unfold fetch
  split
  · next h =>
    have hp := access_single_eq_ok.1 h
    exact ⟨fun h => ⟨hp, by injection h with h; exact h.symm⟩, fun h => by rw [h.2]⟩
  · next e h =>
    simp only [reduceCtorEq, false_iff, not_and]
    intro hp
    rw [(access_single_eq_ok (u := ())).2 hp] at h
    cases h

theorem fetch_eq_raise {s : State} {c : FaultCode} {info : Word} (h : fetch s = .error (.raise c info)) :
    c = .busError ∧ ∃ x, inRange x s.pc.toNat 16 ∧ memOk s.platform x = false ∧ info = BitVec.ofNat 32 x := by
  unfold fetch at h
  split at h
  · cases h
  · next e ha =>
    cases h
    obtain ⟨hc, r, hr, x, hx⟩ := access_eq_raise ha
    simp only [List.mem_singleton] at hr
    subst hr
    exact ⟨hc, x, hx⟩

theorem scramble_mem_outside (s : State) (a n x : Nat) (h : ¬ inRange x a n) :
    (scramble s a n).mem.read x = s.mem.read x := by
  rw [scramble_mem]
  exact Memory.read_writeBytes_outside _ _ _ _ (by
    simp only [List.length_map, addresses_length]
    simp only [inRange] at h
    omega)

/-- Every byte of a range that may have been written takes a free value. -/
theorem scramble_mem_inside {s : State} (hw : s.mem.wf) {a n x : Nat} (h : inRange x a n) :
    (scramble s a n).mem.read x = Config.freeByte s.draws .leftover x := by
  obtain ⟨i, rfl⟩ : ∃ i, x = a + i := ⟨x - a, by simp only [inRange] at h; omega⟩
  have hi : i < n := by simp only [inRange] at h; omega
  rw [scramble_mem, Memory.read_writeBytes_inside _ hw.1 _ _ i (by simpa using hi)]
  simp [addresses]

theorem memWrite_mem_outside (s : State) (a : Nat) (bs : List Byte) (x : Nat) (h : ¬ inRange x a bs.length) :
    (memWrite s a bs).mem.read x = s.mem.read x :=
  Memory.read_writeBytes_outside _ _ _ _ (by simp only [inRange] at h; omega)

/-- A write of the block records the bytes it wrote. -/
theorem memWrite_marks (s : State) (a : Nat) (bs : List Byte) : marks s (memWrite s a bs) a bs.length := fun _ =>
  ⟨List.mem_union_iff.trans (or_congr_left mem_addresses), List.mem_union_iff.trans (or_congr_left mem_addresses)⟩

/-- What a write puts into memory reads back, byte by byte. -/
theorem memWrite_mem_inside {s : State} (h : s.mem.wf) (a : Nat) (bs : List Byte) (i : Nat) (hi : i < bs.length) :
    (memWrite s a bs).mem.read (a + i) = bs[i] :=
  Memory.read_writeBytes_inside _ h.1 _ _ _ hi

/-- The whole effect of a data write that completes, for a command that writes no register. -/
theorem storeThen_id {s : State} {dst : Nat} {bs : List Byte} (hw : s.mem.wf) (h : s.pc ≠ lastPc)
    (hp : plainRange s.platform dst bs.length) :
    ∃ t, storeThen s dst bs id = .next t ∧ t = { s.next with mem := t.mem, written := t.written, stale := t.stale } ∧
      marks s t dst bs.length ∧ (∀ i (hi : i < bs.length), t.mem.read (dst + i) = bs[i]) ∧
      (∀ x, ¬ inRange x dst bs.length → t.mem.read x = s.mem.read x) :=
  ⟨(memWrite s dst bs).next, storeThen_completes (after := id) hp h, rfl, memWrite_marks s dst bs,
    fun i hi => memWrite_mem_inside hw dst bs i hi, fun x hx => memWrite_mem_outside s dst bs x hx⟩

/-- The whole effect of a data write that completes, for a command that then writes a register. -/
theorem storeThen_setB {s : State} {dst : Nat} {bs : List Byte} {rd : Reg} {v : Block} (hw : s.mem.wf)
    (h : s.pc ≠ lastPc) (hp : plainRange s.platform dst bs.length) :
    ∃ t, storeThen s dst bs (fun t => t.setB rd v) = .next t ∧
      t = { (s.setB rd v).next with mem := t.mem, written := t.written, stale := t.stale } ∧
      marks s t dst bs.length ∧ (∀ i (hi : i < bs.length), t.mem.read (dst + i) = bs[i]) ∧
      (∀ x, ¬ inRange x dst bs.length → t.mem.read x = s.mem.read x) :=
  ⟨((memWrite s dst bs).setB rd v).next, storeThen_completes (after := fun t => t.setB rd v) hp h, rfl,
    memWrite_marks s dst bs,
    fun i hi => memWrite_mem_inside hw dst bs i hi, fun x hx => memWrite_mem_outside s dst bs x hx⟩

end Sys2Proof.Machine
end

