-- ==== Sys2Proof/Laws/Operands.lean ====
section
/-! SUPPORT. What the operand checks accept, said once: ranges, operands, descriptors and the descriptor table. -/

namespace Sys2Proof.Machine

/-! ### Ranges -/

theorem rangeLegal_iff {a n : Nat} : rangeLegal a n = true ↔ n = 0 ∨ a + n ≤ Config.addrSpace := by
  simp [rangeLegal]

theorem needRange_eq_ok {a : Word} {n : Nat} {u : Unit} : needRange a n = .ok u ↔ rangeLegal a.toNat n = true :=
  check_eq_ok

theorem needLen_eq_ok {n : Word} {u : Unit} : needLen n = .ok u ↔ n.toNat ≤ Config.maxLen := by
  unfold needLen; rw [check_eq_ok, decide_eq_true_iff]

/-- Ranges do not overlap exactly when one is empty or they share no byte (R65, R68). -/
theorem overlaps_eq_false {a n b m : Nat} : overlaps a n b m = false ↔ ∀ x, inRange x a n → ¬ inRange x b m := by
  simp only [overlaps, inRange, Bool.and_eq_false_iff, decide_eq_false_iff_not]
  constructor
  · intro h x hx hy; omega
  · intro h
    by_contra hc
    simp only [not_or, Decidable.not_not] at hc
    exact h (max a b) ⟨by omega, by omega⟩ ⟨by omega, by omega⟩

theorem readOperand_eq_ok {s : State} {a : Word} {n : Nat} {bs : List Byte} :
    readOperand s a n = .ok bs ↔
      rangeLegal a.toNat n = true ∧ plainRange s.platform a.toNat n ∧ bs = seqBytes s (.data 0) a.toNat n := by
  unfold readOperand
  simp only [bind_eq_ok, needRange_eq_ok, access_single_eq_ok, pure_ok, Except.ok.injEq]
  exact ⟨fun ⟨_, h1, _, h2, h3⟩ => ⟨h1, h2, h3.symm⟩, fun ⟨h1, h2, h3⟩ => ⟨(), h1, (), h2, h3.symm⟩⟩

/-! ### Descriptors -/

/-- A present field's length has 24 bits, so it never exceeds MAX_LEN (R66, R175). -/
theorem readDesc_len {s : State} {a i : Nat} {d : Word} {n : Nat} (h : readDesc s a i = .ok (.present d n)) :
    n ≤ Config.maxLen := by
  unfold readDesc at h
  simp only at h
  split at h
  · cases h
  · split at h
    · cases h
    · injection h with h
      injection h with _ h
      have := ((tableWord s (a + 8 * i + 4)).extractLsb' 0 24).isLt
      simp only [Config.maxLen]
      omega

/-- Two states that agree on memory, the hidden stores and the draw counter hold the same descriptors. -/
theorem readDesc_congr {s t : State} (hm : s.mem = t.mem) (hu : hidden s = hidden t) (hd : s.draws = t.draws)
    (a i : Nat) : readDesc s a i = readDesc t a i := by
  have : ∀ x, tableWord s x = tableWord t x := fun x => by
    simp only [tableWord, seqByte_congr hm hu hd]
  simp only [readDesc, this]

/-- Two states that agree on memory, the hidden stores and the draw counter hold the same fields. -/
theorem readFields_congr {s t : State} (hm : s.mem = t.mem) (hu : hidden s = hidden t) (hd : s.draws = t.draws)
    (k : Nat) (ds : List Desc) : readFields s k ds = readFields t k ds := by
  induction ds generalizing k with
  | nil => rfl
  | cons d ds ih => cases d <;> simp only [readFields, ih, seqBytes_congr hm hu hd]

theorem readDesc_ne_sideEffect {s : State} {a i x : Nat} : readDesc s a i ≠ .error (.sideEffect x) := by
  unfold readDesc
  simp only
  split
  · simp
  · split <;> simp

theorem readDescs_length {s : State} {a i k : Nat} {ds : List Desc} (h : readDescs s a i k = .ok ds) :
    ds.length = k := by
  induction k generalizing i ds with
  | zero => simp only [readDescs, Except.ok.injEq] at h; simp [← h]
  | succ k ih =>
    simp only [readDescs, bind_eq_ok, pure_ok, Except.ok.injEq] at h
    obtain ⟨d, -, ds', h2, rfl⟩ := h
    simp [ih h2]

/-- The table reads as `ds` exactly when each descriptor does. -/
theorem readDescs_eq_ok {s : State} {a i : Nat} {ds : List Desc} :
    readDescs s a i ds.length = .ok ds ↔ ∀ j (h : j < ds.length), readDesc s a (i + j) = .ok ds[j] := by
  induction ds generalizing i with
  | nil => simp [readDescs]
  | cons d ds ih =>
    simp only [List.length_cons, readDescs, bind_eq_ok, pure_ok, Except.ok.injEq]
    constructor
    · rintro ⟨d', h1, ds', h2, h3⟩ j hj
      injection h3 with h3 h4
      subst h3 h4
      cases j with
      | zero => exact h1
      | succ j =>
        have := ih.1 h2 j (by simpa using hj)
        rw [show i + (j + 1) = i + 1 + j by omega, this]
        rfl
    · intro h
      refine ⟨d, by simpa using h 0 (by simp), ds, ih.2 fun j hj => ?_, rfl⟩
      have := h (j + 1) (by simpa using hj)
      rw [show i + 1 + j = i + (j + 1) by omega, this]
      rfl

theorem readDescs_ne_sideEffect {s : State} {a i k x : Nat} : readDescs s a i k ≠ .error (.sideEffect x) := by
  induction k generalizing i with
  | zero => simp [readDescs]
  | succ k ih =>
    simp only [readDescs, ne_eq, bind_eq_error, not_or, not_exists, not_and]
    exact ⟨readDesc_ne_sideEffect, fun d _ => ⟨ih, fun ds _ => by simp⟩⟩

theorem readDescs_len {s : State} {a i k : Nat} {ds : List Desc} (h : readDescs s a i k = .ok ds)
    {d : Word} {n : Nat} (hd : Desc.present d n ∈ ds) : n ≤ Config.maxLen := by
  have hk := readDescs_length h
  subst hk
  obtain ⟨j, hj, he⟩ := List.getElem_of_mem hd
  exact readDesc_len ((readDescs_eq_ok.1 h j hj).trans (by rw [he]))

theorem splitLast_eq_ok {ds : List Desc} {t : Table} :
    splitLast ds = .ok t ↔ ds = t.front ++ [.present t.lastAddr t.lastLen] := by
  unfold splitLast
  constructor
  · split
    · next a n h =>
      intro he
      injection he with he
      subst he
      have hne : ds ≠ [] := by rintro rfl; simp at h
      rw [List.getLast?_eq_some_getLast hne] at h
      injection h with h
      show ds = ds.dropLast ++ [.present a n]
      rw [← h]
      exact (List.dropLast_append_getLast hne).symm
    · intro he; cases he
  · rintro rfl
    simp

theorem presentRanges_append (xs ys : List Desc) : presentRanges (xs ++ ys) = presentRanges xs ++ presentRanges ys := by
  induction xs with
  | nil => rfl
  | cons d xs ih => cases d <;> simp [presentRanges, ih]

theorem mem_presentRanges {ds : List Desc} {r : Nat × Nat} :
    r ∈ presentRanges ds ↔ ∃ d n, .present d n ∈ ds ∧ r = (d.toNat, n) := by
  induction ds with
  | nil => simp [presentRanges]
  | cons d ds ih =>
    cases d with
    | absent => simp [presentRanges, ih]
    | present a n =>
      simp only [presentRanges, List.mem_cons, ih, Desc.present.injEq]
      constructor
      · rintro (rfl | ⟨d, m, h1, h2⟩)
        · exact ⟨a, n, .inl ⟨rfl, rfl⟩, rfl⟩
        · exact ⟨d, m, .inr h1, h2⟩
      · rintro ⟨d, m, ⟨rfl, rfl⟩ | h1, h2⟩
        · exact .inl h2
        · exact .inr ⟨d, m, h1, h2⟩

/-- The ranges of a table are those of all its descriptors. -/
theorem Table.ranges_eq (t : Table) : t.ranges = presentRanges (t.front ++ [.present t.lastAddr t.lastLen]) := by
  simp [Table.ranges, presentRanges_append, presentRanges]

theorem needFieldRanges_eq_ok {ds : List Desc} {u : Unit} :
    needFieldRanges ds = .ok u ↔ ∀ r ∈ presentRanges ds, rangeLegal r.1 r.2 = true := by
  induction ds with
  | nil => simp [needFieldRanges, presentRanges]
  | cons d ds ih =>
    cases d with
    | absent => simp [needFieldRanges, presentRanges, ih]
    | present a n =>
      simp only [needFieldRanges, presentRanges, bind_eq_ok, needRange_eq_ok, ih, List.forall_mem_cons]
      exact ⟨fun ⟨_, h, h'⟩ => ⟨h, h'⟩, fun h => ⟨(), h.1, h.2⟩⟩

theorem needFieldRanges_ne_sideEffect {ds : List Desc} {x : Nat} : needFieldRanges ds ≠ .error (.sideEffect x) := by
  induction ds with
  | nil => simp [needFieldRanges]
  | cons d ds ih =>
    cases d with
    | absent => simpa [needFieldRanges] using ih
    | present a n =>
      intro h
      rcases bind_eq_error.1 h with h | ⟨_, -, h⟩
      · cases (check_eq_error.1 h).2
      · exact ih h

/-! ### The descriptor table -/

/-- The checks of R175 pass exactly on such tables. -/
theorem readTable_eq_ok {s : State} {a n : Word} {t : Table} : readTable s a n = .ok t ↔ TableOk s a n t := by
  unfold readTable
  simp only [bind_eq_ok, needKey_eq_ok, check_eq_ok, needRange_eq_ok, access_single_eq_ok, splitLast_eq_ok,
    needFieldRanges_eq_ok, pure_ok, Except.ok.injEq, decide_eq_true_eq]
  constructor
  · rintro ⟨-, h1, -, h2, -, h3, -, h4, -, h5, -, h6, ds, h7, t', h8, -, h9, rfl⟩
    have hl := readDescs_length h7
    rw [← hl] at h7
    have hr := readDescs_eq_ok.1 h7
    subst h8
    simp only [List.length_append, List.length_cons, List.length_nil] at hl
    refine ⟨h1, by omega, h3, h4, by rcases rangeLegal_iff.1 h5 with h | h <;> omega, h6, fun j h => ?_, ?_, ?_⟩
    · have := hr j (by simp; omega)
      rwa [Nat.zero_add, List.getElem_append_left h] at this
    · have := hr t'.front.length (by simp)
      simpa using this
    · rw [Table.ranges_eq]; exact h9
  · intro h
    refine ⟨(), h.key, (), by have := h.count; omega, (), h.countMax, (), h.aligned, (), rangeLegal_iff.2 (.inr h.legal), (), h.plain,
      t.front ++ [Desc.present t.lastAddr t.lastLen], ?_, t, rfl, (), ?_, rfl⟩
    · rw [show n.toNat = (t.front ++ [Desc.present t.lastAddr t.lastLen]).length by simp [h.count]]
      refine readDescs_eq_ok.2 fun j hj => ?_
      rw [Nat.zero_add]
      rcases Nat.lt_or_ge j t.front.length with hlt | hge
      · rw [List.getElem_append_left hlt]; exact h.front j hlt
      · simp only [List.length_append, List.length_cons, List.length_nil] at hj
        have hj' : j = t.front.length := by omega
        subst hj'
        simpa using h.last
    · rw [← Table.ranges_eq]; exact h.ranges

theorem TableOk.lastLen_le {s : State} {a n : Word} {t : Table} (h : TableOk s a n t) : t.lastLen ≤ Config.maxLen :=
  readDesc_len h.last

theorem TableOk.frontLen_le {s : State} {a n : Word} {t : Table} (h : TableOk s a n t) {d : Word} {m : Nat}
    (hd : Desc.present d m ∈ t.front) : m ≤ Config.maxLen := by
  obtain ⟨j, hj, he⟩ := List.getElem_of_mem hd
  exact readDesc_len ((h.front j hj).trans (by rw [he]))

@[simp] theorem lastBytes_length (s : State) (t : Table) : (t.lastBytes s).length = t.lastLen := by
  simp [Table.lastBytes]

end Sys2Proof.Machine
end

