-- ==== Sys2Proof/Laws/Exec.lean ====
section
/-! SUPPORT. What a command can do, said once: the inversion of `exec`. -/

namespace Sys2Proof.Machine

/-- How a command that stores nothing changes the state before it completes, up to the value of its destination
register. -/
inductive Change : Instr → State → State → Prop where
  | nop (s : State) : Change .nop s s
  | keyld (a n : Word) (s : State) (h : keyLengthOk n.toNat = true) (bs : List Byte)
      (hb : readOperand s a n.toNat = .ok bs) :
      Change (.keyld a n) s { s with
        macKey := bs.take (n.toNat / 2), encKey := bs.drop (n.toNat / 2), klen := n.toNat / 2, keyValid := true }
  | keyclr (s : State) : Change .keyclr s { s with macKey := [], encKey := [], klen := 0, keyValid := false }
  | cteq (r q : Reg) (s : State) : Change (.cteq r q) s { s with eq := ctEq (s.getB r) (s.getB q) }
  | reg (i : Instr) (rd : Reg) (v : Block) (s : State) (h : destReg i = some rd) (hs : storesMemory i = false) :
      Change i s (s.setB rd v)

/-- What a storing command does to the registers after its write. -/
def AfterStore (i : Instr) (after : State → State) : Prop :=
  (after = id ∧ destReg i = none) ∨ ∃ rd v, destReg i = some rd ∧ after = fun t => t.setB rd v

/-- The four ways a command gives a next state. -/
theorem exec_cases {i : Instr} {s t : State} (h : exec i s = .next t) :
    (i = .halt ∧ t = { s with busy := false, done := true }) ∨
    (∃ u, Change i s u ∧ complete u = .next t) ∨
    (∃ c info, t = raise s c info) ∨
    (∃ dst bs after, storesMemory i = true ∧ destOf i s = some (dst, bs.length) ∧ AfterStore i after ∧
      storeThen s dst bs after = .next t) := by
  -- a command that stores nothing: its checks gave `s.setB rd v`, or one precise fault
  have reg : ∀ (rd : Reg) (r : Except Stop State), destReg i = some rd → storesMemory i = false →
      (∀ u, r = .ok u → ∃ v, u = s.setB rd v) → conclude s r = .next t →
      (∃ u, Change i s u ∧ complete u = .next t) ∨ (∃ c info, t = raise s c info) := by
    intro rd r hd hs hu hc
    rcases conclude_cases hc with ⟨u, hr, hc⟩ | ⟨c, info, -, ht⟩
    · obtain ⟨v, rfl⟩ := hu u hr
      exact .inl ⟨_, .reg i rd v s hd hs, hc⟩
    · exact .inr ⟨c, info, ht⟩
  -- a command that stores: its plan gave bytes, or one precise fault
  have store : ∀ (dst : Nat) (after : State → State) (r : Except Stop (List Byte)), storesMemory i = true →
      (∀ bs, r = .ok bs → destOf i s = some (dst, bs.length)) → AfterStore i after →
      (match r with | .ok bs => storeThen s dst bs after | .error e => stop s e) = .next t →
      (∃ c info, t = raise s c info) ∨ (∃ dst bs after, storesMemory i = true ∧ destOf i s = some (dst, bs.length) ∧
        AfterStore i after ∧ storeThen s dst bs after = .next t) := by
    intro dst after r hs hd ha hc
    cases r with
    | ok bs => exact .inr ⟨dst, bs, after, hs, hd bs rfl, ha, hc⟩
    | error e => obtain ⟨c, info, -, ht⟩ := stop_eq_next.1 hc; exact .inl ⟨c, info, ht⟩
  cases i with
  | halt => exact .inl ⟨rfl, by simpa [exec, execHalt, eq_comm] using h⟩
  | nop => exact .inr (.inl ⟨s, .nop s, h⟩)
  | keyld a n =>
    rcases conclude_cases h with ⟨u, hr, hc⟩ | ⟨c, info, -, ht⟩
    · obtain ⟨_, hk, bs, hb, hu⟩ := by simpa only [bind_eq_ok, check_eq_ok] using hr
      injection hu with hu
      subst hu
      exact .inr (.inl ⟨_, .keyld a n s hk bs hb, hc⟩)
    · exact .inr (.inr (.inl ⟨c, info, ht⟩))
  | keyclr => exact .inr (.inl ⟨_, .keyclr s, h⟩)
  | cteq r q => exact .inr (.inl ⟨_, .cteq r q s, h⟩)
  | bld rd a =>
    refine .inr ((reg rd _ rfl rfl ?_ h).imp_right .inl)
    intro u hr
    obtain ⟨bs, -, hu⟩ := bind_eq_ok.1 hr
    injection hu with hu
    exact ⟨_, hu.symm⟩
  | bzero rd => exact .inr (.inl ⟨_, .reg _ rd _ s rfl rfl, h⟩)
  | bmov rd rs1 => exact .inr (.inl ⟨_, .reg _ rd _ s rfl rfl, h⟩)
  | bxor rd rs1 rs2 => exact .inr (.inl ⟨_, .reg _ rd _ s rfl rfl, h⟩)
  | dbl rd rs1 => exact .inr (.inl ⟨_, .reg _ rd _ s rfl rfl, h⟩)
  | ctrmask rd rs1 => exact .inr (.inl ⟨_, .reg _ rd _ s rfl rfl, h⟩)
  | padxor rd rs1 a n =>
    refine .inr ((reg rd _ rfl rfl ?_ h).imp_right .inl)
    intro u hr
    obtain ⟨_, -, x, -, hu⟩ := by simpa only [bind_eq_ok] using hr
    injection hu with hu
    exact ⟨_, hu.symm⟩
  | macz rd =>
    refine .inr ((reg rd _ rfl rfl ?_ h).imp_right .inl)
    intro u hr
    obtain ⟨_, -, hu⟩ := bind_eq_ok.1 hr
    injection hu with hu
    exact ⟨_, hu.symm⟩
  | mac rd a n =>
    refine .inr ((reg rd _ rfl rfl ?_ h).imp_right .inl)
    intro u hr
    obtain ⟨_, -, _, -, x, -, hu⟩ := by simpa only [bind_eq_ok] using hr
    injection hu with hu
    exact ⟨_, hu.symm⟩
  | fold rd rs1 a n =>
    refine .inr ((reg rd _ rfl rfl ?_ h).imp_right .inl)
    intro u hr
    obtain ⟨_, -, _, -, x, -, hu⟩ := by simpa only [bind_eq_ok] using hr
    injection hu with hu
    exact ⟨_, hu.symm⟩
  | macend rd rs1 a n =>
    refine .inr ((reg rd _ rfl rfl ?_ h).imp_right .inl)
    intro u hr
    obtain ⟨_, -, _, -, x, -, hu⟩ := by simpa only [bind_eq_ok] using hr
    injection hu with hu
    exact ⟨_, hu.symm⟩
  | s2v rd a n =>
    refine .inr ((reg rd _ rfl rfl ?_ h).imp_right .inl)
    intro u hr
    obtain ⟨x, -, _, -, hu⟩ := by simpa only [bind_eq_ok] using hr
    injection hu with hu
    exact ⟨_, hu.symm⟩
  | bst rs1 a => exact .inr (.inr (store _ id _ rfl (fun bs hb => by simp only [destOf, hb]) (.inl ⟨rfl, rfl⟩) h))
  | xorend rs1 a b n =>
    exact .inr (.inr (store _ id _ rfl (fun bs hb => by simp only [destOf, hb]) (.inl ⟨rfl, rfl⟩) h))
  | ctrxor rs1 a b n =>
    exact .inr (.inr (store _ id _ rfl (fun bs hb => by simp only [destOf, hb]) (.inl ⟨rfl, rfl⟩) h))
  | sealAead rd a b n =>
    simp only [exec, execSealAead] at h
    cases hp : sealPlan s a b n with
    | error e =>
      rw [hp] at h; obtain ⟨c, info, -, ht⟩ := stop_eq_next.1 h; exact .inr (.inr (.inl ⟨c, info, ht⟩))
    | ok e =>
      rw [hp] at h
      exact .inr (.inr (.inr ⟨_, e.out, _, rfl, by simp [destOf, hp, Except.map], .inr ⟨rd, e.tag, rfl, rfl⟩, h⟩))
  | openAead rd a b n =>
    simp only [exec, execOpenAead] at h
    cases hp : openPlan s a b n with
    | error e =>
      rw [hp] at h; obtain ⟨c, info, -, ht⟩ := stop_eq_next.1 h; exact .inr (.inr (.inl ⟨c, info, ht⟩))
    | ok e =>
      rw [hp] at h
      exact .inr (.inr (.inr ⟨_, e.out, _, rfl, by simp [destOf, hp, Except.map], .inr ⟨rd, e.tag, rfl, rfl⟩, h⟩))

end Sys2Proof.Machine
end

