-- ==== Sys2Proof/Laws/PerInstr.lean ====
section
/-! SUPPORT. A family of statements, one per command: the command word an assembler writes is its opcode's match under its
opcode's mask, its register fields are the operands, and every unused field and word is 0 (spec/30_encoding.md R101, R106,
R110). -/

namespace Sys2Proof.Laws.MatchMask

/-- The encoding of a command matches its own row of the opcode map, and holds its operands. -/
def Statement (i : Instr) : Prop :=
  (encodeWords i).1 &&& i.op.mask = i.op.code.setWidth 32 ∧
    assemble i.op ((encodeWords i).1.extractLsb' 8 4) ((encodeWords i).1.extractLsb' 12 4)
      ((encodeWords i).1.extractLsb' 16 4) (encodeWords i).2.1 (encodeWords i).2.2.1 (encodeWords i).2.2.2 = i

/-- A command word whose unused fields are 0 is its opcode's match under its opcode's mask. -/
theorem commandWordOf_match (o : Op) (rd rs1 rs2 : Reg) (h1 : o.uses.rd = false → rd = 0)
    (h2 : o.uses.rs1 = false → rs1 = 0) (h3 : o.uses.rs2 = false → rs2 = 0) :
    commandWordOf o rd rs1 rs2 &&& o.mask = o.code.setWidth 32 := by
  apply BitVec.eq_of_getLsbD_eq
  intro k hk
  have field : ∀ (st len : Nat) (r : BitVec len), (commandWordOf o rd rs1 rs2).extractLsb' st len = r → st ≤ k →
      k < st + len → (commandWordOf o rd rs1 rs2).getLsbD k = r.getLsbD (k - st) := by
    intro st len r hr hs hl
    rw [← hr, BitVec.getLsbD_extractLsb', decide_eq_true (show k - st < len by omega), Bool.true_and,
      show st + (k - st) = k by omega]
  rw [BitVec.getLsbD_and, mask_getLsbD o k hk, BitVec.getLsbD_setWidth]
  rcases Nat.lt_or_ge k 8 with h | h
  · rw [field 0 8 _ (commandWordOf_op o rd rs1 rs2) (by omega) (by omega)]
    simp [h, hk]
  rw [BitVec.getLsbD_of_ge o.code k h]
  rcases Nat.lt_or_ge k 12 with c1 | c1
  · rw [field 8 4 _ (commandWordOf_rd o rd rs1 rs2) h (by omega)]
    cases hu : o.uses.rd
    · simp [h1 hu]
    · simp; omega
  rcases Nat.lt_or_ge k 16 with c2 | c2
  · rw [field 12 4 _ (commandWordOf_rs1 o rd rs1 rs2) c1 (by omega)]
    cases hu : o.uses.rs1
    · simp [h2 hu]
    · simp; omega
  rcases Nat.lt_or_ge k 20 with c3 | c3
  · rw [field 16 4 _ (commandWordOf_rs2 o rd rs1 rs2) c2 (by omega)]
    cases hu : o.uses.rs2
    · simp [h3 hu]
    · simp; omega
  · rw [field 20 12 _ (commandWordOf_rsv o rd rs1 rs2) c3 (by omega)]
    simp

/-- One lemma for all rows: an assembled command whose unused register fields are 0. -/
theorem of_fields {i : Instr} {o : Op} {rd rs1 rs2 : Reg} {a b n : Word} (ho : i.op = o)
    (he : encodeWords i = (commandWordOf o rd rs1 rs2, a, b, n)) (h1 : o.uses.rd = false → rd = 0)
    (h2 : o.uses.rs1 = false → rs1 = 0) (h3 : o.uses.rs2 = false → rs2 = 0)
    (hi : assemble o rd rs1 rs2 a b n = i) : Statement i := by
  unfold Statement
  rw [he, ho, commandWordOf_rd, commandWordOf_rs1, commandWordOf_rs2]
  exact ⟨commandWordOf_match o rd rs1 rs2 h1 h2 h3, hi⟩

theorem halt : Statement .halt :=
  of_fields (o := .halt) rfl rfl (by simp [Op.uses]) (by simp [Op.uses]) (by simp [Op.uses]) rfl

theorem nop : Statement .nop :=
  of_fields (o := .nop) rfl rfl (by simp [Op.uses]) (by simp [Op.uses]) (by simp [Op.uses]) rfl

theorem keyld (a : Word) (n : Word) : Statement (.keyld a n) :=
  of_fields (o := .keyld) rfl rfl (by simp [Op.uses]) (by simp [Op.uses]) (by simp [Op.uses]) rfl

theorem keyclr : Statement .keyclr :=
  of_fields (o := .keyclr) rfl rfl (by simp [Op.uses]) (by simp [Op.uses]) (by simp [Op.uses]) rfl

theorem bld (rd : Reg) (a : Word) : Statement (.bld rd a) :=
  of_fields (o := .bld) rfl rfl (by simp [Op.uses]) (by simp [Op.uses]) (by simp [Op.uses]) rfl

theorem bst (rs1 : Reg) (a : Word) : Statement (.bst rs1 a) :=
  of_fields (o := .bst) rfl rfl (by simp [Op.uses]) (by simp [Op.uses]) (by simp [Op.uses]) rfl

theorem bzero (rd : Reg) : Statement (.bzero rd) :=
  of_fields (o := .bzero) rfl rfl (by simp [Op.uses]) (by simp [Op.uses]) (by simp [Op.uses]) rfl

theorem bmov (rd : Reg) (rs1 : Reg) : Statement (.bmov rd rs1) :=
  of_fields (o := .bmov) rfl rfl (by simp [Op.uses]) (by simp [Op.uses]) (by simp [Op.uses]) rfl

theorem bxor (rd : Reg) (rs1 : Reg) (rs2 : Reg) : Statement (.bxor rd rs1 rs2) :=
  of_fields (o := .bxor) rfl rfl (by simp [Op.uses]) (by simp [Op.uses]) (by simp [Op.uses]) rfl

theorem cteq (rs1 : Reg) (rs2 : Reg) : Statement (.cteq rs1 rs2) :=
  of_fields (o := .cteq) rfl rfl (by simp [Op.uses]) (by simp [Op.uses]) (by simp [Op.uses]) rfl

theorem dbl (rd : Reg) (rs1 : Reg) : Statement (.dbl rd rs1) :=
  of_fields (o := .dbl) rfl rfl (by simp [Op.uses]) (by simp [Op.uses]) (by simp [Op.uses]) rfl

theorem ctrmask (rd : Reg) (rs1 : Reg) : Statement (.ctrmask rd rs1) :=
  of_fields (o := .ctrmask) rfl rfl (by simp [Op.uses]) (by simp [Op.uses]) (by simp [Op.uses]) rfl

theorem padxor (rd : Reg) (rs1 : Reg) (a : Word) (n : Word) : Statement (.padxor rd rs1 a n) :=
  of_fields (o := .padxor) rfl rfl (by simp [Op.uses]) (by simp [Op.uses]) (by simp [Op.uses]) rfl

theorem xorend (rs1 : Reg) (a : Word) (b : Word) (n : Word) : Statement (.xorend rs1 a b n) :=
  of_fields (o := .xorend) rfl rfl (by simp [Op.uses]) (by simp [Op.uses]) (by simp [Op.uses]) rfl

theorem macz (rd : Reg) : Statement (.macz rd) :=
  of_fields (o := .macz) rfl rfl (by simp [Op.uses]) (by simp [Op.uses]) (by simp [Op.uses]) rfl

theorem mac (rd : Reg) (a : Word) (n : Word) : Statement (.mac rd a n) :=
  of_fields (o := .mac) rfl rfl (by simp [Op.uses]) (by simp [Op.uses]) (by simp [Op.uses]) rfl

theorem fold (rd : Reg) (rs1 : Reg) (a : Word) (n : Word) : Statement (.fold rd rs1 a n) :=
  of_fields (o := .fold) rfl rfl (by simp [Op.uses]) (by simp [Op.uses]) (by simp [Op.uses]) rfl

theorem macend (rd : Reg) (rs1 : Reg) (a : Word) (n : Word) : Statement (.macend rd rs1 a n) :=
  of_fields (o := .macend) rfl rfl (by simp [Op.uses]) (by simp [Op.uses]) (by simp [Op.uses]) rfl

theorem ctrxor (rs1 : Reg) (a : Word) (b : Word) (n : Word) : Statement (.ctrxor rs1 a b n) :=
  of_fields (o := .ctrxor) rfl rfl (by simp [Op.uses]) (by simp [Op.uses]) (by simp [Op.uses]) rfl

theorem s2v (rd : Reg) (a : Word) (n : Word) : Statement (.s2v rd a n) :=
  of_fields (o := .s2v) rfl rfl (by simp [Op.uses]) (by simp [Op.uses]) (by simp [Op.uses]) rfl

theorem sealAead (rd : Reg) (a : Word) (b : Word) (n : Word) : Statement (.sealAead rd a b n) :=
  of_fields (o := .sealAead) rfl rfl (by simp [Op.uses]) (by simp [Op.uses]) (by simp [Op.uses]) rfl

theorem openAead (rd : Reg) (a : Word) (b : Word) (n : Word) : Statement (.openAead rd a b n) :=
  of_fields (o := .openAead) rfl rfl (by simp [Op.uses]) (by simp [Op.uses]) (by simp [Op.uses]) rfl

end Sys2Proof.Laws.MatchMask
end

