-- ==== Sys2Proof/Laws/Plans.lean ====
section
/-! SUPPORT. What the storing commands need to reach their write, and the destination ranges they name. -/

namespace Sys2Proof.Machine

theorem needInPlaceOrDisjoint_eq_ok {a b : Word} {n : Nat} {u : Unit} :
    needInPlaceOrDisjoint a b n = .ok u ↔ b = a ∨ ∀ x, inRange x b.toNat n → ¬ inRange x a.toNat n := by
  unfold needInPlaceOrDisjoint
  rw [check_eq_ok, Bool.or_eq_true, decide_eq_true_iff, Bool.not_eq_true', overlaps_eq_false]

theorem needDisjoint_eq_ok {t : Table} {a n b : Word} {len : Nat} {u : Unit} :
    needDisjoint t a n b len = .ok u ↔
      ∀ r ∈ (a.toNat, 8 * n.toNat) :: t.ranges, ∀ x, inRange x b.toNat len → ¬ inRange x r.1 r.2 := by
  unfold needDisjoint
  rw [check_eq_ok, List.all_eq_true]
  simp only [Bool.not_eq_true', overlaps_eq_false]

theorem bstPlan_eq_ok {s : State} {r : Reg} {a : Word} {bs : List Byte} :
    bstPlan s r a = .ok bs ↔ rangeLegal a.toNat 16 = true ∧ bs = blockBytes (s.getB r) := by
  unfold bstPlan
  simp only [bind_eq_ok, needRange_eq_ok, pure_ok, Except.ok.injEq]
  exact ⟨fun ⟨_, h, e⟩ => ⟨h, e.symm⟩, fun ⟨h, e⟩ => ⟨(), h, e.symm⟩⟩

theorem xorendPlan_eq_ok {s : State} {r : Reg} {a b n : Word} {bs : List Byte} :
    xorendPlan s r a b n = .ok bs ↔
      16 ≤ n.toNat ∧ n.toNat ≤ Config.maxLen ∧ rangeLegal a.toNat n.toNat = true ∧
      rangeLegal b.toNat n.toNat = true ∧ (b = a ∨ ∀ x, inRange x b.toNat n.toNat → ¬ inRange x a.toNat n.toNat) ∧
      plainRange s.platform a.toNat n.toNat ∧
      bs = xorend (seqBytes s (.data 0) a.toNat n.toNat) (blockBytes (s.getB r)) := by
  unfold xorendPlan
  simp only [bind_eq_ok, check_eq_ok, needLen_eq_ok, needRange_eq_ok, needInPlaceOrDisjoint_eq_ok,
    access_single_eq_ok, pure_ok, Except.ok.injEq, decide_eq_true_eq]
  exact ⟨fun ⟨_, h1, _, h2, _, h3, _, h4, _, h5, _, h6, e⟩ => ⟨h1, h2, h3, h4, h5, h6, e.symm⟩,
    fun ⟨h1, h2, h3, h4, h5, h6, e⟩ => ⟨(), h1, (), h2, (), h3, (), h4, (), h5, (), h6, e.symm⟩⟩

theorem ctrxorPlan_eq_ok {s : State} {r : Reg} {a b n : Word} {bs : List Byte} :
    ctrxorPlan s r a b n = .ok bs ↔
      s.keyValid = true ∧ n.toNat ≤ Config.maxLen ∧ rangeLegal a.toNat n.toNat = true ∧
      rangeLegal b.toNat n.toNat = true ∧ (b = a ∨ ∀ x, inRange x b.toNat n.toNat → ¬ inRange x a.toNat n.toNat) ∧
      plainRange s.platform a.toNat n.toNat ∧
      bs = ctrxor s.encKey (s.getB r) (seqBytes s (.data 0) a.toNat n.toNat) := by
  unfold ctrxorPlan
  simp only [bind_eq_ok, needKey_eq_ok, needLen_eq_ok, needRange_eq_ok, needInPlaceOrDisjoint_eq_ok,
    access_single_eq_ok, pure_ok, Except.ok.injEq]
  exact ⟨fun ⟨_, h1, _, h2, _, h3, _, h4, _, h5, _, h6, e⟩ => ⟨h1, h2, h3, h4, h5, h6, e.symm⟩,
    fun ⟨h1, h2, h3, h4, h5, h6, e⟩ => ⟨(), h1, (), h2, (), h3, (), h4, (), h5, (), h6, e.symm⟩⟩

theorem sealPlan_eq_ok {s : State} {a b n : Word} {e : Envelope} :
    sealPlan s a b n = .ok e ↔ ∃ t, TableOk s a n t ∧ rangeLegal b.toNat (16 + t.lastLen) = true ∧
      (∀ r ∈ (a.toNat, 8 * n.toNat) :: t.ranges, ∀ x, inRange x b.toNat (16 + t.lastLen) → ¬ inRange x r.1 r.2) ∧
      (∀ r ∈ t.ranges, plainRange s.platform r.1 r.2) ∧
      e = ⟨s2v s.macKey (t.frontFields s) (t.lastBytes s),
        sealBytes s.macKey s.encKey (t.frontFields s) (t.lastBytes s)⟩ := by
  unfold sealPlan
  simp only [bind_eq_ok, readTable_eq_ok, needRange_eq_ok, needDisjoint_eq_ok, access_eq_ok, pure_ok, Except.ok.injEq]
  exact ⟨fun ⟨t, h1, _, h2, _, h3, _, h4, e⟩ => ⟨t, h1, h2, h3, h4, e.symm⟩,
    fun ⟨t, h1, h2, h3, h4, e⟩ => ⟨t, h1, (), h2, (), h3, (), h4, e.symm⟩⟩

theorem ctEq_eq_true {v w : Block} : ctEq v w = true ↔ v = w := by
  have fold : ∀ (l : List Byte) (acc : Byte), l.foldl (fun acc d => acc ||| d) acc = 0 ↔ acc = 0 ∧ ∀ d ∈ l, d = 0 := by
    intro l
    induction l with
    | nil => simp
    | cons x l ih =>
      intro acc
      rw [List.foldl_cons, ih]
      show (acc ||| x = 0#8 ∧ _) ↔ _
      rw [BitVec.or_eq_zero_iff]
      simp [and_assoc]
  unfold ctEq ctEqBytes
  rw [beq_iff_eq, fold]
  constructor
  · rintro ⟨-, h⟩
    apply block_ext
    intro i hi
    have := h (blockByte v i ^^^ blockByte w i) (List.mem_iff_getElem.2 ⟨i, by simp [hi], by simp⟩)
    exact BitVec.xor_eq_zero_iff.1 this
  · rintro rfl
    refine ⟨rfl, fun d hd => ?_⟩
    obtain ⟨i, hi, rfl⟩ := List.mem_iff_getElem.1 hd
    rw [List.getElem_zipWith, BitVec.xor_self]
    rfl

theorem openPlan_eq_ok {s : State} {a b n : Word} {e : Envelope} :
    openPlan s a b n = .ok e ↔ ∃ t, TableOk s a n t ∧ rangeLegal b.toNat (t.lastLen - 16) = true ∧
      (∀ r ∈ (a.toNat, 8 * n.toNat) :: t.ranges, ∀ x, inRange x b.toNat (t.lastLen - 16) → ¬ inRange x r.1 r.2) ∧
      (∀ r ∈ t.ranges, plainRange s.platform r.1 r.2) ∧ 16 ≤ t.lastLen ∧
      openTag s.macKey s.encKey (t.frontFields s) (t.lastBytes s) = tagOf (t.lastBytes s) ∧
      e = ⟨tagOf (t.lastBytes s), ctrxor s.encKey (ctr (tagOf (t.lastBytes s)))
        (seqBytes s .again (t.lastAddr.toNat + 16) (t.lastLen - 16))⟩ := by
  unfold openPlan
  simp only [bind_eq_ok, readTable_eq_ok, needRange_eq_ok, needDisjoint_eq_ok, access_eq_ok, check_eq_ok,
    ctEq_eq_true, pure_ok, Except.ok.injEq, decide_eq_true_eq]
  constructor
  · rintro ⟨t, h1, _, h2, _, h3, _, h4, _, h5, _, h6, e⟩
    exact ⟨t, h1, h2, h3, h4, h5, h6, by rw [← e, h6]⟩
  · rintro ⟨t, h1, h2, h3, h4, h5, h6, e⟩
    exact ⟨t, h1, (), h2, (), h3, (), h4, (), h5, (), h6, by rw [e, h6]⟩

/-! ### Destination ranges -/

theorem destOf_bst {s : State} {r : Reg} {a : Word} {d : Nat × Nat} (h : destOf (.bst r a) s = some d) :
    d = (a.toNat, 16) ∧ rangeLegal a.toNat 16 = true := by
  simp only [destOf] at h
  split at h
  · next bs hb =>
    obtain ⟨hl, rfl⟩ := bstPlan_eq_ok.1 hb
    injection h with h
    exact ⟨by rw [← h]; simp, hl⟩
  · cases h

theorem destOf_xorend {s : State} {r : Reg} {a b n : Word} {d : Nat × Nat} (h : destOf (.xorend r a b n) s = some d) :
    d = (b.toNat, n.toNat) ∧ rangeLegal b.toNat n.toNat = true := by
  simp only [destOf] at h
  split at h
  · next bs hb =>
    obtain ⟨h16, -, -, hl, -, -, rfl⟩ := xorendPlan_eq_ok.1 hb
    injection h with h
    rw [xorend_length (by simpa using h16)] at h
    exact ⟨by rw [← h]; simp, hl⟩
  · cases h

theorem destOf_ctrxor {s : State} {r : Reg} {a b n : Word} {d : Nat × Nat} (h : destOf (.ctrxor r a b n) s = some d) :
    d = (b.toNat, n.toNat) ∧ rangeLegal b.toNat n.toNat = true := by
  simp only [destOf] at h
  split at h
  · next bs hb =>
    obtain ⟨-, -, -, hl, -, -, rfl⟩ := ctrxorPlan_eq_ok.1 hb
    injection h with h
    exact ⟨by rw [← h]; simp, hl⟩
  · cases h

theorem destOf_seal {s : State} {r : Reg} {a b n : Word} {d : Nat × Nat} (h : destOf (.sealAead r a b n) s = some d) :
    ∃ t, TableOk s a n t ∧ d = (b.toNat, 16 + t.lastLen) ∧ rangeLegal b.toNat (16 + t.lastLen) = true := by
  simp only [destOf] at h
  cases hp : sealPlan s a b n with
  | error e => simp [hp, Except.map] at h
  | ok e =>
    simp only [hp, Except.map, Option.some.injEq] at h
    obtain ⟨t, ht, hl, -, -, rfl⟩ := sealPlan_eq_ok.1 hp
    exact ⟨t, ht, by rw [← h]; simp, hl⟩

theorem destOf_open {s : State} {r : Reg} {a b n : Word} {d : Nat × Nat} (h : destOf (.openAead r a b n) s = some d) :
    ∃ t, TableOk s a n t ∧ d = (b.toNat, t.lastLen - 16) ∧ rangeLegal b.toNat (t.lastLen - 16) = true ∧
      16 ≤ t.lastLen ∧ openTag s.macKey s.encKey (t.frontFields s) (t.lastBytes s) = tagOf (t.lastBytes s) := by
  simp only [destOf] at h
  cases hp : openPlan s a b n with
  | error e => simp [hp, Except.map] at h
  | ok e =>
    simp only [hp, Except.map, Option.some.injEq] at h
    obtain ⟨t, ht, hl, -, -, h16, hv, rfl⟩ := openPlan_eq_ok.1 hp
    exact ⟨t, ht, by rw [← h]; simp, hl, h16, hv⟩

/-- A destination range that a command reaches is legal (R65). -/
theorem destOf_legal {i : Instr} {s : State} {dst len : Nat} (h : destOf i s = some (dst, len)) :
    rangeLegal dst len = true := by
  cases i with
  | bst r a => obtain ⟨he, hl⟩ := destOf_bst h; cases he; exact hl
  | xorend r a b n => obtain ⟨he, hl⟩ := destOf_xorend h; cases he; exact hl
  | ctrxor r a b n => obtain ⟨he, hl⟩ := destOf_ctrxor h; cases he; exact hl
  | sealAead r a b n => obtain ⟨t, -, he, hl⟩ := destOf_seal h; cases he; exact hl
  | openAead r a b n => obtain ⟨t, -, he, hl, -⟩ := destOf_open h; cases he; exact hl
  | _ => cases h

end Sys2Proof.Machine
end

