-- ==== Sys2Proof/Laws/Step.lean ====
section
/-! SUPPORT. What a step can do, said once: the inversions of the sequencer's cycle, of soft reset, of an MMIO write and
of an event of the host. -/

namespace Sys2Proof.Machine

/-- A cycle of the sequencer takes a fault of the fetch or of the decoding, or runs a command. -/
theorem sequencerStep_cases {s t : State} (h : sequencerStep s = .next t) :
    (∃ c info, t = raise s c info) ∨ ∃ i, exec i s = .next t := by
  unfold sequencerStep at h
  split at h
  · obtain ⟨c, info, -, ht⟩ := stop_eq_next.1 h; exact .inl ⟨c, info, ht⟩
  · split at h
    · injection h with h; exact .inl ⟨_, _, h.symm⟩
    · exact .inr ⟨_, h⟩

/-- The range that an abandoned command may have begun to write is legal (R65). -/
theorem abandonedRange_legal (i : Instr) (s : State) :
    rangeLegal (abandonedRange i s).1 (abandonedRange i s).2 = true := by
  have legal : ∀ (dst : Word) (n : Nat), rangeLegal dst.toNat (if rangeLegal dst.toNat n then n else 0) = true := by
    intro dst n
    split
    · assumption
    · exact rangeLegal_iff.2 (.inl rfl)
  cases i with
  | bst r a => exact legal a 16
  | xorend r a b n => exact legal b n.toNat
  | ctrxor r a b n => exact legal b n.toNat
  | sealAead r a b n =>
    simp only [abandonedRange]
    split
    · exact legal b _
    · exact rangeLegal_iff.2 (.inl rfl)
  | openAead r a b n =>
    simp only [abandonedRange]
    split
    · next e he =>
      obtain ⟨t, -, hl, -, -, -, -, rfl⟩ := openPlan_eq_ok.1 he
      simpa using hl
    · exact rangeLegal_iff.2 (.inl rfl)
  | _ => exact rangeLegal_iff.2 (.inl rfl)

/-- A soft reset in a run abandons the command at CMD_PTR. -/
theorem softReset_abandons {s : State} {bs more : List Byte} {i : Instr} (hb : s.busy = true) (hf : fetch s = .ok bs)
    (hd : decode bs = .ok (i, more)) : softReset s = resetBlock (abandon i s) := by
  unfold softReset
  rw [if_pos hb, hf]
  simp only [hd]

/-- A soft reset leaves the reset values, with memory kept but for the range that the command at CMD_PTR may have begun
to write. -/
theorem softReset_cases (s : State) :
    softReset s = resetBlock s ∨ ∃ bs i rest, s.busy = true ∧ fetch s = .ok bs ∧ decode bs = .ok (i, rest) ∧
      softReset s = resetBlock (abandon i s) := by
  unfold softReset
  split
  · next hb =>
    split
    · exact .inl rfl
    · next bs hf =>
      split
      · exact .inl rfl
      · next i rest hd => exact .inr ⟨bs, i, rest, hb, hf, hd, rfl⟩
  · exact .inl rfl

/-- What a write of CTRL does, in the order of R34. -/
theorem writeCtrl_cases (s : State) (v : Word) :
    (v.getLsbD 1 = true ∧ writeCtrl s v = softReset s) ∨
    (v.getLsbD 1 = false ∧ v.getLsbD 0 = true ∧ s.busy = false ∧
      writeCtrl s v = startRun { s with ie := v.getLsbD 2 }) ∨
    (v.getLsbD 1 = false ∧ (v.getLsbD 0 = false ∨ s.busy = true) ∧ writeCtrl s v = { s with ie := v.getLsbD 2 }) := by
  unfold writeCtrl
  cases v.getLsbD 1 <;> cases v.getLsbD 0 <;> cases s.busy <;> simp

/-- What an MMIO write does. -/
theorem mmioWrite_cases (s : State) (off : Nat) (v : Word) :
    (off = 0x08 ∧ mmioWrite s off v = writeCtrl s v) ∨ (off = 0x0C ∧ mmioWrite s off v = writeStatus s v) ∨
    (off = 0x10 ∧ mmioWrite s off v = writeCmdPtr s v) ∨ mmioWrite s off v = s := by
  unfold mmioWrite
  split
  · exact .inl ⟨by assumption, rfl⟩
  · split
    · exact .inr (.inl ⟨by assumption, rfl⟩)
    · split
      · exact .inr (.inr (.inl ⟨by assumption, rfl⟩))
      · exact .inr (.inr (.inr rfl))

theorem hostMemory_eq_next {s t u : State} {a : Nat} :
    hostMemory s a t = .next u ↔ kindAt s.platform a = some .plain ∧ t = u := by
  unfold hostMemory
  split <;> simp_all

/-- What an event of the host can do, whatever its loads see. -/
theorem hostStepWith_cases {view : State → Nat → Byte} {e : Event} {s t : State}
    (h : hostStepWith view e s = .next t) :
    t = s ∨ (∃ w, t = { s with hostData := w }) ∨
    (∃ addr width off v, e = .mmioWrite addr width v ∧ mmioOffset s.platform addr width = some off ∧
      t = mmioWrite s off v) ∨
    (∃ a : Word, a.toNat < Config.addrSpace ∧
      ((∃ v, e = .store a v ∧ t = hostStore s a.toNat v) ∨ (e = .clean a ∧ t = hostClean s a.toNat) ∨
        (e = .invalidate a ∧ t = hostInvalidate s a.toNat))) := by
  cases e with
  | seqTurn => injection h with h; exact .inl h.symm
  | awaitIdle => injection h with h; exact .inl h.symm
  | mmioRead addr width =>
    simp only [hostStepWith] at h
    split at h
    · injection h with h; exact .inr (.inl ⟨_, h.symm⟩)
    · cases h
  | mmioWrite addr width v =>
    simp only [hostStepWith] at h
    split at h
    · next off ho => injection h with h; exact .inr (.inr (.inl ⟨addr, width, off, v, rfl, ho, h.symm⟩))
    · cases h
  | store a v =>
    obtain ⟨hk, rfl⟩ := hostMemory_eq_next.1 h
    exact .inr (.inr (.inr ⟨a, kindAt_lt hk, .inl ⟨v, rfl, rfl⟩⟩))
  | load a =>
    obtain ⟨hk, rfl⟩ := hostMemory_eq_next.1 h
    exact .inr (.inl ⟨_, rfl⟩)
  | clean a =>
    obtain ⟨hk, rfl⟩ := hostMemory_eq_next.1 h
    exact .inr (.inr (.inr ⟨a, kindAt_lt hk, .inr (.inl ⟨rfl, rfl⟩)⟩))
  | invalidate a =>
    obtain ⟨hk, rfl⟩ := hostMemory_eq_next.1 h
    exact .inr (.inr (.inr ⟨a, kindAt_lt hk, .inr (.inr ⟨rfl, rfl⟩)⟩))

/-- When the sequencer takes its turn. -/
theorem sequencerTakes_eq_some {s u : State} :
    sequencerTakes s = some u ↔ s.busy = true ∧
      ((s.agenda = [] ∧ u = s.tick) ∨ (∃ es, s.agenda = .awaitIdle :: es ∧ u = s.tick) ∨
        ∃ es, s.agenda = .seqTurn :: es ∧ u = { s with agenda := es }.tick) := by
  unfold sequencerTakes
  split
  · next hb =>
    split
    all_goals next h =>
      simp [hb, h]
      try exact eq_comm
  · next hb => simp [hb]

/-- A turn that the sequencer takes consumes at most one event and changes nothing else. -/
theorem sequencerTakes_frame {s u : State} (h : sequencerTakes s = some u) :
    s.busy = true ∧ ∃ es, u = { s with agenda := es }.tick := by
  obtain ⟨hb, ⟨-, rfl⟩ | ⟨es, -, rfl⟩ | ⟨es, -, rfl⟩⟩ := sequencerTakes_eq_some.1 h
  · exact ⟨hb, s.agenda, rfl⟩
  · exact ⟨hb, s.agenda, rfl⟩
  · exact ⟨hb, es, rfl⟩

/-- An event that is not the sequencer's turn is the host's. -/
theorem sequencerTakes_of_event {s : State} {e : Event} {rest : List Event} (h : s.agenda = e :: rest)
    (h1 : e ≠ .seqTurn) (h2 : e ≠ .awaitIdle) : sequencerTakes s = none := by
  cases hs : sequencerTakes s with
  | none => rfl
  | some u =>
    obtain ⟨-, ⟨ha, -⟩ | ⟨es, ha, -⟩ | ⟨es, ha, -⟩⟩ := sequencerTakes_eq_some.1 hs <;> rw [h] at ha <;> simp_all

theorem sequencerTurn_eq_some {s u : State} :
    sequencerTurn s = some u ↔
      ∃ v, sequencerTakes s = some v ∧ u = { v with raced := foreseen s.agenda.length s } :=
  Option.map_eq_some_iff.trans
    ⟨fun ⟨v, h, e⟩ => ⟨v, h, e.symm⟩, fun ⟨v, h, e⟩ => ⟨v, h, e.symm⟩⟩

theorem sequencerTurn_eq_none {s : State} : sequencerTurn s = none ↔ sequencerTakes s = none := by
  simp [sequencerTurn]

/-- A turn of the sequencer consumes at most one event, foresees what the host writes in the run, and changes nothing
else. -/
theorem sequencerTurn_frame {s u : State} (h : sequencerTurn s = some u) :
    s.busy = true ∧ ∃ es, u = { s with agenda := es, raced := foreseen s.agenda.length s }.tick := by
  obtain ⟨v, hv, rfl⟩ := sequencerTurn_eq_some.1 h
  obtain ⟨hb, es, rfl⟩ := sequencerTakes_frame hv
  exact ⟨hb, es, rfl⟩

theorem step_of_sequencerTurn {s u : State} (h : sequencerTurn s = some u) : step s = sequencerStep u := by
  simp only [step, turn, turnWith, h]

theorem sequencerTurn_of_event {s : State} {e : Event} {rest : List Event} (h : s.agenda = e :: rest)
    (h1 : e ≠ .seqTurn) (h2 : e ≠ .awaitIdle) : sequencerTurn s = none :=
  sequencerTurn_eq_none.2 (sequencerTakes_of_event h h1 h2)

theorem step_of_event {s : State} {e : Event} {rest : List Event} (h : s.agenda = e :: rest)
    (h1 : e ≠ .seqTurn) (h2 : e ≠ .awaitIdle) : step s = hostStep e { s with agenda := rest }.tick := by
  simp only [step, turn, turnWith, sequencerTurn_of_event h h1 h2, h, hostStep]

/-- The ways a turn gives a next state: a cycle of the sequencer, nothing to come, an event. -/
theorem turnWith_cases {takes : State → Option State} {view : State → Nat → Byte} {s t : State}
    (h : turnWith takes view s = .next t) :
    (∃ u, takes s = some u ∧ sequencerStep u = .next t) ∨
    (takes s = none ∧ s.agenda = [] ∧ t = s) ∨
    ∃ e rest, s.agenda = e :: rest ∧ takes s = none ∧ hostStepWith view e { s with agenda := rest }.tick = .next t := by
  unfold turnWith at h
  split at h
  · next u hu => exact .inl ⟨u, hu, h⟩
  · next hn =>
    split at h
    · next ha =>
      injection h with h
      exact .inr (.inl ⟨hn, ha, h.symm⟩)
    · next e rest ha => exact .inr (.inr ⟨e, rest, ha, hn, h⟩)

theorem busy_of_takes_none {s : State} (h : sequencerTakes s = none) (ha : s.agenda = []) : s.busy = false := by
  cases hb : s.busy
  · rfl
  · simp [sequencerTakes, hb, ha] at h

/-- The ways a step gives a next state. -/
theorem step_cases {s t : State} (h : step s = .next t) :
    (∃ u, sequencerTurn s = some u ∧ sequencerStep u = .next t) ∨
    (s.agenda = [] ∧ s.busy = false ∧ t = s) ∨
    ∃ e rest, s.agenda = e :: rest ∧ sequencerTurn s = none ∧ hostStep e { s with agenda := rest }.tick = .next t := by
  rcases turnWith_cases h with h | ⟨hn, ha, ht⟩ | h
  · exact .inl h
  · exact .inr (.inl ⟨ha, busy_of_takes_none (sequencerTurn_eq_none.1 hn) ha, ht⟩)
  · exact .inr (.inr h)

/-! ### The memory operations keep the canonical form -/

/-- Memory is written only through `Memory.write` inside the address space, so every operation keeps the form. -/
theorem memWrite_wf {s : State} (h : s.mem.wf) {a : Nat} {bs : List Byte} (ha : rangeLegal a bs.length = true) :
    (memWrite s a bs).mem.wf :=
  Memory.writeBytes_wf _ h _ _ ((rangeLegal_iff.1 ha).imp_left List.eq_nil_of_length_eq_zero)

theorem scramble_wf {s : State} (h : s.mem.wf) {a n : Nat} (ha : rangeLegal a n = true) : (scramble s a n).mem.wf :=
  memWrite_wf h (by simpa using ha)

theorem abandon_wf {s : State} (h : s.mem.wf) (i : Instr) : (abandon i s).mem.wf :=
  scramble_wf h (abandonedRange_legal i s)

theorem hostStore_wf {s : State} (h : s.mem.wf) {a : Nat} (ha : a < Config.addrSpace) (v : Byte) :
    (hostStore s a v).mem.wf := Memory.write_wf _ h a ha v

theorem hostClean_wf {s : State} (h : s.mem.wf) {a : Nat} (ha : a < Config.addrSpace) : (hostClean s a).mem.wf := by
  unfold hostClean
  split
  · exact h
  · simp only
    split
    · exact Memory.write_wf _ h a ha _
    · exact h

theorem hostInvalidate_wf {s : State} (h : s.mem.wf) {a : Nat} (ha : a < Config.addrSpace) :
    (hostInvalidate s a).mem.wf := by
  unfold hostInvalidate
  split
  · exact h
  · simp only
    split
    · exact Memory.write_wf _ h a ha _
    · exact h

theorem reset_mem_wf : State.reset.mem.wf := Memory.wf_nil

end Sys2Proof.Machine
end

