-- ==== Sys2Proof/Laws/Progress.lean ====
section
/-! SUPPORT. A command of a platform without side-effect regions always gives a next state, and no command is refused. -/

namespace Sys2Proof.Machine

/-- A checked computation that never stops at a side-effect region. -/
def Sound {α : Type} (r : Except Stop α) : Prop := ∀ x, r ≠ .error (.sideEffect x)

theorem sound_ok {α : Type} (x : α) : Sound (.ok x : Except Stop α) := by simp [Sound]

theorem sound_raise {α : Type} (c : FaultCode) (info : Word) : Sound (.error (.raise c info) : Except Stop α) := by
  simp [Sound]

theorem sound_bind {α β : Type} {r : Except Stop α} {f : α → Except Stop β} (hr : Sound r) (hf : ∀ a, Sound (f a)) :
    Sound (r >>= f) := by
  cases r with
  | ok a => exact hf a
  | error e => exact fun x h => hr x (by injection h with h; rw [h])

theorem sound_check (c : Bool) (code : FaultCode) (info : Word) : Sound (check c code info) := by
  cases c
  · exact sound_raise _ _
  · exact sound_ok _

theorem sound_access {s : State} (h : s.platform.plain) (rs : List (Nat × Nat)) : Sound (access s rs) :=
  fun _ => accessAddrs_ne_sideEffect h

theorem sound_readOperand {s : State} (h : s.platform.plain) (a : Word) (n : Nat) : Sound (readOperand s a n) :=
  sound_bind (sound_check _ _ _) fun _ => sound_bind (sound_access h _) fun _ => sound_ok _

theorem sound_splitLast (ds : List Desc) : Sound (splitLast ds) := by
  unfold splitLast
  split
  · exact sound_ok _
  · exact sound_raise _ _

theorem sound_readTable {s : State} (h : s.platform.plain) (a n : Word) : Sound (readTable s a n) :=
  sound_bind (sound_check _ _ _) fun _ => sound_bind (sound_check _ _ _) fun _ => sound_bind (sound_check _ _ _) fun _ =>
  sound_bind (sound_check _ _ _) fun _ => sound_bind (sound_check _ _ _) fun _ => sound_bind (sound_access h _) fun _ =>
  sound_bind (fun _ => readDescs_ne_sideEffect) fun ds => sound_bind (sound_splitLast ds) fun _ =>
  sound_bind (fun _ => needFieldRanges_ne_sideEffect) fun _ => sound_ok _

theorem stop_sound {α : Type} {s : State} {e : Stop} (h : Sound (.error e : Except Stop α)) :
    ∃ t, stop s e = .next t := by
  cases e with
  | raise c info => exact ⟨_, rfl⟩
  | sideEffect a => exact absurd rfl (h a)

theorem complete_next (s : State) : ∃ t, complete s = .next t := by
  unfold complete; split <;> exact ⟨_, rfl⟩

theorem conclude_sound {s : State} {r : Except Stop State} (h : Sound r) : ∃ t, conclude s r = .next t := by
  cases r with
  | ok u => exact complete_next u
  | error e => exact stop_sound h

theorem storeThen_next {s : State} (h : s.platform.plain) (dst : Nat) (bs : List Byte) (after : State → State) :
    ∃ t, storeThen s dst bs after = .next t := by
  have := sound_access h [(dst, bs.length)]
  unfold storeThen
  split
  · exact complete_next _
  · next e he => rw [he] at this; exact stop_sound this

/-- A storing command: its plan gives a store or a stop. -/
theorem plan_next {s : State} (h : s.platform.plain) {α : Type} {r : Except Stop α} (hr : Sound r) {o : Outcome}
    (hok : ∀ x, r = .ok x → ∃ dst bs after, o = storeThen s dst bs after) (herr : ∀ e, r = .error e → o = stop s e) :
    ∃ t, o = .next t := by
  cases r with
  | ok x => obtain ⟨dst, bs, after, rfl⟩ := hok x rfl; exact storeThen_next h _ _ _
  | error e => rw [herr e rfl]; exact stop_sound hr

/-- Where no region has side effects, every command gives a next state. -/
theorem exec_next {s : State} (h : s.platform.plain) (i : Instr) : ∃ t, exec i s = .next t := by
  have key : Sound (needKey s) := sound_check _ _ _
  have len : ∀ n, Sound (needLen n) := fun n => sound_check _ _ _
  have rng : ∀ a n, Sound (needRange a n) := fun a n => sound_check _ _ _
  have opd := sound_readOperand h
  have tbl := sound_readTable h
  cases i with
  | halt => exact ⟨_, rfl⟩
  | nop => exact complete_next _
  | keyclr => exact complete_next _
  | bzero rd => exact complete_next _
  | bmov rd rs1 => exact complete_next _
  | bxor rd rs1 rs2 => exact complete_next _
  | cteq rs1 rs2 => exact complete_next _
  | dbl rd rs1 => exact complete_next _
  | ctrmask rd rs1 => exact complete_next _
  | keyld a n => exact conclude_sound (sound_bind (sound_check _ _ _) fun _ => sound_bind (opd _ _) fun _ => sound_ok _)
  | bld rd a => exact conclude_sound (sound_bind (opd _ _) fun _ => sound_ok _)
  | padxor rd rs1 a n =>
    exact conclude_sound (sound_bind (sound_check _ _ _) fun _ => sound_bind (opd _ _) fun _ => sound_ok _)
  | macz rd => exact conclude_sound (sound_bind key fun _ => sound_ok _)
  | mac rd a n =>
    exact conclude_sound (sound_bind key fun _ => sound_bind (len n) fun _ => sound_bind (opd _ _) fun _ => sound_ok _)
  | fold rd rs1 a n =>
    exact conclude_sound (sound_bind key fun _ => sound_bind (len n) fun _ => sound_bind (opd _ _) fun _ => sound_ok _)
  | macend rd rs1 a n =>
    exact conclude_sound (sound_bind key fun _ => sound_bind (len n) fun _ => sound_bind (opd _ _) fun _ => sound_ok _)
  | s2v rd a n =>
    exact conclude_sound (sound_bind (tbl a n) fun _ => sound_bind (sound_access h _) fun _ => sound_ok _)
  | bst rs1 a =>
    exact plan_next (r := bstPlan s rs1 a) h (sound_bind (rng _ _) fun _ => sound_ok _)
      (fun x hx => ⟨_, _, _, by simp only [exec, execBst, hx]; rfl⟩) (fun e he => by simp only [exec, execBst, he])
  | xorend rs1 a b n =>
    exact plan_next (r := xorendPlan s rs1 a b n) h
      (sound_bind (sound_check _ _ _) fun _ => sound_bind (len n) fun _ => sound_bind (rng _ _) fun _ =>
        sound_bind (rng _ _) fun _ => sound_bind (sound_check _ _ _) fun _ => sound_bind (sound_access h _) fun _ =>
        sound_ok _)
      (fun x hx => ⟨_, _, _, by simp only [exec, execXorend, hx]; rfl⟩) (fun e he => by simp only [exec, execXorend, he])
  | ctrxor rs1 a b n =>
    exact plan_next (r := ctrxorPlan s rs1 a b n) h
      (sound_bind key fun _ => sound_bind (len n) fun _ => sound_bind (rng _ _) fun _ =>
        sound_bind (rng _ _) fun _ => sound_bind (sound_check _ _ _) fun _ => sound_bind (sound_access h _) fun _ =>
        sound_ok _)
      (fun x hx => ⟨_, _, _, by simp only [exec, execCtrxor, hx]; rfl⟩) (fun e he => by simp only [exec, execCtrxor, he])
  | sealAead rd a b n =>
    exact plan_next (r := sealPlan s a b n) h
      (sound_bind (tbl a n) fun _ => sound_bind (rng _ _) fun _ => sound_bind (sound_check _ _ _) fun _ =>
        sound_bind (sound_access h _) fun _ => sound_ok _)
      (fun x hx => ⟨_, _, _, by simp only [exec, execSealAead, hx]; rfl⟩) (fun e he => by simp only [exec, execSealAead, he])
  | openAead rd a b n =>
    exact plan_next (r := openPlan s a b n) h
      (sound_bind (tbl a n) fun _ => sound_bind (rng _ _) fun _ => sound_bind (sound_check _ _ _) fun _ =>
        sound_bind (sound_access h _) fun _ => sound_bind (sound_check _ _ _) fun _ => sound_bind (sound_check _ _ _)
        fun _ => sound_ok _)
      (fun x hx => ⟨_, _, _, by simp only [exec, execOpenAead, hx]; rfl⟩) (fun e he => by simp only [exec, execOpenAead, he])

theorem sequencerStep_next {s : State} (h : s.platform.plain) : ∃ t, sequencerStep s = .next t := by
  unfold sequencerStep
  split
  · next e he =>
    cases e with
    | raise c info => exact ⟨_, rfl⟩
    | sideEffect a =>
      unfold fetch at he
      split at he
      · cases he
      · next e' ha => cases he; exact absurd ha (sound_access h _ a)
  · split
    · exact ⟨_, rfl⟩
    · exact exec_next h _

end Sys2Proof.Machine
end

