-- ==== Sys2Proof/Laws/Races.lean ====
section
/-! SUPPORT. Races over a run: what the host's loads return is read by nothing, nor is what it does next; what a turn keeps;
and what a turn of the sequencer foresees is what the run then meets, unless it stops. -/

namespace Sys2Proof.Machine

/-! ### What the host's loads return, and what it does next, is read by nothing -/

/-- `s` with another word returned to the host, and more events after those to come. -/
def State.withHost (s : State) (w : Word) (l : List Event) : State :=
  { s with hostData := w, agenda := s.agenda ++ l }

/-- An outcome with another word returned to the host, and more events after those to come. -/
def Outcome.withHost (w : Word) (l : List Event) : Outcome → Outcome
  | .next t => .next (t.withHost w l)
  | .fault f => .fault f
  | .refused r => .refused r

theorem complete_withHost (s : State) {w : Word} {l : List Event} :
    complete (s.withHost w l) = Outcome.withHost w l (complete s) := by
  unfold complete
  by_cases h : s.pc = lastPc
  · rw [if_pos h, if_pos (show (s.withHost w l).pc = lastPc from h)]; rfl
  · rw [if_neg h, if_neg (show ¬ (s.withHost w l).pc = lastPc from h)]; rfl

theorem stop_withHost (s : State) {w : Word} {l : List Event} (e : Stop) :
    stop (s.withHost w l) e = Outcome.withHost w l (stop s e) := by
  cases e <;> rfl

theorem storeThen_withHost {s : State} {w : Word} {l : List Event} {dst : Nat} {bs : List Byte} {after : State → State}
    (h : ∀ t : State, after (t.withHost w l) = (after t).withHost w l) :
    storeThen (s.withHost w l) dst bs after = Outcome.withHost w l (storeThen s dst bs after) := by
  have ha : access (s.withHost w l) [(dst, bs.length)] = access s [(dst, bs.length)] := rfl
  unfold storeThen
  rw [ha]
  split
  · have := complete_withHost (after (memWrite s dst bs)) (w := w) (l := l)
    rw [← h] at this
    exact this
  · exact stop_withHost (scramble s dst bs.length) _

theorem readDescs_withHost (s : State) (w : Word) (l : List Event) (a i k : Nat) :
    readDescs (s.withHost w l) a i k = readDescs s a i k := by
  induction k generalizing i with
  | zero => rfl
  | succ k ih => simp only [readDescs, ih]; rfl

theorem readTable_withHost (s : State) (w : Word) (l : List Event) (a n :
    Word) : readTable (s.withHost w l) a n = readTable s a n := by
  simp only [readTable, readDescs_withHost]; rfl

theorem frontFields_withHost (s : State) (w : Word) (l : List Event) (t : Table) :
    t.frontFields (s.withHost w l) = t.frontFields s :=
  readFields_congr (s := s.withHost w l) (t := s) rfl rfl rfl _ _

theorem sealPlan_withHost (s : State) (w : Word) (l : List Event) (a b n :
    Word) : sealPlan (s.withHost w l) a b n = sealPlan s a b n := by
  simp only [sealPlan, readTable_withHost, frontFields_withHost]; rfl

theorem openPlan_withHost (s : State) (w : Word) (l : List Event) (a b n :
    Word) : openPlan (s.withHost w l) a b n = openPlan s a b n := by
  simp only [openPlan, readTable_withHost, frontFields_withHost]; rfl

/-- A command that stores nothing: its checks give the same result with the other word in it. -/
theorem conclude_withHost {s : State} {w : Word} {l : List Event} {α : Type} (r : Except Stop α) (f g : α → State)
    (h : ∀ x, g x = (f x).withHost w l) :
    conclude (s.withHost w l) (r >>= fun x => .ok (g x)) = Outcome.withHost w l (conclude s (r >>= fun x => .ok (f x))) := by
  cases r with
  | ok x => simp only [bind_ok, conclude_ok, h]; exact complete_withHost _
  | error e => exact stop_withHost s e

/-- No command reads the word returned to the host. -/
theorem exec_withHost (i : Instr) (s : State) {w : Word} {l : List Event} :
    exec i (s.withHost w l) = Outcome.withHost w l (exec i s) := by
  cases i with
  | halt => rfl
  | nop => exact complete_withHost s
  | keyclr => exact complete_withHost { s with macKey := [], encKey := [], klen := 0, keyValid := false }
  | bzero rd => exact complete_withHost (s.setB rd 0)
  | bmov rd rs1 => exact complete_withHost (s.setB rd (s.getB rs1))
  | bxor rd rs1 rs2 => exact complete_withHost (s.setB rd (s.getB rs1 ^^^ s.getB rs2))
  | cteq rs1 rs2 => exact complete_withHost { s with eq := ctEq (s.getB rs1) (s.getB rs2) }
  | dbl rd rs1 => exact complete_withHost (s.setB rd (dbl (s.getB rs1)))
  | ctrmask rd rs1 => exact complete_withHost (s.setB rd (ctr (s.getB rs1)))
  | keyld a n =>
    have := conclude_withHost (s := s) (w := w) (l := l)
      (check (keyLengthOk n.toNat) .invalidKey n >>= fun _ => readOperand s a n.toNat)
      (fun key => { s with
        macKey := key.take (n.toNat / 2), encKey := key.drop (n.toNat / 2), klen := n.toNat / 2, keyValid := true })
      _ (fun _ => rfl)
    simp only [bind_assoc] at this
    exact this
  | bld rd a =>
    exact conclude_withHost (s := s) (w := w) (l := l)
      (readOperand s a 16) (fun bs => s.setB rd (blockOfBytes bs)) _ fun _ => rfl
  | padxor rd rs1 a n =>
    have := conclude_withHost (s := s) (w := w) (l := l)
      (check (decide (n.toNat ≤ 15)) .contract shortOnly >>= fun _ => readOperand s a n.toNat)
      (fun x => s.setB rd (pad x ^^^ dbl (s.getB rs1))) _ (fun _ => rfl)
    simp only [bind_assoc] at this
    exact this
  | macz rd =>
    exact conclude_withHost (s := s) (w := w) (l := l)
      (needKey s) (fun _ => s.setB rd (macZero s.macKey)) _ fun _ => rfl
  | mac rd a n =>
    have := conclude_withHost (s := s) (w := w) (l := l)
      (needKey s >>= fun _ => needLen n >>= fun _ => readOperand s a n.toNat)
      (fun m => s.setB rd (Config.CMAC s.macKey m)) _ (fun _ => rfl)
    simp only [bind_assoc] at this
    exact this
  | fold rd rs1 a n =>
    have := conclude_withHost (s := s) (w := w) (l := l)
      (needKey s >>= fun _ => needLen n >>= fun _ => readOperand s a n.toNat)
      (fun m => s.setB rd (dbl (s.getB rs1) ^^^ Config.CMAC s.macKey m)) _ (fun _ => rfl)
    simp only [bind_assoc] at this
    exact this
  | macend rd rs1 a n =>
    have := conclude_withHost (s := s) (w := w) (l := l)
      (needKey s >>= fun _ => needLen n >>= fun _ => readOperand s a n.toNat)
      (fun x => s.setB rd (Config.CMAC s.macKey (terminal x (s.getB rs1)))) _ (fun _ => rfl)
    simp only [bind_assoc] at this
    exact this
  | s2v rd a n =>
    have := conclude_withHost (s := s) (w := w) (l := l)
      (readTable s a n >>= fun t => access s t.ranges >>= fun _ => .ok t)
      (fun t => s.setB rd (s2v s.macKey (t.frontFields s) (t.lastBytes s))) _ (fun _ => rfl)
    simp only [bind_assoc, bind_ok] at this
    simp only [exec, execS2v, readTable_withHost, frontFields_withHost]
    exact this
  | bst rs1 a =>
    have hp : bstPlan (s.withHost w l) rs1 a = bstPlan s rs1 a := rfl
    simp only [exec, execBst, hp]
    split
    · exact storeThen_withHost fun _ => rfl
    · exact stop_withHost s _
  | xorend rs1 a b n =>
    have hp : xorendPlan (s.withHost w l) rs1 a b n = xorendPlan s rs1 a b n := rfl
    simp only [exec, execXorend, hp]
    split
    · exact storeThen_withHost fun _ => rfl
    · exact stop_withHost s _
  | ctrxor rs1 a b n =>
    have hp : ctrxorPlan (s.withHost w l) rs1 a b n = ctrxorPlan s rs1 a b n := rfl
    simp only [exec, execCtrxor, hp]
    split
    · exact storeThen_withHost fun _ => rfl
    · exact stop_withHost s _
  | sealAead rd a b n =>
    simp only [exec, execSealAead, sealPlan_withHost]
    split
    · exact storeThen_withHost fun _ => rfl
    · exact stop_withHost s _
  | openAead rd a b n =>
    simp only [exec, execOpenAead, openPlan_withHost]
    split
    · exact storeThen_withHost fun _ => rfl
    · exact stop_withHost s _

theorem sequencerStep_withHost (s : State) (w : Word) (l : List Event) :
    sequencerStep (s.withHost w l) = Outcome.withHost w l (sequencerStep s) := by
  have hf : fetch (s.withHost w l) = fetch s := rfl
  unfold sequencerStep
  rw [hf]
  split
  · exact stop_withHost s _
  · split
    · rfl
    · exact exec_withHost _ s

theorem abandon_withHost (i : Instr) (s : State) (w : Word) (l : List Event) :
    abandon i (s.withHost w l) = (abandon i s).withHost w l := by
  have h : abandonedRange i (s.withHost w l) = abandonedRange i s := by
    cases i with
    | sealAead rd a b n => simp only [abandonedRange, readTable_withHost]
    | openAead rd a b n => simp only [abandonedRange, openPlan_withHost]
    | _ => rfl
  unfold abandon
  rw [h]
  rfl

theorem softReset_withHost (s : State) (w : Word) (l : List Event) :
    softReset (s.withHost w l) = (softReset s).withHost w l := by
  have hf : fetch (s.withHost w l) = fetch s := rfl
  have hb : (s.withHost w l).busy = s.busy := rfl
  unfold softReset
  rw [hf, hb]
  split
  · split
    · rfl
    · split
      · rfl
      · rw [abandon_withHost]; rfl
  · rfl

theorem mmioWrite_withHost (s : State) (w : Word) (l : List Event) (off : Nat) (v : Word) :
    mmioWrite (s.withHost w l) off v = (mmioWrite s off v).withHost w l := by
  have hb : (s.withHost w l).busy = s.busy := rfl
  unfold mmioWrite
  split
  · unfold writeCtrl
    rw [hb]
    split
    · exact softReset_withHost s w l
    · split <;> rfl
  · split
    · rfl
    · split
      · unfold writeCmdPtr
        rw [hb]
        split <;> rfl
      · rfl

theorem hostMemory_withHost {s t : State} {w w' : Word} {l : List Event} {a : Nat} :
    hostMemory (s.withHost w l) a (t.withHost w' l) = Outcome.withHost w' l (hostMemory s a t) := by
  have hp : (s.withHost w l).platform = s.platform := rfl
  unfold hostMemory
  rw [hp]
  split <;> rfl

theorem hostClean_withHost (s : State) (w : Word) (l : List Event) (a : Nat) :
    hostClean (s.withHost w l) a = (hostClean s a).withHost w l := by
  unfold hostClean
  by_cases h : (s.platform.coherent || !s.dirty.contains a) = true
  · rw [if_pos h]; exact if_pos h
  · rw [if_neg h]; exact if_neg h

theorem hostInvalidate_withHost (s : State) (w : Word) (l : List Event) (a : Nat) :
    hostInvalidate (s.withHost w l) a = (hostInvalidate s a).withHost w l := by
  unfold hostInvalidate
  by_cases h : s.platform.coherent = true
  · rw [if_pos h]; exact if_pos h
  · rw [if_neg h]; exact if_neg h

/-- An event of the host does the same whatever its last load returned and its loads see, and whatever comes after it, but
for the word it returns. -/
theorem hostStepWith_withHost (view view' : State → Nat → Byte) (e : Event) (s : State) (w : Word) (l : List Event) :
    ∃ w', hostStepWith view' e (s.withHost w l) = Outcome.withHost w' l (hostStepWith view e s) := by
  have hp : (s.withHost w l).platform = s.platform := rfl
  cases e with
  | seqTurn => exact ⟨w, rfl⟩
  | awaitIdle => exact ⟨w, rfl⟩
  | mmioRead addr width =>
    simp only [hostStepWith, hp]
    split
    · exact ⟨_, rfl⟩
    · exact ⟨w, rfl⟩
  | mmioWrite addr width v =>
    simp only [hostStepWith, hp]
    split
    · exact ⟨w, congrArg Host.Outcome.next (mmioWrite_withHost s w l _ v)⟩
    · exact ⟨w, rfl⟩
  | store a v => exact ⟨w, hostMemory_withHost (s := s) (w := w) (t := hostStore s a.toNat v)⟩
  | load a =>
    exact ⟨_, hostMemory_withHost (s := s) (w := w) (t := { s with hostData := (view s a.toNat).setWidth 32 })
      (w' := (view' (s.withHost w l) a.toNat).setWidth 32)⟩
  | clean a =>
    simp only [hostStepWith, hostClean_withHost]
    exact ⟨w, hostMemory_withHost⟩
  | invalidate a =>
    simp only [hostStepWith, hostInvalidate_withHost]
    exact ⟨w, hostMemory_withHost⟩

theorem sequencerTakes_withHost {s : State} {w : Word} {l : List Event} (h : l = [] ∨ s.agenda ≠ []) :
    sequencerTakes (s.withHost w l) = (sequencerTakes s).map (State.withHost · w l) := by
  have hb : (s.withHost w l).busy = s.busy := rfl
  have ha : (s.withHost w l).agenda = s.agenda ++ l := rfl
  unfold sequencerTakes
  rw [hb, ha]
  split
  · rcases hq : s.agenda with _ | ⟨e, rest⟩
    · obtain rfl : l = [] := h.resolve_right (fun h => h hq)
      rfl
    · cases e <;> rfl
  · rfl

/-- A turn does the same whatever the host's last load returned and its loads see, but for the word it returns; and where an
event is there to take, whatever comes after the events to come. -/
theorem turnWith_withHost (view view' : State → Nat → Byte) {takes : State → Option State} {s : State} {w : Word}
    {l : List Event} (ht : takes (s.withHost w l) = (takes s).map (State.withHost · w l)) (h : l = [] ∨ s.agenda ≠ []) :
    ∃ w', turnWith takes view' (s.withHost w l) = Outcome.withHost w' l (turnWith takes view s) := by
  have ha : (s.withHost w l).agenda = s.agenda ++ l := rfl
  unfold turnWith
  rw [ht, ha]
  cases takes s with
  | some u => exact ⟨w, sequencerStep_withHost u w l⟩
  | none =>
    rcases hq : s.agenda with _ | ⟨e, rest⟩
    · obtain rfl : l = [] := h.resolve_right (fun h => h hq)
      exact ⟨w, rfl⟩
    · exact hostStepWith_withHost view view' e ({ s with agenda := rest }.tick) w l

theorem mayMeet_withHost (s : State) (w : Word) (n : Nat) : mayMeet (s.withHost w []) n = mayMeet s n := by
  unfold mayMeet State.withHost
  rw [List.append_nil]

theorem meets_withHost (n : Nat) (s : State) (w : Word) : meets n (s.withHost w []) = meets n s := by
  induction n generalizing s w with
  | zero => rfl
  | succ n ih =>
    obtain ⟨w', hw⟩ := turnWith_withHost (fun _ _ => 0) (fun _ _ => 0) (sequencerTakes_withHost (w := w) (.inl rfl))
      (s := s) (.inl rfl)
    have hb : (s.withHost w []).busy = s.busy := rfl
    have ha : ∀ t : State, (t.withHost w' []).agenda.length = t.agenda.length :=
      fun t => congrArg List.length (List.append_nil t.agenda)
    have ha' : (s.withHost w []).agenda.length = s.agenda.length := congrArg List.length (List.append_nil s.agenda)
    simp only [meets, hw, hb, ha']
    cases turnWith sequencerTakes (fun _ _ => 0) s with
    | next t => simp only [Outcome.withHost, ih, ha]
    | fault f => exact congrArg (s.busy && ·) (mayMeet_withHost s w (n + 1))
    | refused r => exact congrArg (s.busy && ·) (mayMeet_withHost s w (n + 1))

theorem drawn_withHost (n : Nat) (s : State) (w : Word) : (s.withHost w []).drawn n = (s.drawn n).withHost w [] := by
  unfold State.drawn State.comingWrites State.withHost
  rw [List.append_nil]

theorem foreseen_withHost (n : Nat) (s : State) (w : Word) : foreseen n (s.withHost w []) = foreseen n s := by
  induction n with
  | zero => rfl
  | succ n ih =>
    simp only [foreseen, drawn_withHost, meets_withHost, ih]
    rfl

theorem sequencerTurn_withHost (s : State) (w : Word) :
    sequencerTurn (s.withHost w []) = (sequencerTurn s).map (State.withHost · w []) := by
  have ha : (s.withHost w []).agenda.length = s.agenda.length := congrArg List.length (List.append_nil s.agenda)
  simp only [sequencerTurn, sequencerTakes_withHost (.inl rfl), foreseen_withHost, ha, Option.map_map]
  rfl

/-! ### What a turn keeps -/

/-- `t` has the platform, the agenda, the races and the uncleaned bytes of `s`, and what the run has written in `s` is still
recorded. -/
structure SameRun (s t : State) : Prop where
  platform : t.platform = s.platform
  agenda : t.agenda = s.agenda
  raced : t.raced = s.raced
  dirty : t.dirty = s.dirty
  written : ∀ x ∈ s.written, x ∈ t.written

theorem SameRun.refl (s : State) : SameRun s s := ⟨rfl, rfl, rfl, rfl, fun _ h => h⟩

theorem SameRun.complete {s u t : State} (hs : SameRun s u) (h : complete u = .next t) : SameRun s t := by
  obtain ⟨h1, h2, h3, h4, h5⟩ := hs
  rcases complete_cases h with ⟨-, rfl⟩ | ⟨-, rfl⟩ <;> exact ⟨h1, h2, h3, h4, h5⟩

theorem sameRun_memWrite (s : State) (a : Nat) (bs : List Byte) : SameRun s (memWrite s a bs) :=
  ⟨rfl, rfl, rfl, rfl, fun x hx => (memWrite_marks s a bs x).1.2 (.inr hx)⟩

/-- A command keeps the host's part of the state, and what the run has written stays recorded. -/
theorem exec_sameRun {i : Instr} {s t : State} (h : exec i s = .next t) : SameRun s t := by
  rcases exec_cases h with ⟨rfl, rfl⟩ | ⟨u, hc, hu⟩ | ⟨c, info, rfl⟩ | ⟨dst, bs, after, -, -, ha, hst⟩
  · exact ⟨rfl, rfl, rfl, rfl, fun _ h => h⟩
  · refine SameRun.complete ?_ hu
    cases hc <;> exact ⟨rfl, rfl, rfl, rfl, fun _ h => h⟩
  · exact ⟨rfl, rfl, rfl, rfl, fun _ h => h⟩
  · obtain ⟨h1, h2, h3, h4, h5⟩ := sameRun_memWrite s dst bs
    rcases storeThen_cases hst with ⟨-, hc⟩ | ⟨x, -, -, rfl⟩
    · refine SameRun.complete ?_ hc
      rcases ha with ⟨rfl, -⟩ | ⟨rd, v, -, rfl⟩ <;> exact ⟨h1, h2, h3, h4, h5⟩
    · obtain ⟨h1, h2, h3, h4, h5⟩ := sameRun_memWrite s dst
        ((addresses dst bs.length).map (Config.freeByte s.draws .leftover))
      exact ⟨h1, h2, h3, h4, h5⟩

theorem sequencerStep_sameRun {s t : State} (h : sequencerStep s = .next t) : SameRun s t := by
  rcases sequencerStep_cases h with ⟨c, info, rfl⟩ | ⟨i, hi⟩
  · exact ⟨rfl, rfl, rfl, rfl, fun _ h => h⟩
  · exact exec_sameRun hi

theorem softReset_sameRun (s : State) : SameRun s (softReset s) ∧ (softReset s).busy = false := by
  rcases softReset_cases s with h | ⟨bs, i, r, -, -, -, h⟩ <;> rw [h]
  · exact ⟨⟨rfl, rfl, rfl, rfl, fun _ h => h⟩, rfl⟩
  · exact ⟨⟨rfl, rfl, rfl, rfl, (sameRun_memWrite s _ _).written⟩, rfl⟩

theorem mmioWrite_sameRun {s : State} (hb : s.busy = true) (off : Nat) (v : Word) : SameRun s (mmioWrite s off v) := by
  rcases mmioWrite_cases s off v with ⟨-, h⟩ | ⟨-, h⟩ | ⟨-, h⟩ | h <;> rw [h]
  · rcases writeCtrl_cases s v with ⟨-, h⟩ | ⟨-, -, h0, -⟩ | ⟨-, -, h⟩
    · rw [h]; exact (softReset_sameRun s).1
    · rw [hb] at h0; cases h0
    · rw [h]; exact ⟨rfl, rfl, rfl, rfl, fun _ h => h⟩
  · exact ⟨rfl, rfl, rfl, rfl, fun _ h => h⟩
  · unfold writeCmdPtr; rw [hb]; exact SameRun.refl s
  · exact SameRun.refl s

/-! ### The bytes that the host's events write -/

/-- The bytes that are not cleaned after an event, of those that were not before it. -/
def dirtyAfter (coherent : Bool) (dirty : List Nat) : Event → List Nat
  | .store a _ => if coherent then dirty else dirty.insert a.toNat
  | .clean a | .invalidate a =>
    if coherent || !dirty.contains a.toNat then dirty else dirty.filter (fun x => x != a.toNat)
  | .seqTurn | .awaitIdle | .mmioRead _ _ | .mmioWrite _ _ _ | .load _ => dirty

theorem hostWrites_cons (c : Bool) (d : List Nat) (e : Event) (es : List Event) :
    hostWrites c d (e :: es) = hostWrites c d [e] ++ hostWrites c (dirtyAfter c d e) es := by
  cases e <;> simp only [hostWrites, dirtyAfter, List.nil_append, List.singleton_append]
  all_goals split <;> simp

/-- Fewer of the events write no other bytes. -/
theorem hostWrites_take {c : Bool} {l : List Event} {m n : Nat} (h : m ≤ n) {d : List Nat} {x : Nat}
    (hx : x ∈ hostWrites c d (l.take m)) : x ∈ hostWrites c d (l.take n) := by
  induction l generalizing m n d with
  | nil => simpa using hx
  | cons e l ih =>
    cases m with
    | zero => cases hx
    | succ m =>
      obtain ⟨n, rfl⟩ : ∃ k, n = k + 1 := ⟨n - 1, by omega⟩
      rw [List.take_succ_cons, hostWrites_cons, List.mem_append] at hx ⊢
      exact hx.imp id (ih (by omega))

theorem hostWrites_of_take {c : Bool} {l : List Event} {n : Nat} {d : List Nat} {x : Nat}
    (hx : x ∈ hostWrites c d (l.take n)) : x ∈ hostWrites c d l := by
  have := hostWrites_take (Nat.le_add_right n l.length) hx
  rwa [List.take_of_length_le (Nat.le_add_left _ _)] at this

/-- A byte that events write is stored by one of them, or was not cleaned before them. -/
theorem mem_hostWrites {c : Bool} {l : List Event} {d : List Nat} {x : Nat} (hx : x ∈ hostWrites c d l) :
    (∃ a v, Event.store a v ∈ l ∧ a.toNat = x) ∨ (c = false ∧ x ∈ d) := by
  have one : ∀ {d : List Nat} {a : Nat} {l : List Nat}, x ∈ (if c || !d.contains a then l else a :: l) →
      x ∈ l ∨ (c = false ∧ x ∈ d) := by
    intro d a l h
    split at h
    · exact .inl h
    · next hc =>
      simp only [Bool.or_eq_true, Bool.not_eq_true', not_or, Bool.not_eq_true, Bool.not_eq_false,
        List.contains_iff_mem] at hc
      rcases List.mem_cons.1 h with rfl | h
      · exact .inr hc
      · exact .inl h
  induction l generalizing d with
  | nil => cases hx
  | cons e l ih =>
    rw [hostWrites_cons, List.mem_append] at hx
    have later : ∀ {q : Prop}, (∃ a v, Event.store a v ∈ l ∧ a.toNat = x) ∨ q →
        (∃ a v, Event.store a v ∈ e :: l ∧ a.toNat = x) ∨ q :=
      .imp_left fun ⟨a, v, hm, ha⟩ => ⟨a, v, List.mem_cons_of_mem _ hm, ha⟩
    rcases hx with hx | hx
    · cases e with
      | store a v =>
        simp only [hostWrites, List.mem_cons, List.not_mem_nil, or_false] at hx
        exact .inl ⟨a, v, List.mem_cons_self, hx.symm⟩
      | clean a => exact (one hx).elim (fun h => by cases h) .inr
      | invalidate a => exact (one hx).elim (fun h => by cases h) .inr
      | _ => cases hx
    · have kept : ∀ {d' : List Nat}, (∀ y ∈ d', y ∈ d) → x ∈ hostWrites c d' l →
          (∃ a v, Event.store a v ∈ l ∧ a.toNat = x) ∨ (c = false ∧ x ∈ d) :=
        fun hs h => (ih h).imp_right fun ⟨h1, h2⟩ => ⟨h1, hs x h2⟩
      cases e with
      | store a v =>
        rcases ih hx with h | ⟨hc, hm⟩
        · exact later (.inl h)
        · simp only [dirtyAfter, hc, if_neg Bool.false_ne_true, List.mem_insert_iff] at hm
          rcases hm with rfl | hm
          · exact .inl ⟨a, v, List.mem_cons_self, rfl⟩
          · exact .inr ⟨hc, hm⟩
      | clean a =>
        refine later (kept (fun y hy => ?_) hx)
        simp only [dirtyAfter] at hy
        split at hy
        · exact hy
        · exact (List.mem_filter.1 hy).1
      | invalidate a =>
        refine later (kept (fun y hy => ?_) hx)
        simp only [dirtyAfter] at hy
        split at hy
        · exact hy
        · exact (List.mem_filter.1 hy).1
      | _ => exact later (kept (fun _ h => h) hx)

/-- An event of the host during a run: no byte more is raced, or one that the event writes. -/
theorem hostStepWith_run {view : State → Nat → Byte} {e : Event} {s t : State} (hb : s.busy = true)
    (h : hostStepWith view e s = .next t) :
    t.platform = s.platform ∧ t.agenda = s.agenda ∧ (∀ x ∈ s.written, x ∈ t.written) ∧
    t.dirty = dirtyAfter s.platform.coherent s.dirty e ∧
    (t.raced = s.raced ∨ ∃ x ∈ hostWrites s.platform.coherent s.dirty [e], t.raced = s.raced.insert x) := by
  have same : ∀ {u : State}, SameRun s u → dirtyAfter s.platform.coherent s.dirty e = s.dirty →
      u.platform = s.platform ∧ u.agenda = s.agenda ∧ (∀ x ∈ s.written, x ∈ u.written) ∧
      u.dirty = dirtyAfter s.platform.coherent s.dirty e ∧
      (u.raced = s.raced ∨ ∃ x ∈ hostWrites s.platform.coherent s.dirty [e], u.raced = s.raced.insert x) :=
    fun hs hd => ⟨hs.platform, hs.agenda, hs.written, hs.dirty.trans hd.symm, .inl hs.raced⟩
  cases e with
  | seqTurn => injection h with h; exact h ▸ same (SameRun.refl s) rfl
  | awaitIdle => injection h with h; exact h ▸ same (SameRun.refl s) rfl
  | mmioRead addr width =>
    simp only [hostStepWith] at h
    split at h
    · injection h with h; exact h ▸ same ⟨rfl, rfl, rfl, rfl, fun _ h => h⟩ rfl
    · cases h
  | mmioWrite addr width v =>
    simp only [hostStepWith] at h
    split at h
    · injection h with h; exact h ▸ same (mmioWrite_sameRun hb _ v) rfl
    · cases h
  | store a v =>
    obtain ⟨-, rfl⟩ := hostMemory_eq_next.1 h
    refine ⟨rfl, rfl, fun _ h => h, rfl, .inr ⟨a.toNat, List.mem_cons_self, ?_⟩⟩
    simp only [hostStore, if_pos hb]
  | load a =>
    obtain ⟨-, rfl⟩ := hostMemory_eq_next.1 h
    exact same ⟨rfl, rfl, rfl, rfl, fun _ h => h⟩ rfl
  | clean a =>
    obtain ⟨-, rfl⟩ := hostMemory_eq_next.1 h
    unfold hostClean
    split
    · next hc => exact same (SameRun.refl s) (if_pos hc)
    · next hc =>
      refine ⟨rfl, rfl, fun _ h => h, (if_neg hc).symm, .inr ⟨a.toNat, ?_, ?_⟩⟩
      · simp only [hostWrites, if_neg hc, List.mem_cons, true_or]
      · rfl
  | invalidate a =>
    obtain ⟨-, rfl⟩ := hostMemory_eq_next.1 h
    unfold hostInvalidate
    split
    · next hc => exact same (SameRun.refl s) (if_pos (by rw [hc]; rfl))
    · next hc =>
      rw [Bool.not_eq_true] at hc
      cases hd : s.dirty.contains a.toNat with
      | true =>
        refine ⟨rfl, rfl, fun _ h => h, ?_, .inr ⟨a.toNat, ?_, ?_⟩⟩
        · simp [dirtyAfter, hc, List.contains_iff_mem.1 hd]
        · simp [hostWrites, hc, List.contains_iff_mem.1 hd]
        · simp [hb]
      | false =>
        have hm : a.toNat ∉ s.dirty := fun h => by rw [List.contains_iff_mem.2 h] at hd; cases hd
        refine ⟨rfl, rfl, fun _ h => h, ?_, .inl ?_⟩
        · simp only [dirtyAfter, hd, Bool.not_false, Bool.or_true, if_true]
          exact List.filter_eq_self.2 fun x hx => bne_iff_ne.2 fun h => hm (h ▸ hx)
        · simp

/-- No event comes before the sequencer's turns: there is none, or the host waits. -/
def alone (l : List Event) : Prop := l = [] ∨ ∃ es, l = .awaitIdle :: es

/-- A turn of a run: where the sequencer is alone it keeps the events to come and the races; else it consumes the first of
them, and no byte more is raced, or one that the event writes. -/
theorem takes_run {view : State → Nat → Byte} {s t : State} (hb : s.busy = true)
    (h : turnWith sequencerTakes view s = .next t) :
    t.platform = s.platform ∧ (∀ x ∈ s.written, x ∈ t.written) ∧
    (alone s.agenda ∧ t.agenda = s.agenda ∧ t.dirty = s.dirty ∧ t.raced = s.raced ∨
      ∃ e, e ≠ .awaitIdle ∧ s.agenda = e :: t.agenda ∧ t.dirty = dirtyAfter s.platform.coherent s.dirty e ∧
        (t.raced = s.raced ∨ ∃ x ∈ hostWrites s.platform.coherent s.dirty [e], t.raced = s.raced.insert x)) := by
  rcases turnWith_cases h with ⟨u, hu, hq⟩ | ⟨hn, ha, -⟩ | ⟨e, rest, ha, hn, he⟩
  · obtain ⟨e1, e2, e3, e4, e5⟩ := sequencerStep_sameRun hq
    rw [e1, e2, e3, e4]
    obtain ⟨-, ⟨h1, rfl⟩ | ⟨es, h1, rfl⟩ | ⟨es, h1, rfl⟩⟩ := sequencerTakes_eq_some.1 hu
    · exact ⟨rfl, e5, .inl ⟨.inl h1, rfl, rfl, rfl⟩⟩
    · exact ⟨rfl, e5, .inl ⟨.inr ⟨es, h1⟩, rfl, rfl, rfl⟩⟩
    · exact ⟨rfl, e5, .inr ⟨.seqTurn, nofun, h1, rfl, .inl rfl⟩⟩
  · rw [busy_of_takes_none hn ha] at hb; cases hb
  · obtain ⟨e1, e2, e3, e4, e5⟩ := hostStepWith_run (s := { s with agenda := rest }.tick) hb he
    refine ⟨e1, e3, .inr ⟨e, ?_, ha.trans (congrArg (e :: ·) e2.symm), e4, e5⟩⟩
    rintro rfl
    simp [sequencerTakes, hb, ha] at hn

/-! ### The events that the run meets -/

theorem comingWrites_succ {s t : State} {e : Event} {n : Nat} (hp : t.platform = s.platform) (ha : s.agenda = e :: t.agenda)
    (hd : t.dirty = dirtyAfter s.platform.coherent s.dirty e) :
    s.comingWrites (n + 1) = hostWrites s.platform.coherent s.dirty [e] ++ t.comingWrites n := by
  unfold State.comingWrites
  rw [ha, List.take_succ_cons, hostWrites_cons, hp, hd]

theorem comingWrites_mono {s : State} {m n : Nat} (h : m ≤ n) {x : Nat} (hx : x ∈ s.comingWrites m) :
    x ∈ s.comingWrites n := hostWrites_take h hx

theorem mem_drawn {s : State} {n x : Nat} : x ∈ (s.drawn n).raced ↔ x ∈ s.comingWrites n ∨ x ∈ s.raced :=
  List.mem_union_iff

@[simp] theorem drawn_zero (s : State) : s.drawn 0 = s := rfl

/-- Where the bytes are raced already, drawing them changes nothing. -/
theorem drawn_eq_self {s : State} {n : Nat} (h : ∀ x ∈ s.comingWrites n, x ∈ s.raced) : s.drawn n = s := by
  unfold State.drawn
  rw [show List.union (s.comingWrites n) s.raced = s.raced from List.Subset.union_eq_right h]

/-- A turn that takes an event leaves the rest to meet. -/
theorem meets_of_turn {s t : State} (hb : s.busy = true) (ht : turnWith sequencerTakes (fun _ _ => 0) s = .next t)
    (hl : t.agenda.length < s.agenda.length) (n : Nat) : meets (n + 1) s = meets n t := by
  simp only [meets, hb, ht, hl, decide_true, Bool.true_and]

/-- Where the turn stops the machine, the run may meet the events. -/
theorem meets_of_fault {s : State} {f : Fault} (hb : s.busy = true)
    (ht : turnWith sequencerTakes (fun _ _ => 0) s = .fault f) (n : Nat) : meets (n + 1) s = mayMeet s (n + 1) := by
  simp only [meets, hb, ht, Bool.true_and]

/-- The turn stops the machine: it gives no next state. -/
def Outcome.Stops (o : Outcome) : Prop := ∀ t, o ≠ .next t

/-- An event that a run meets: the run is on, the turn consumes the event, and the run meets the rest; or the machine
stops at the turn, and the run may meet the events. -/
theorem meets_succ {n : Nat} {s : State} (h : meets (n + 1) s = true) :
    s.busy = true ∧ ((∃ (t : State) (e : Event), turnWith sequencerTakes (fun _ _ => 0) s = .next t ∧ e ≠ .awaitIdle ∧
      t.platform = s.platform ∧ s.agenda = e :: t.agenda ∧ t.dirty = dirtyAfter s.platform.coherent s.dirty e ∧
      (t.raced = s.raced ∨ ∃ x ∈ hostWrites s.platform.coherent s.dirty [e], t.raced = s.raced.insert x) ∧
      meets n t = true) ∨
    (turnWith sequencerTakes (fun _ _ => 0) s).Stops ∧ mayMeet s (n + 1) = true) := by
  simp only [meets, Bool.and_eq_true] at h
  obtain ⟨hb, h⟩ := h
  refine ⟨hb, ?_⟩
  split at h
  · next t ht =>
    simp only [Bool.and_eq_true, decide_eq_true_eq] at h
    obtain ⟨hp, -, ⟨-, ha, -⟩ | ⟨e, he, ha, hd, hr⟩⟩ := takes_run hb ht
    · rw [ha] at h; exact absurd h.1 (Nat.lt_irrefl _)
    · exact .inl ⟨t, e, ht, he, hp, ha, hd, hr, h.2⟩
  · next hf => exact .inr ⟨by rw [hf]; exact nofun, h⟩
  · next hr => exact .inr ⟨by rw [hr]; exact nofun, h⟩

theorem mayMeet_le {n : Nat} {s : State} (h : mayMeet s n = true) : n ≤ s.agenda.length := by
  simp only [mayMeet, Bool.and_eq_true, decide_eq_true_eq] at h
  exact h.1

/-- No run takes an event from a wait of the host on. -/
theorem mayMeet_await {n : Nat} {s : State} {before after : List Event} (ha : s.agenda = before ++ .awaitIdle :: after)
    (h : mayMeet s n = true) : n ≤ before.length := by
  simp only [mayMeet, Bool.and_eq_true, List.all_eq_true, ha] at h
  refine Nat.le_of_not_lt fun hn => ?_
  have hm : Event.awaitIdle ∈ (before ++ .awaitIdle :: after).take n := by
    rw [List.take_append, List.mem_append]
    obtain ⟨k, hk⟩ : ∃ k, n - before.length = k + 1 := ⟨n - before.length - 1, by omega⟩
    exact .inr (by rw [hk]; exact List.mem_cons_self)
  exact absurd (h.2 _ hm) (by simp [Event.endsRun])

theorem meets_le {n : Nat} {s : State} (h : meets n s = true) : n ≤ s.agenda.length := by
  induction n generalizing s with
  | zero => exact Nat.zero_le _
  | succ n ih =>
    obtain ⟨-, ⟨t, e, -, -, -, ha, -, -, ht⟩ | ⟨-, hm⟩⟩ := meets_succ h
    · rw [ha]
      exact Nat.succ_le_succ (ih ht)
    · exact mayMeet_le hm

/-- A run meets no event from a wait of the host on. -/
theorem meets_await {n : Nat} {s : State} {before after : List Event} (ha : s.agenda = before ++ .awaitIdle :: after)
    (h : meets n s = true) : n ≤ before.length := by
  induction before generalizing n s with
  | nil =>
    cases n with
    | zero => exact Nat.le_refl _
    | succ n =>
      obtain ⟨-, ⟨t, e, -, he, -, hs, -⟩ | ⟨-, hm⟩⟩ := meets_succ h
      · rw [hs] at ha
        injection ha with h1
        exact absurd h1 he
      · exact mayMeet_await ha hm
  | cons b before ih =>
    cases n with
    | zero => exact Nat.zero_le _
    | succ n =>
      obtain ⟨-, ⟨t, e, -, -, -, hs, -, -, ht⟩ | ⟨-, hm⟩⟩ := meets_succ h
      · rw [hs] at ha
        injection ha with h1 h2
        exact Nat.succ_le_succ (ih h2 ht)
      · exact mayMeet_await ha hm

/-- What is foreseen: the bytes of as many events to come as the run meets when it draws them. -/
theorem foreseen_spec (n : Nat) (s : State) : ∃ m, foreseen n s = (s.drawn m).raced ∧ meets m (s.drawn m) = true ∧
    ∀ k ≤ n, meets k (s.drawn k) = true → k ≤ m := by
  induction n with
  | zero => exact ⟨0, rfl, rfl, fun k hk _ => hk⟩
  | succ n ih =>
    by_cases h : meets (n + 1) (s.drawn (n + 1)) = true
    · exact ⟨n + 1, by simp only [foreseen, if_pos h], h, fun k hk _ => hk⟩
    · obtain ⟨m, h1, h2, h3⟩ := ih
      refine ⟨m, by simp only [foreseen, if_neg h, h1], h2, fun k hk hm => ?_⟩
      rcases Nat.lt_or_eq_of_le hk with hk | rfl
      · exact h3 k (Nat.lt_succ_iff.1 hk) hm
      · exact absurd hm h

/-- The sequencer's turn is the one of the state that draws the longest run of events to come that it meets. -/
theorem sequencerTurn_spec {s u : State} (h : sequencerTurn s = some u) :
    ∃ m, u.raced = (s.drawn m).raced ∧ meets m (s.drawn m) = true ∧
      (∀ k, meets k (s.drawn k) = true → k ≤ m) ∧ sequencerTakes (s.drawn m) = some u := by
  obtain ⟨v, hv, rfl⟩ := sequencerTurn_eq_some.1 h
  obtain ⟨m, h1, h2, h3⟩ := foreseen_spec s.agenda.length s
  refine ⟨m, h1, h2, fun k hk => h3 k (meets_le (s := s.drawn k) hk) hk, ?_⟩
  rw [h1]
  obtain ⟨hb, hc⟩ := sequencerTakes_eq_some.1 hv
  refine sequencerTakes_eq_some.2 ⟨hb, ?_⟩
  rcases hc with ⟨h1, rfl⟩ | ⟨es, h1, rfl⟩ | ⟨es, h1, rfl⟩
  · exact .inl ⟨h1, rfl⟩
  · exact .inr (.inl ⟨es, h1, rfl⟩)
  · exact .inr (.inr ⟨es, h1, rfl⟩)

/-- A step is the turn of the state that draws what it foresees. -/
theorem step_drawn (s : State) : ∃ m, step s = turnWith sequencerTakes hostByte (s.drawn m) := by
  cases hq : sequencerTurn s with
  | none => exact ⟨0, by rw [drawn_zero]; simp only [step, turn, turnWith, hq, sequencerTurn_eq_none.1 hq]⟩
  | some u =>
    obtain ⟨m, -, -, -, h4⟩ := sequencerTurn_spec hq
    exact ⟨m, by simp only [step, turn, turnWith, hq, h4]⟩

/-- Where the events to come write nothing that is not raced already, the sequencer takes its turn as it is. -/
theorem sequencerTurn_of_met {s : State}
    (h : ∀ m, meets m (s.drawn m) = true → ∀ x ∈ s.comingWrites m, x ∈ s.raced) : sequencerTurn s = sequencerTakes s := by
  obtain ⟨m, h1, h2, -⟩ := foreseen_spec s.agenda.length s
  unfold sequencerTurn
  rw [h1, drawn_eq_self (h m h2)]
  cases hs : sequencerTakes s with
  | none => rfl
  | some u =>
    obtain ⟨-, es, rfl⟩ := sequencerTakes_frame hs
    rfl

/-- An idle sequencer takes no turn. -/
theorem sequencerTurn_idle {s : State} (h : s.busy = false) : sequencerTurn s = none :=
  sequencerTurn_eq_none.2 (by simp [sequencerTakes, h])

/-- Where no event comes first there is nothing to foresee. -/
theorem sequencerTurn_alone {s : State} (hb : s.busy = true) (h : alone s.agenda) : sequencerTurn s = some s.tick := by
  rw [sequencerTurn_of_met]
  · exact sequencerTakes_eq_some.2 ⟨hb, h.imp (⟨·, rfl⟩) fun h => .inl (h.imp fun _ h => ⟨h, rfl⟩)⟩
  · intro m hm x hx
    have h0 : m = 0 := by
      rcases h with h | ⟨es, h⟩
      · have := meets_le hm
        rw [show (s.drawn m).agenda = [] from h] at this
        exact Nat.le_zero.1 this
      · exact Nat.le_zero.1 (meets_await (before := []) (s := s.drawn m) h hm)
    rw [h0] at hx
    cases hx

/-! ### A run meets what is foreseen -/

/-- The first turn of a run of some turns. -/
theorem runWithin_succ {k : Nat} {s t : State} (h : runWithin (k + 1) s = some t) :
    s.busy = true ∧ ∃ v, step s = .next v ∧ runWithin k v = some t := by
  simp only [runWithin] at h
  split at h
  · next hb =>
    refine ⟨hb, ?_⟩
    split at h
    · next v hv => exact ⟨v, hv, h⟩
    · cases h
    · cases h
  · cases h

theorem runWithin_step {k : Nat} {s v : State} (hb : s.busy = true) (h : step s = .next v) :
    runWithin (k + 1) s = runWithin k v := by
  simp only [runWithin, if_pos hb, h]

/-- A step of a run keeps the events to come, or takes the first of them. -/
theorem step_agenda {s t : State} (hb : s.busy = true) (h : step s = .next t) :
    t.agenda = s.agenda ∨ ∃ e, s.agenda = e :: t.agenda := by
  obtain ⟨m, hs⟩ := step_drawn s
  rw [hs] at h
  obtain ⟨-, -, ⟨-, ha, -⟩ | ⟨e, -, ha, -⟩⟩ := takes_run (s := s.drawn m) hb h
  · exact .inl ha
  · exact .inr ⟨e, ha⟩

/-- A run takes the events to come one after the other. -/
theorem run_agenda {k : Nat} {s t : State} (h : runWithin k s = some t) : ∃ taken, s.agenda = taken ++ t.agenda := by
  induction k generalizing s with
  | zero => injection h with h; exact ⟨[], congrArg State.agenda h⟩
  | succ k ih =>
    obtain ⟨hb, v, hv, h⟩ := runWithin_succ h
    obtain ⟨taken, ht⟩ := ih h
    rcases step_agenda hb hv with ha | ⟨e, ha⟩
    · exact ⟨taken, ha ▸ ht⟩
    · exact ⟨e :: taken, by rw [ha, ht]; rfl⟩

/-- A store writes its byte. -/
theorem hostWrites_of_store {c : Bool} {d : List Nat} {a : Word} {v : Byte} {l : List Event} (h : Event.store a v ∈ l) :
    a.toNat ∈ hostWrites c d l := by
  induction l generalizing d with
  | nil => cases h
  | cons e l ih =>
    rw [hostWrites_cons, List.mem_append]
    rcases List.mem_cons.1 h with rfl | h
    · exact .inl List.mem_cons_self
    · exact .inr (ih h)

/-- The run from `s` comes to an event of the host that writes the byte, while BUSY = 1. -/
def State.MeetsWrite (s : State) (x : Nat) : Prop :=
  ∃ (k : Nat) (t : State) (e : Event) (es : List Event), runWithin k s = some t ∧ t.busy = true ∧ t.agenda = e :: es ∧
    x ∈ hostWrites t.platform.coherent t.dirty [e]

/-- The run from `s` comes to a turn, while BUSY = 1, that stops the machine. -/
def State.RunStops (s : State) : Prop :=
  ∃ (k : Nat) (t : State), runWithin k s = some t ∧ t.busy = true ∧ ∀ v, step t ≠ .next v

theorem State.RunStops.step {s v : State} (hb : s.busy = true) (hs : step s = .next v) (h : v.RunStops) :
    s.RunStops := by
  obtain ⟨k, t, h1, h2⟩ := h
  exact ⟨k + 1, t, (runWithin_step hb hs).trans h1, h2⟩

theorem State.MeetsWrite.step {s v : State} {x : Nat} (hb : s.busy = true) (hs : step s = .next v) (h : v.MeetsWrite x) :
    s.MeetsWrite x := by
  obtain ⟨k, t, e, es, h1, h2⟩ := h
  exact ⟨k + 1, t, e, es, (runWithin_step hb hs).trans h1, h2⟩

/-- The turn that `meets` tells, with the loads of the host seeing memory. -/
theorem turn_of_blind {s t : State} (h : turnWith sequencerTakes (fun _ _ => 0) s = .next t) :
    ∃ w, turnWith sequencerTakes hostByte s = .next (t.withHost w []) := by
  obtain ⟨w, hw⟩ := turnWith_withHost (fun _ _ => 0) hostByte (s := s) (w := s.hostData)
    (sequencerTakes_withHost (.inl rfl)) (.inl rfl)
  have hs : s.withHost s.hostData [] = s := by
    show { s with agenda := s.agenda ++ [] } = s
    rw [List.append_nil]
  rw [hs, h] at hw
  exact ⟨w, hw⟩

/-- A stop that `meets` tells is one of the turn. -/
theorem stops_of_blind {s : State} (h : (turnWith sequencerTakes (fun _ _ => 0) s).Stops) :
    (turnWith sequencerTakes hostByte s).Stops := by
  intro t ht
  obtain ⟨w, hw⟩ := turnWith_withHost hostByte (fun _ _ => 0) (s := s) (w := s.hostData)
    (sequencerTakes_withHost (.inl rfl)) (.inl rfl)
  have hs : s.withHost s.hostData [] = s := by
    show { s with agenda := s.agenda ++ [] } = s
    rw [List.append_nil]
  rw [hs, ht] at hw
  exact h _ hw

/-- One turn of a run that draws the bytes of the `n + 1` events it meets: it meets the first of them, and draws those of
the others; or the turn stops the machine. -/
theorem drawn_turn {n : Nat} {s : State} (hd : s.drawn (n + 1) = s) (hm : meets (n + 1) s = true) :
    s.busy = true ∧ ((∃ (t : State) (e : Event), turnWith sequencerTakes hostByte s = .next t ∧ t.platform = s.platform ∧
      s.agenda = e :: t.agenda ∧ t.dirty = dirtyAfter s.platform.coherent s.dirty e ∧
      t.raced = s.raced ∧ t.drawn n = t ∧ meets n t = true) ∨ (turnWith sequencerTakes hostByte s).Stops) := by
  obtain ⟨hb, ⟨t, e, ht, -, hp, ha, hdi, hr, hmt⟩ | ⟨hs, -⟩⟩ := meets_succ hm
  case inr => exact ⟨hb, .inr (stops_of_blind hs)⟩
  obtain ⟨w, hw⟩ := turn_of_blind ht
  have ha' : (t.withHost w []).agenda = t.agenda := List.append_nil t.agenda
  have hc := comingWrites_succ (s := s) (t := t.withHost w []) (n := n) hp (by rw [ha', ha]) hdi
  have hin : ∀ x ∈ s.comingWrites (n + 1), x ∈ s.raced := fun x hx => hd ▸ mem_drawn.2 (.inl hx)
  have hraced : t.raced = s.raced := by
    rcases hr with hr | ⟨x, hx, hr⟩
    · exact hr
    · rw [hr, List.insert_of_mem (hin x (by rw [hc]; exact List.mem_append_left _ hx))]
  refine ⟨hb, .inl ⟨_, e, hw, hp, by rw [ha', ha], hdi, hraced, drawn_eq_self fun x hx => ?_,
    by rw [meets_withHost]; exact hmt⟩⟩
  show x ∈ t.raced
  rw [hraced]
  exact hin x (by rw [hc]; exact List.mem_append_right _ hx)

/-- Where a run that draws the bytes of its events to come meets these, the run from here meets them, whatever more the
sequencer foresees in its turns: it comes, while BUSY = 1, to every write of theirs, or to a turn that stops the
machine. -/
theorem meetsWrite_of_drawn {l n : Nat} {s : State} {x : Nat} (hl : s.agenda.length ≤ l)
    (hd : sequencerTurn s = none → s.drawn n = s) (hm : meets n (s.drawn n) = true) (hx : x ∈ s.comingWrites n) :
    s.MeetsWrite x ∨ s.RunStops := by
  induction l generalizing n s with
  | zero =>
    obtain rfl : n = 0 := by have := meets_le (s := s.drawn n) hm; have : n ≤ s.agenda.length := this; omega
    cases hx
  | succ l ih =>
    obtain ⟨m, hnm, hm, hst⟩ : ∃ m, n ≤ m ∧ meets m (s.drawn m) = true ∧
        step s = turnWith sequencerTakes hostByte (s.drawn m) := by
      cases hq : sequencerTurn s with
      | none =>
        refine ⟨n, Nat.le_refl _, hm, ?_⟩
        rw [hd hq]
        simp only [step, turn, turnWith, hq, sequencerTurn_eq_none.1 hq]
      | some u =>
        obtain ⟨m, -, h2, h3, h4⟩ := sequencerTurn_spec hq
        refine ⟨m, h3 n hm, h2, ?_⟩
        simp only [step, turn, turnWith, hq, h4]
    have hx := comingWrites_mono hnm hx
    obtain ⟨m, rfl⟩ : ∃ k, m = k + 1 := by
      cases m with
      | zero => cases hx
      | succ m => exact ⟨m, rfl⟩
    obtain ⟨hb, hturn⟩ := drawn_turn (s := s.drawn (m + 1)) (drawn_eq_self fun y hy => mem_drawn.2 (.inl hy)) hm
    have hb : s.busy = true := hb
    obtain ⟨t, e, ht, hp, ha, hdi, -, hdt, hmt⟩ | hs := hturn
    case inr => exact .inr ⟨0, s, rfl, hb, hst ▸ hs⟩
    have hp : t.platform = s.platform := hp
    have ha : s.agenda = e :: t.agenda := ha
    have hdi : t.dirty = dirtyAfter s.platform.coherent s.dirty e := hdi
    rw [comingWrites_succ hp ha hdi, List.mem_append] at hx
    rcases hx with hx | hx
    · exact .inl ⟨0, s, e, t.agenda, rfl, hb, ha, hx⟩
    · have hlt : t.agenda.length ≤ l := by rw [ha] at hl; simpa using hl
      exact (ih hlt (fun _ => hdt) (hdt.symm ▸ hmt) hx).imp (State.MeetsWrite.step hb (hst.trans ht))
        (State.RunStops.step hb (hst.trans ht))

/-- What a turn of the sequencer foresees, and was not raced before, the run meets: it comes, while BUSY = 1, to an event of
the host that writes the byte, or to a turn that stops the machine. -/
theorem meetsWrite_of_foreseen {s u : State} {x : Nat} (h : sequencerTurn s = some u) (hx : x ∈ u.raced)
    (hn : x ∉ s.raced) : s.MeetsWrite x ∨ s.RunStops := by
  obtain ⟨m, h1, h2, -, -⟩ := sequencerTurn_spec h
  rw [h1] at hx
  exact meetsWrite_of_drawn (Nat.le_refl _) (by simp [h]) h2 ((mem_drawn.1 hx).resolve_right hn)

/-- Everything that the events write, where the run meets them when it draws their bytes, is foreseen. -/
theorem foreseen_of_meets {s u : State} {n x : Nat} (h : sequencerTurn s = some u) (hm : meets n (s.drawn n) = true)
    (hx : x ∈ s.comingWrites n) : x ∈ u.raced := by
  obtain ⟨m, h1, -, h3, -⟩ := sequencerTurn_spec h
  rw [h1]
  exact mem_drawn.2 (.inl (comingWrites_mono (h3 n hm) hx))

end Sys2Proof.Machine
end

