-- ==== Sys2Proof/Tests/Slice0.lean ====
section
/-! SUPPORT. Tests with expected results from spec/95_test_vectors.md and the examples of the rules (each names its vector),
and a witness for every obligation that has hypotheses. -/

namespace Sys2Proof.Tests

open Sys2Proof Sys2Proof.Machine

/-! ### Helpers -/

/-- The outcome is a next state with a property. -/
def nextIs (o : Outcome) (p : State → Bool) : Bool :=
  match o with
  | .next t => p t
  | _ => false

/-- The outcome is a next state that recorded this fault. -/
def faults (o : Outcome) (code : Byte) (info : Word) : Bool :=
  nextIs o (fun t => t.err && !t.busy && !t.done && t.errcode == code && t.errInfo == info)

/-- A state with bytes put into memory. -/
def put (s : State) (a : Nat) (bs : List Byte) : State := { s with mem := s.mem.writeBytes a bs }

/-- The bytes of memory at an address. -/
def bytesAt (s : State) (a n : Nat) : List Byte := (addresses a n).map s.mem.read

/-- A state whose next event is one of the host. -/
def withEvent (s : State) (e : Event) : State := { s with agenda := [e] }

/-- The reset state, in a run. -/
def running : State := { State.reset with busy := true }

/-- The reset state on a platform that is not coherent. -/
def cached : State := { State.reset with platform := { State.reset.platform with coherent := false } }

/-- In a run, with the 32-byte key of spec/95_test_vectors.md section 1.2 A.1 (KA1). -/
def keyed : State := { running with
  macKey := blockBytes 0xfffefdfcfbfaf9f8f7f6f5f4f3f2f1f0, encKey := blockBytes 0xf0f1f2f3f4f5f6f7f8f9fafbfcfdfeff
  klen := 16, keyValid := true }

/-- The bytes `00 01 ..`. -/
def counting (n : Nat) : List Byte := (List.range n).map (BitVec.ofNat 8)

/-- The plaintext of A.1, 14 bytes. -/
def ptA1 : List Byte := [0x11, 0x22, 0x33, 0x44, 0x55, 0x66, 0x77, 0x88, 0x99, 0xaa, 0xbb, 0xcc, 0xdd, 0xee]

/-- Memory answers below 0x8000 only (vector Q7). -/
def lowMemory : State := { running with platform := { running.platform with regions := [⟨0, 0x8000, .plain⟩] } }

/-- The descriptor table of program P2 at 0x3300, with a key. -/
def tableP2 : State := put keyed 0x3300
  [0x00, 0x31, 0, 0, 0x18, 0, 0, 0, 0, 0, 0, 0, 0, 0, 0, 0x80, 0x00, 0x32, 0, 0, 0x0e, 0, 0, 0]

/-! ### WellFormed: an ill-formed command for each check, refused (spec/30_encoding.md R103) -/

theorem test_wf_refuses_rd :
    Instr.wf (.bld 8 0) = false ∧ Instr.wf (.bzero 8) = false ∧ Instr.wf (.bmov 8 0) = false ∧
    Instr.wf (.bxor 8 0 0) = false ∧ Instr.wf (.dbl 15 0) = false ∧ Instr.wf (.ctrmask 8 0) = false ∧
    Instr.wf (.padxor 8 0 0 0) = false ∧ Instr.wf (.macz 8) = false ∧ Instr.wf (.mac 8 0 0) = false ∧
    Instr.wf (.fold 8 0 0 0) = false ∧ Instr.wf (.macend 8 0 0 0) = false ∧ Instr.wf (.s2v 8 0 0) = false ∧
    Instr.wf (.sealAead 8 0 0 0) = false ∧ Instr.wf (.openAead 8 0 0 0) = false := by decide

theorem test_wf_refuses_rs1 :
    Instr.wf (.bst 8 0) = false ∧ Instr.wf (.bmov 0 8) = false ∧ Instr.wf (.bxor 0 8 0) = false ∧
    Instr.wf (.cteq 8 0) = false ∧ Instr.wf (.dbl 0 15) = false ∧ Instr.wf (.ctrmask 0 8) = false ∧
    Instr.wf (.padxor 0 8 0 0) = false ∧ Instr.wf (.xorend 8 0 0 0) = false ∧ Instr.wf (.fold 0 8 0 0) = false ∧
    Instr.wf (.macend 0 8 0 0) = false ∧ Instr.wf (.ctrxor 8 0 0 0) = false := by decide

theorem test_wf_refuses_rs2 : Instr.wf (.bxor 0 0 8) = false ∧ Instr.wf (.cteq 0 8) = false := by decide

theorem test_wf_accepts_7 : Instr.wf (.bxor 7 7 7) = true ∧ Instr.wf (.openAead 7 1 0xFFFFFFFF 0) = true := by decide

/-! ### Decoding: words written out from R101, R105 and section 3 of the vectors -/

theorem test_decode_halt : decodeWords 0x00000000 1 2 3 = .ok .halt := rfl -- E1; the operand words are ignored (R104)
theorem test_decode_nop : decodeWords 0x00000001 0 0 0 = .ok .nop := rfl -- E2
theorem test_decode_keyld : decodeWords 0x00000002 0x3000 9 32 = .ok (.keyld 0x3000 32) := rfl -- P2
theorem test_decode_keyclr : decodeWords 0x00000003 0 0 0 = .ok .keyclr := rfl -- P4
theorem test_decode_bld : decodeWords 0x00000204 0x2000 0 0 = .ok (.bld 2 0x2000) := rfl -- P5
theorem test_decode_bst : decodeWords 0x00003005 0x2100 0 0 = .ok (.bst 3 0x2100) := rfl -- P1
theorem test_decode_bzero : decodeWords 0x00000506 0 0 0 = .ok (.bzero 5) := rfl
theorem test_decode_bmov : decodeWords 0x00004307 0 0 0 = .ok (.bmov 3 4) := rfl
theorem test_decode_bxor : decodeWords 0x00020308 0 0 0 = .ok (.bxor 3 0 2) := rfl -- E11
theorem test_decode_cteq : decodeWords 0x00001009 0 0 0 = .ok (.cteq 1 0) := rfl -- E10
theorem test_decode_dbl : decodeWords 0x00000110 0 0 0 = .ok (.dbl 1 0) := rfl -- P1
theorem test_decode_ctrmask : decodeWords 0x00001311 0 0 0 = .ok (.ctrmask 3 1) := rfl -- P2
theorem test_decode_padxor : decodeWords 0x00002112 0x3200 0 14 = .ok (.padxor 1 2 0x3200 14) := rfl
theorem test_decode_xorend : decodeWords 0x00006013 0x10 0x20 17 = .ok (.xorend 6 0x10 0x20 17) := rfl
theorem test_decode_macz : decodeWords 0x00000720 0 0 0 = .ok (.macz 7) := rfl
theorem test_decode_mac : decodeWords 0x00000121 0x3200 0 14 = .ok (.mac 1 0x3200 14) := rfl
theorem test_decode_fold : decodeWords 0x00000022 0x3100 0 24 = .ok (.fold 0 0 0x3100 24) := rfl -- P2
theorem test_decode_macend : decodeWords 0x00000123 0x3200 0 14 = .ok (.macend 1 0 0x3200 14) := rfl -- P2
theorem test_decode_ctrxor : decodeWords 0x00003024 0x3200 0x3400 14 = .ok (.ctrxor 3 0x3200 0x3400 14) := rfl -- P2
theorem test_decode_s2v : decodeWords 0x00000230 0x3300 0 3 = .ok (.s2v 2 0x3300 3) := rfl -- P2
theorem test_decode_seal : decodeWords 0x00000031 0x4300 0x5000 4 = .ok (.sealAead 0 0x4300 0x5000 4) := rfl -- P3
theorem test_decode_open : decodeWords 0x00000132 0x4340 0x6000 4 = .ok (.openAead 1 0x4340 0x6000 4) := rfl -- P3

/-- The bytes of a command in memory order (P2), with a byte after them. -/
theorem test_decode_bytes :
    decode [0x23, 0x01, 0, 0, 0, 0x32, 0, 0, 0, 0, 0, 0, 0x0e, 0, 0, 0, 0xee] = .ok (.macend 1 0 0x3200 14, [0xee]) :=
  rfl

/-- The expansions of R111: a descriptor table and an in-place command, laid out after `.org`. -/
theorem test_lay_out : layOut 0 [.org 0x3300, .desc 0x3100 24, .absent, .org 0x1000, .dblInPlace 1, .command .halt] =
    [(0x3300, [0x00, 0x31, 0, 0, 24, 0, 0, 0]), (0x3308, [0, 0, 0, 0, 0, 0, 0, 0x80]),
     (0x1000, [0x10, 0x11, 0, 0, 0, 0, 0, 0, 0, 0, 0, 0, 0, 0, 0, 0]),
     (0x1010, [0, 0, 0, 0, 0, 0, 0, 0, 0, 0, 0, 0, 0, 0, 0, 0])] := by decide

theorem test_decode_truncated : decode (counting 15) = .error .truncated := rfl

/-- The illegal words E3 to E9 and E12. -/
theorem test_decode_illegal :
    [0x00000101, 0x0000000A, 0x00100000, 0x00001004, 0x00000808, 0x00080000, 0x00003000, 0x000000FF].all
      (fun cw => match decodeWords cw 0 0 0 with | .ok _ => false | .error _ => true) = true := by decide

/-- Every reserved opcode of R107 is refused. -/
theorem test_decode_reserved :
    ((List.range' 0x0A 6) ++ (List.range' 0x14 12) ++ (List.range' 0x25 11) ++ (List.range' 0x33 0xCD)).all
      (fun c => (Op.ofCode (BitVec.ofNat 8 c)).isNone) = true := by decide +kernel

/-- One match for one word: no two rows share an opcode. -/
theorem test_opcodes_distinct : (opTable.map Op.code).Nodup := by decide

theorem test_decode_table_word :
    decodeTableWord 128 0x00000000000000000000210000003005 = some (.bst 3 0x2100) ∧ decodeTableWord 32 0x101 = none := by
  decide

/-! ### Sequencer and data movement (section 2.6, programs P1 and P2) -/

/-- Q1: 16 zero bytes are a HALT; STATUS = `0x00000002`. -/
theorem test_halt : nextIs (step { running with pc := 0x1000 }) (fun t => t.statusWord == 2 && t.pc == 0x1000) = true := by
  decide

/-- Q2. -/
theorem test_nop : nextIs (step (running.withFetchWord 32 1)) (fun t => t.pc == 16 && t.busy) = true := by decide

/-- Q3: STATUS = `0x00000B04`. -/
theorem test_pc_overflow : nextIs (step ({ running with pc := 0xFFFFFFF0 }.withFetchWord 32 1))
    (fun t => t.statusWord == 0xB04 && t.errPc == 0xFFFFFFF0 && t.errInfo == 0xFFFFFFF0 && t.pc == 0xFFFFFFF0) = true := by
  decide

/-- Q4. -/
theorem test_halt_at_top : nextIs (step { running with pc := 0xFFFFFFF0 }) (fun t => t.done && !t.err) = true := by decide

/-- The first command of P1. -/
theorem test_bld : nextIs (step ((put running 0x2000 (blockBytes 0x85632d07c6e8f37f950acd320a2ecc93)).withFetchWord 128
    0x00000000000000000000200000000004)) (fun t => t.getB 0 == 0x85632d07c6e8f37f950acd320a2ecc93) = true := by decide

/-- Q5 and Q6: the last legal range, and the first that is not. -/
theorem test_bld_range :
    nextIs (exec (.bld 0 0xFFFFFFF0) (put running 0xFFFFFFF0 (counting 16)))
      (fun t => t.getB 0 == 0x000102030405060708090a0b0c0d0e0f) = true ∧
    faults (exec (.bld 0 0xFFFFFFF1) running) 0x07 0xFFFFFFF1 = true := by decide

/-- Q8. -/
theorem test_bst : nextIs (exec (.bst 3 0x2100) (running.setB 3 0x000102030405060708090a0b0c0d0e0f))
    (fun t => bytesAt t 0x20FF 18 == 0 :: (counting 16 ++ [0])) = true := by decide

/-- Q9. -/
theorem test_bzero : nextIs (exec (.bzero 5) (running.setB 5 7)) (fun t => t.getB 5 == 0) = true := by decide

/-- The example of R265. -/
theorem test_bmov : nextIs (exec (.bmov 7 0) (running.setB 0 0x85632d07c6e8f37f950acd320a2ecc93))
    (fun t => t.getB 7 == 0x85632d07c6e8f37f950acd320a2ecc93) = true := by decide

/-- The example of R266. -/
theorem test_bxor : nextIs (exec (.bxor 3 1 2)
    ((running.setB 1 0x1c09bf5f83df7e080280b050b37e0e74).setB 2 0xf1f922b7f5193ce64ff80cb47d93f23b))
    (fun t => t.getB 3 == 0xedf09de876c642ee4d78bce4ceedfc4f) = true := by decide

/-! ### Doubling and counter mask (sections 2.1 and 2.4) -/

/-- DB1 to DB10. -/
theorem test_dbl_values :
    dbl 0 = 0 ∧ dbl 0x80000000000000000000000000000000 = 0x87 ∧ dbl 1 = 2 ∧
    dbl 0x40000000000000000000000000000000 = 0x80000000000000000000000000000000 ∧
    dbl 0xffffffffffffffffffffffffffffffff = 0xffffffffffffffffffffffffffffff79 ∧
    dbl 0x7fffffffffffffffffffffffffffffff = 0xfffffffffffffffffffffffffffffffe ∧
    dbl 0x01010101010101010101010101010101 = 0x02020202020202020202020202020202 ∧
    dbl 0x85632d07c6e8f37f950acd320a2ecc93 = 0x0ac65a0f8dd1e6ff2a159a64145d99a1 ∧
    dbl 0x0e04dfafc1efbf040140582859bf073a = 0x1c09bf5f83df7e080280b050b37e0e74 ∧
    dbl 0xedf09de876c642ee4d78bce4ceedfc4f = 0xdbe13bd0ed8c85dc9af179c99ddbf819 := by decide

/-- DB11: in place. -/
theorem test_dbl : nextIs (step ((running.setB 3 0x80000000000000000000000000000000).withFetchWord 32 0x3310))
    (fun t => t.getB 3 == 0x87) = true := by decide

/-- CM1 to CM5. -/
theorem test_ctr_values :
    ctr 0xffffffffffffffffffffffffffffffff = 0xffffffffffffffff7fffffff7fffffff ∧ ctr 0 = 0 ∧
    ctr 0x00000000000000008000000080000000 = 0 ∧
    ctr 0x85632d07c6e8f37f950acd320a2ecc93 = 0x85632d07c6e8f37f150acd320a2ecc93 ∧
    ctr 0x7bdb6e3b432667eb06f4d14bff2fbd0f = 0x7bdb6e3b432667eb06f4d14b7f2fbd0f := by decide

/-- The third command of P1. -/
theorem test_ctrmask : nextIs (step ((running.setB 0 0x85632d07c6e8f37f950acd320a2ecc93).withFetchWord 32 0x211))
    (fun t => t.getB 2 == 0x85632d07c6e8f37f150acd320a2ecc93) = true := by decide

/-! ### Terminal combiner (section 2.2) -/

/-- T1 to T3. -/
theorem test_pad_values :
    pad [] = 0x80000000000000000000000000000000 ∧
    pad ((counting 16).drop 1) = 0x0102030405060708090a0b0c0d0e0f80 ∧
    pad ptA1 = 0x112233445566778899aabbccddee8000 := by decide

/-- S1, T4, T5. -/
theorem test_xorend_values :
    xorend [0xf0, 0xaa, 0x00] [0xf0, 0x0f] = [0xf0, 0x5a, 0x0f] ∧
    xorend (counting 16) (List.replicate 16 0xff) = blockBytes 0xfffefdfcfbfaf9f8f7f6f5f4f3f2f1f0 ∧
    xorend (counting 17) (List.replicate 16 0xff) = 0x00 :: blockBytes 0xfefdfcfbfaf9f8f7f6f5f4f3f2f1f0ef := by decide

/-- T6, and the short arm of A.1. -/
theorem test_terminal_values :
    terminal [] 0x0e04dfafc1efbf040140582859bf073a = blockBytes 0x9c09bf5f83df7e080280b050b37e0e74 ∧
    terminal ptA1 0xedf09de876c642ee4d78bce4ceedfc4f = blockBytes 0xcac30894b8eaf254035bc20540357819 := by decide

/-- T7. -/
theorem test_padxor : nextIs (exec (.padxor 1 0 0x3200 14)
    (put (running.setB 0 0xedf09de876c642ee4d78bce4ceedfc4f) 0x3200 ptA1))
    (fun t => t.getB 1 == 0xcac30894b8eaf254035bc20540357819) = true := by decide

/-- T8: the empty range is not checked; T9. -/
theorem test_padxor_edges :
    nextIs (exec (.padxor 1 0 0xFFFFFFFF 0) (lowMemory.setB 0 0x0e04dfafc1efbf040140582859bf073a))
      (fun t => t.getB 1 == 0x9c09bf5f83df7e080280b050b37e0e74) = true ∧
    faults (exec (.padxor 1 0 0x3200 16) running) 0x04 5 = true := by decide

/-- T10 and T11. -/
theorem test_xorend :
    nextIs (exec (.xorend 0 0x2000 0x2100 17)
        (put (running.setB 0 0xffffffffffffffffffffffffffffffff) 0x2000 (counting 17)))
      (fun t => bytesAt t 0x2100 18 == 0x00 :: (blockBytes 0xfefdfcfbfaf9f8f7f6f5f4f3f2f1f0ef ++ [0])) = true ∧
    nextIs (exec (.xorend 0 0x2000 0x2000 16)
        (put (running.setB 0 0xffffffffffffffffffffffffffffffff) 0x2000 (counting 16)))
      (fun t => bytesAt t 0x2000 16 == blockBytes 0xfffefdfcfbfaf9f8f7f6f5f4f3f2f1f0) = true := by decide

/-- T12 and T13. -/
theorem test_xorend_faults :
    faults (exec (.xorend 0 0x2000 0x2100 15) running) 0x04 6 = true ∧
    faults (exec (.xorend 0 0x2000 0x2008 16) running) 0x08 0x2008 = true := by decide

/-! ### Vector MAC (section 2.3) -/

/-- `Z0` of section 2.3. -/
theorem test_macz : exec (.macz 0) keyed = .next (keyed.setB 0 (Config.CMAC keyed.macKey (List.replicate 16 0))).next := rfl

/-- MAC of the empty string reads nothing. -/
theorem test_mac_empty : exec (.mac 2 0xFFFFFFFF 0) keyed = .next (keyed.setB 2 (Config.CMAC keyed.macKey [])).next := rfl

/-- The FOLD of program P2, on a 14-byte field. -/
theorem test_fold : exec (.fold 0 1 0x3200 14) (put keyed 0x3200 ptA1) =
    .next ((put keyed 0x3200 ptA1).setB 0 (dbl 0 ^^^ Config.CMAC keyed.macKey ptA1)).next := rfl

/-- V7 by its primitive: the empty last field, with `D = 0`. -/
theorem test_macend : exec (.macend 1 0 0x3200 0) keyed =
    .next (keyed.setB 1 (Config.CMAC keyed.macKey (blockBytes 0x80000000000000000000000000000000))).next := rfl

/-- The table of program P2 (R66, R67). -/
theorem test_read_table : readTable tableP2 0x3300 3 = .ok ⟨[.present 0x3100 24, .absent], 0x3200, 14⟩ := rfl

/-- A.1 as a chain: `CMAC(T)` over `D = dbl(CMAC(zero)) XOR CMAC(AD)`, the Absent field skipped (R170, R176). -/
theorem test_s2v (k ad pt : List Byte) : s2v k [.present ad, .absent] pt =
    Config.CMAC k (terminal pt (dbl (Config.CMAC k (List.replicate 16 0)) ^^^ Config.CMAC k ad)) := rfl

/-- V11 to V14. -/
theorem test_s2v_count_faults :
    faults (exec (.s2v 0 0x3301 0) running) 0x05 0 = true ∧ faults (exec (.s2v 0 0x3301 0) keyed) 0x04 1 = true ∧
    faults (exec (.s2v 0 0x3301 1) keyed) 0x06 0x3301 = true ∧ faults (exec (.s2v 0 0x3300 128) keyed) 0x04 2 = true := by
  decide

/-- V15 to V18. -/
theorem test_s2v_table_faults :
    faults (exec (.s2v 0 0x3300 1) (put keyed 0x3300 [0, 0, 0, 0, 0, 0, 0, 0x80])) 0x04 3 = true ∧
    faults (exec (.s2v 0 0x3300 3) (put keyed 0x3310 [0, 0, 0, 0, 0, 0, 0, 0x80])) 0x04 0x203 = true ∧
    faults (exec (.s2v 0 0x3300 1) (put keyed 0x3304 [0x20, 0, 0, 0x01])) 0x0A 0 = true ∧
    faults (exec (.s2v 0 0x3300 2) (put keyed 0x3308 [0xF8, 0xFF, 0xFF, 0xFF, 16, 0, 0, 0])) 0x07 0xFFFFFFF8 = true := by
  decide

/-! ### Counter mode (section 2.4) -/

/-- CM9: the counter wraps from the all-one block to zero. -/
theorem test_ctrks_wraps (k : List Byte) : ctrks k 0xffffffffffffffffffffffffffffffff 32 =
    blockBytes (Config.E k 0xffffffffffffffffffffffffffffffff) ++ blockBytes (Config.E k 0) := rfl

/-- CM10 and CM11. -/
theorem test_ctrxor_edges :
    nextIs (exec (.ctrxor 2 0xFFFFFFFF 0xFFFFFFFF 0) { lowMemory with keyValid := true })
      (fun t => t.pc == 16 && t.mem == []) = true ∧
    faults (exec (.ctrxor 2 0x3200 0x3400 14) running) 0x05 0 = true := by decide

/-! ### AEAD envelope (section 2.5) -/

/-- KA1 splits into MACKEY and ENCKEY. -/
theorem test_keyld : nextIs (exec (.keyld 0x3000 32) (put running 0x3000
      (blockBytes 0xfffefdfcfbfaf9f8f7f6f5f4f3f2f1f0 ++ blockBytes 0xf0f1f2f3f4f5f6f7f8f9fafbfcfdfeff)))
    (fun t => t.macKey == keyed.macKey && t.encKey == keyed.encKey && t.klen == 16 && t.keyValid) = true := by decide

/-- A12 and S5. -/
theorem test_keyld_lengths :
    [0, 1, 16, 31, 33, 47, 63, 65, 96].all (fun n => faults (exec (.keyld 0x3000 n) keyed) 0x02 n &&
      nextIs (exec (.keyld 0x3000 n) keyed) (fun t => t.keyValid && t.macKey == keyed.macKey)) = true := by decide

theorem test_keyclr : nextIs (exec .keyclr keyed) (fun t => !t.keyValid && t.klen == 0 && t.macKey == []) = true := by
  decide

/-- A13 to A15. -/
theorem test_cteq :
    nextIs (exec (.cteq 1 2) (((running.setB 1 0x85632d07c6e8f37f950acd320a2ecc93).setB 2
      0x85632d07c6e8f37f950acd320a2ecc92))) (fun t => !t.eq) = true ∧
    nextIs (exec (.cteq 1 2) (((running.setB 1 0x85632d07c6e8f37f950acd320a2ecc93).setB 2
      0x05632d07c6e8f37f950acd320a2ecc93))) (fun t => !t.eq) = true ∧
    nextIs (exec (.cteq 4 4) running) (fun t => t.eq) = true := by decide

/-- The wire format (R231): the tag first, then the masked plaintext. -/
theorem test_seal_bytes (k e p : List Byte) : sealBytes k e [] p =
    blockBytes (s2v k [] p) ++ ctrxor e (ctr (s2v k [] p)) p := rfl

/-- A16: the destination inside the table. -/
theorem test_seal_overlap : faults (exec (.sealAead 0 0x3300 0x3310 3) tableP2) 0x08 0x3310 = true := by decide

/-- A10: the last field is shorter than a tag. -/
theorem test_open_short :
    faults (exec (.openAead 1 0x3300 0x6000 3) tableP2) 0x03 1 = true ∧
    nextIs (exec (.openAead 1 0x3300 0x6000 3) tableP2) (fun t => t.mem == tableP2.mem) = true := by decide

/-! ### MMIO (section 2.8) -/

/-- M1 and M2. -/
theorem test_mmio_reset_reads :
    [(0x00, 0x53495631), (0x04, 0x07100010), (0x08, 0), (0x0C, 0), (0x10, 0), (0x14, 0), (0x18, 0), (0x1C, 0x187F),
      (0x24, 0)].all (fun x => nextIs (step (withEvent State.reset (.mmioRead x.1 4))) (fun t => t.hostData == x.2)) =
      true := by decide

/-- M4: STATUS = `0x0000031C`, then W1C of ERR gives `0x00000018`. -/
theorem test_mmio_status_w1c :
    (let s : State := { State.reset with err := true, errcode := 3, keyValid := true, eq := true }
    s.statusWord == 0x31C && nextIs (step (withEvent s (.mmioWrite 0x0C 4 4))) (fun t => t.statusWord == 0x18)) = true := by
  decide

/-- M5. -/
theorem test_irq :
    (let s : State := { State.reset with done := true, ie := true }
    s.irq && nextIs (step (withEvent s (.mmioWrite 0x0C 4 2))) (fun t => !t.irq)) = true := by decide

/-- M6. -/
theorem test_mmio_srst_first : nextIs (step (withEvent { State.reset with pc := 0x40, ie := true } (.mmioWrite 0x08 4 3)))
    (fun t => !t.busy && !t.ie && t.pc == 0) = true := by decide

/-- M7 and M8. -/
theorem test_mmio_cmd_ptr :
    nextIs (step (withEvent State.reset (.mmioWrite 0x10 4 0x100C))) (fun t => t.pc == 0x1000) = true ∧
    nextIs (step (withEvent running (.mmioWrite 0x10 4 0x100C))) (fun t => t.pc == 0) = true := by decide

/-- M9. -/
theorem test_mmio_go : nextIs (step (withEvent { State.reset with err := true, errcode := 7, errPc := 16, errInfo := 3 }
    (.mmioWrite 0x08 4 5))) (fun t => t.busy && t.ie && !t.err && t.errcode == 0 && t.errPc == 0 && t.errInfo == 0) =
    true := by decide

/-- 93 I9: other widths and alignments are not admitted. -/
theorem test_mmio_refused :
    step (withEvent State.reset (.mmioRead 0x0C 2)) = .refused (.hostAccess 0x0C) ∧
    step (withEvent State.reset (.mmioRead 0x0E 4)) = .refused (.hostAccess 0x0E) := ⟨rfl, rfl⟩

/-! ### Races and visibility (R81 to R83, R330 to R332) -/

/-- A load before the BST of the same run races with it; one of the byte just after is the byte in memory (R83). -/
theorem test_load_before_write :
    nextIs (step (withEvent (put running 0 (encode (.bst 3 0x2100))) (.load 0x2110))) (fun t => t.hostData == 0) = true ∧
    runWrites (runFuel running) (put running 0 (encode (.bst 3 0x2100))) 0x210F = true := by decide

/-- The host stores to byte 0x40 after the turn that ends the run, or before it ends: only the second is a race (R83). -/
theorem test_store_ahead :
    ((sequencerTurn { running with agenda := [.seqTurn, .mmioRead 0x0C 4, .store 0x40 1] }).map State.raced) = some [] ∧
    ((sequencerTurn { put running 0 (encode .nop) with agenda := [.seqTurn, .store 0x40 1] }).map State.raced) =
      some [0x40] := by decide

/-- A store, a run that loads the byte and ends, and another store: the run reads the first (R81). -/
theorem test_store_after_run :
    (let s : State := { put State.reset 0 (encode (.bld 0 0x100)) with
      agenda := [.store 0x100 0xAB, .mmioWrite 0x08 4 1, .seqTurn, .seqTurn, .mmioRead 0x0C 4, .store 0x100 0xCD] }
    match Host.Core.run Sys2Proof.core 3 s with
    | .next t => blockByte (t.getB 0) 0 == 0xAB && t.raced == []
    | _ => false) = true := by decide +kernel

/-- A run of two NOPs, in which the host stores to the second one's opcode before its turn and to 0x100 after it. -/
def drawing : State :=
  { put running 0 (encode .nop ++ encode .nop) with
    agenda := [.seqTurn, .store 0x10 1, .seqTurn, .store 0x100 0xCD] }

/-- Where the run reads the raced opcode as a HALT, the store to 0x100 comes after its end and is no race (R83, I1). -/
theorem test_draw_ends_run (h : Config.freeByte 3 .fetch 0x10 = 0) :
    (sequencerTurn drawing).map State.raced = some [0x10] := by
  have ends (r : List Nat) (hr : r = [0x10] ∨ r = [0x10, 0x100]) (n : Nat) :
      meets (n + 3) { drawing with raced := r } = decide (n = 0) := by
    have hf : fetch { drawing with
        pc := 0x10, draws := 3, raced := r, mem := drawing.mem.write 0x10 1, agenda := [.store 0x100 0xCD] } =
        .ok (Config.freeByte 3 .fetch 0x10 :: List.replicate 15 0) := by rcases hr with rfl | rfl <;> rfl
    rw [meets_of_turn rfl (t := { drawing with
        pc := 0x10, draws := 1, raced := r, agenda := [.store 0x10 1, .seqTurn, .store 0x100 0xCD] })
      (by rcases hr with rfl | rfl <;> rfl) (by simp [drawing])]
    rw [meets_of_turn rfl (t := { drawing with
        pc := 0x10, draws := 2, raced := r, mem := drawing.mem.write 0x10 1, agenda := [.seqTurn, .store 0x100 0xCD] })
      (by rcases hr with rfl | rfl <;> rfl) (by simp)]
    rw [meets_of_turn rfl (t := { drawing with
        pc := 0x10, draws := 3, raced := r, mem := drawing.mem.write 0x10 1, agenda := [.store 0x100 0xCD]
        busy := false, done := true }) ?_ (by simp)]
    · cases n <;> rfl
    · show sequencerStep { drawing with
        pc := 0x10, draws := 3, raced := r, mem := drawing.mem.write 0x10 1, agenda := [.store 0x100 0xCD] } = _
      unfold sequencerStep
      rw [hf, h]
      rfl
  have h4 : meets 4 (drawing.drawn 4) = false := ends _ (.inr rfl) 1
  have h3 : meets 3 (drawing.drawn 3) = true := ends _ (.inl rfl) 0
  show some (foreseen 4 drawing) = _
  simp only [foreseen, h3, h4]
  rfl

/-- A BLD of address 0 on a platform with side effects from 0x1000 on, in a run in which the host stores to the top byte of
the operand after the BLD's turn. -/
def straying (rest : List Event) : State :=
  { put running 0 (encode (.bld 0 0)) with
    platform := { State.reset.platform with regions := [⟨0, 0x1000, .plain⟩, ⟨0x1000, 0xFFFFF000, .sideEffect⟩] }
    agenda := .seqTurn :: rest }

/-- Where the run reads the raced byte as one that leads it to a region with side effects, it stops without a meaning (R69);
where the host stores to the byte only behind its wait, or after a soft reset, the byte is read as it is. -/
theorem test_draw_strays (h : Config.freeByte 1 .fetch 7 = 0x40) :
    step (straying [.store 7 1]) = .fault (.sideEffectRegion 0x40000000) ∧
    (sequencerTurn (straying [.awaitIdle, .store 7 1])).map State.raced = some [] ∧
    (sequencerTurn (straying [.mmioWrite 0x08 4 2, .store 7 1])).map State.raced = some [] := by
  have stops (rest : List Event) :
      turnWith sequencerTakes (fun _ _ => 0) { straying rest with raced := [7] } = .fault (.sideEffectRegion 0x40000000) := by
    have hf : fetch { straying rest with raced := [7], agenda := rest, draws := 1 } =
        .ok ([4, 0, 0, 0, 0, 0, 0, Config.freeByte 1 .fetch 7] ++ List.replicate 8 0) := rfl
    show sequencerStep { straying rest with raced := [7], agenda := rest, draws := 1 } = _
    unfold sequencerStep
    rw [hf, h]
    rfl
  have met (rest : List Event) (n : Nat) :
      meets (n + 1) { straying rest with raced := [7] } = mayMeet (straying rest) (n + 1) := meets_of_fault rfl (stops rest) n
  have h1 : meets 2 ((straying [.store 7 1]).drawn 2) = true := met [.store 7 1] 1
  have h2 : meets 3 ((straying [.awaitIdle, .store 7 1]).drawn 3) = false := met [.awaitIdle, .store 7 1] 2
  have h3 : meets 3 ((straying [.mmioWrite 0x08 4 2, .store 7 1]).drawn 3) = false :=
    met [.mmioWrite 0x08 4 2, .store 7 1] 2
  have turns : sequencerTurn (straying [.store 7 1]) =
      some { straying [.store 7 1] with agenda := [.store 7 1], raced := [7], draws := 1 } := by
    have hf : foreseen 2 (straying [.store 7 1]) = [7] := by rw [foreseen, h1]; rfl
    show (sequencerTakes (straying [.store 7 1])).map
      (fun u => { u with raced := foreseen 2 (straying [.store 7 1]) }) = _
    rw [hf]
    rfl
  refine ⟨(step_of_sequencerTurn turns).trans (stops [.store 7 1]), ?_, ?_⟩
  · show some (foreseen 3 (straying [.awaitIdle, .store 7 1])) = _
    rw [foreseen, h2]
    rfl
  · show some (foreseen 3 (straying [.mmioWrite 0x08 4 2, .store 7 1])) = _
    rw [foreseen, h3]
    rfl

/-- A GO just before the HALT of a run is ignored, one just after it starts a run (R294). -/
theorem test_go_meets_end :
    nextIs (Host.Core.run Sys2Proof.core 2 { running with agenda := [.mmioWrite 0x08 4 1, .seqTurn] })
      (fun t => t.done && !t.busy) = true ∧
    nextIs (Host.Core.run Sys2Proof.core 2 { running with agenda := [.seqTurn, .mmioWrite 0x08 4 1] })
      (fun t => !t.done && t.busy) = true := by decide

/-- A byte stored and cleaned during a run is read as it is by the next one, and not before it is cleaned (R81). -/
theorem test_clean_during_run :
    (let s : State := { cached with busy := true }
    let t : State := hostClean (hostStore s 0x40 7) 0x40
    hidden t 0x40 && !hidden (startRun t) 0x40 && hidden (startRun (hostStore s 0x40 7)) 0x40 &&
      t.mem.read 0x40 == 7) = true := by decide

/-- A byte of the last run, invalidated while idle or during a run that does not write it, is read as it is (R332). -/
theorem test_invalidate :
    (let s : State := { memWrite cached 0x40 [7] with written := [] }
    s.stale == [0x40] && (hostInvalidate s 0x40).stale == [] &&
      (hostInvalidate { s with busy := true } 0x40).stale == [] &&
      (hostInvalidate { memWrite cached 0x40 [7] with busy := true } 0x40).stale == [0x40] &&
      (hostInvalidate s 0x40).mem.read 0x40 == 7) = true := by decide

/-- The wait passes when BUSY = 0, and until then the sequencer moves. -/
theorem test_await_idle :
    nextIs (step (withEvent running .awaitIdle)) (fun t => t.done && t.agenda == [.awaitIdle]) = true ∧
    nextIs (step (withEvent State.reset .awaitIdle)) (fun t => t.agenda == []) = true := by decide

/-! ### Faults of the fetch, restart, and the opcode table from reset -/

/-- E3 as a step: ILLEGAL_OPCODE with CW. -/
theorem test_illegal_opcode : faults (step (running.withFetchWord 32 0x101)) 0x01 0x101 = true := by decide

/-- A fetch where memory does not answer. -/
theorem test_fetch_bus_error : nextIs (step { lowMemory with pc := 0x8000 }) (fun t => t.errcode == 9 && t.pc == 0x8000) =
    true := by decide

/-- P4, runs 1 and 3: NO_KEY before CONTRACT, each with its STATUS. -/
theorem test_priority_status :
    nextIs (exec (.s2v 0 0x3301 0) running) (fun t => t.statusWord == 0x504) = true ∧
    nextIs (exec (.s2v 0 0x3301 0) keyed) (fun t => t.statusWord == 0x40C) = true := by decide

/-- Every row of the opcode table decodes to its command and runs as the first command after reset. -/
theorem test_table_rows_run : opTable.all (fun o =>
    ((decodeTableWord 32 o.code.toNat).map Instr.op == some o) &&
      nextIs (step (State.reset.withFetchWord 32 o.code.toNat)) (fun t => t.pc == 0 || t.pc == 16)) = true := by decide

/-! ### Witnesses: the hypotheses of each obligation are met together -/

theorem exists_next {o : Outcome} {p : State → Bool} (h : nextIs o p = true) : ∃ t, o = .next t ∧ p t = true := by
  cases o with
  | next t => exact ⟨t, rfl, h⟩
  | fault f => cases h
  | refused r => cases h

theorem reset_plainRange (a n : Nat) (h : a + n ≤ Config.addrSpace) : plainRange State.reset.platform a n := by
  intro x h1 h2
  have hx : x < Config.addrSpace := by omega
  simp [kindAt, State.reset, hx]

/-- On a coherent platform with nothing raced, nothing is hidden. -/
theorem coherent_quiet {s : State} (hc : s.platform.coherent = true) (hr : s.raced = []) : s.quiet := ⟨hr, .inl hc⟩

theorem reset_plain : State.reset.platform.plain := by decide

theorem runs (i : Instr) (s : State) (h : s.platform = State.reset.platform) : ∃ t, exec i s = .next t :=
  exec_next (h ▸ reset_plain) i

theorem tableP2_ok : TableOk tableP2 0x3300 3 ⟨[.present 0x3100 24, .absent], 0x3200, 14⟩ :=
  readTable_eq_ok.1 test_read_table

theorem tableP2_plain : ∀ r ∈ Table.ranges ⟨[.present 0x3100 24, .absent], 0x3200, 14⟩,
    plainRange tableP2.platform r.1 r.2 := by
  intro r hr
  simp only [Table.ranges, presentRanges, List.cons_append, List.nil_append, List.mem_cons, List.not_mem_nil,
    or_false] at hr
  rcases hr with rfl | rfl <;> exact reset_plainRange _ _ (by decide)

/-- No byte of `b` to `b + len - 1` lies in the table or a field of P2, for a destination from 0x5000 on. -/
theorem tableP2_disjoint (b len : Nat) (h : 0x5000 ≤ b) :
    ∀ r ∈ ((0x3300 : Word).toNat, 8 * (3 : Word).toNat) :: Table.ranges ⟨[.present 0x3100 24, .absent], 0x3200, 14⟩,
      ∀ x, inRange x b len → ¬ inRange x r.1 r.2 := by
  intro r hr x hx
  have h1 : (0x3300 : Word).toNat = 0x3300 := rfl
  have h2 : (0x3100 : Word).toNat = 0x3100 := rfl
  have h3 : (0x3200 : Word).toNat = 0x3200 := rfl
  have h4 : (3 : Word).toNat = 3 := rfl
  simp only [Table.ranges, presentRanges, List.cons_append, List.nil_append, List.mem_cons, List.not_mem_nil,
    or_false] at hr
  simp only [inRange] at hx ⊢
  rcases hr with rfl | rfl | rfl <;> simp only [h1, h2, h3, h4] <;> omega

theorem witness_StepKeepsInvariant : running.Inv ∧ ∃ t, step running = .next t := by
  obtain ⟨t, h, -⟩ := exists_next (o := step running) (p := fun _ => true) (by decide)
  exact ⟨by decide, t, h⟩

theorem witness_DecodeEncode : (Instr.xorend 7 0xFFFFFFFF 0 1).wf = true := by decide

theorem witness_DecodableWords : ∃ i, decodeWords 0x00077708 0 0 0 = .ok i := ⟨_, rfl⟩

/-- Every clause: no event, a wait, a `seqTurn`, and an event of the host. -/
theorem witness_StepRunsCommand :
    sequencerTurn running = some running.tick ∧ fetch running.tick = .ok (List.replicate 16 0) ∧
    decode (List.replicate 16 0) = .ok (.halt, []) ∧ running.busy = true ∧ running.agenda = [] ∧
    (withEvent running .awaitIdle).agenda = [.awaitIdle] ∧ fetch (withEvent running .awaitIdle).tick =
      .ok (List.replicate 16 0) ∧
    (withEvent running .seqTurn).agenda = [.seqTurn] ∧
    fetch { withEvent running .seqTurn with agenda := [] }.tick = .ok (List.replicate 16 0) ∧
    (withEvent running (.load 0)).agenda = [.load 0] ∧ State.reset.busy = false :=
  ⟨rfl, rfl, rfl, rfl, rfl, rfl, rfl, rfl, rfl, rfl, rfl⟩

/-- One word for each clause: a reserved opcode, RSV, a used field above 7, an unused field that is not 0. -/
theorem witness_IllegalCommandWord :
    (∀ cw ∈ [0x0000000A, 0x00100000, 0x00000808, 0x00000101],
      sequencerTurn (withEvent (put running 0 (bytesOfWord cw)) .seqTurn) = some (put running 0 (bytesOfWord cw)).tick ∧
      fetch (put running 0 (bytesOfWord cw)).tick = .ok (bytesOfWord cw ++ bytesOfWord 0 ++ bytesOfWord 0 ++ bytesOfWord 0)) ∧
    (∀ o : Op, o.code ≠ (0x0000000A : Word).extractLsb' 0 8) ∧ (0x00100000 : Word).extractLsb' 20 12 ≠ 0 ∧
    (Op.bxor.code = (0x00000808 : Word).extractLsb' 0 8 ∧ Op.bxor.uses.rd = true ∧
      7 < ((0x00000808 : Word).extractLsb' 8 4).toNat) ∧
    (Op.nop.code = (0x00000101 : Word).extractLsb' 0 8 ∧ Op.nop.uses.rd = false ∧
      (0x00000101 : Word).extractLsb' 8 4 ≠ 0) := by
  refine ⟨?_, fun o => by cases o <;> decide, by decide, by decide, by decide⟩
  intro cw h
  simp only [List.mem_cons, List.not_mem_nil, or_false] at h
  rcases h with rfl | rfl | rfl | rfl <;> exact ⟨rfl, rfl⟩

theorem witness_OnlyGoWakes :
    State.reset.busy = false ∧ State.reset.agenda = [] ∧
    ∃ t, step (withEvent State.reset (.mmioWrite 0x08 4 1)) = .next t ∧ t.busy = true :=
  ⟨rfl, rfl, exists_next (by decide)⟩

/-- At the last address but one, where the sum is still no wrap. -/
theorem witness_CommandMovesPcBy16 : { running with pc := 0xFFFFFFE0 }.pcAligned ∧
    ∃ t, exec .nop { running with pc := 0xFFFFFFE0 } = .next t ∧ (t.pc == 0xFFFFFFF0) = true :=
  ⟨by decide, exists_next (by decide)⟩

theorem witness_FlagAndKeyFrame :
    (∃ t, exec (.bst 3 0x2100) running = .next t) ∧ (∀ r q, Instr.bst 3 0x2100 ≠ .cteq r q) ∧
    (∀ a n, Instr.bst 3 0x2100 ≠ .keyld a n) ∧ Instr.bst 3 0x2100 ≠ .keyclr ∧ Instr.bst 3 0x2100 ≠ .halt :=
  ⟨runs _ _ rfl, by simp, by simp, by simp, by simp⟩

theorem witness_RegisterFrame : (∃ t, exec (.bxor 3 0 1) running = .next t) ∧ destReg (.bxor 3 0 1) ≠ some 2 :=
  ⟨runs _ _ rfl, by decide⟩

theorem witness_MemoryFrame : storesMemory (.s2v 0 0x3300 3) = false ∧ ∃ t, exec (.s2v 0 0x3300 3) tableP2 = .next t :=
  ⟨rfl, runs _ _ rfl⟩

/-- Each clause, at the bytes just below and just above the destination. -/
theorem witness_StoreFrame :
    (∃ t, exec (.bst 0 0x5000) keyed = .next t) ∧ ¬ inRange 0x4FFF 0x5000 16 ∧ ¬ inRange 0x5010 0x5000 16 ∧
    (∃ t, exec (.xorend 0 0x2000 0x5000 17) keyed = .next t) ∧ ¬ inRange 0x5011 0x5000 17 ∧
    (∃ t, exec (.ctrxor 0 0x2000 0x5000 1) keyed = .next t) ∧ ¬ inRange 0x5001 0x5000 1 ∧
    readTable tableP2 0x3300 3 = .ok ⟨[.present 0x3100 24, .absent], 0x3200, 14⟩ ∧
    (∃ t, exec (.sealAead 0 0x3300 0x5000 3) tableP2 = .next t) ∧ ¬ inRange 0x501E 0x5000 (16 + 14) ∧
    (∃ t, exec (.openAead 0 0x3300 0x5000 3) tableP2 = .next t) ∧ ¬ inRange 0x5000 0x5000 (14 - 16) ∧
    (∃ e, readTable running 0x3300 3 = .error e) ∧ (∃ t, exec (.sealAead 0 0x3300 0x5000 3) running = .next t) ∧
    ∃ t, exec (.openAead 0 0x3300 0x5000 3) running = .next t :=
  ⟨runs _ _ rfl, by decide, by decide, runs _ _ rfl, by decide, runs _ _ rfl, by decide, rfl, runs _ _ rfl, by decide,
    runs _ _ rfl, by decide, ⟨_, rfl⟩, runs _ _ rfl, runs _ _ rfl⟩

theorem witness_CommandOutcomes : ∃ t, exec (.bst 3 0x2100) running = .next t := runs _ _ rfl

theorem witness_PcOverflowKeepsEffects :
    { running with pc := lastPc }.pc = lastPc ∧ Instr.bzero 1 ≠ .halt ∧
    ∃ u, exec (.bzero 1) { { running with pc := lastPc } with pc := 0 } = .next u ∧ u.pc = 16 :=
  ⟨rfl, by decide, _, rfl, rfl⟩

theorem witness_EveryRunEnds : running.Inv ∧ running.agenda = [] ∧ running.platform.plain := ⟨by decide, rfl, reset_plain⟩

/-- The three ways a run ends: HALT, a fault, a soft reset. -/
theorem witness_RunEndsOneWay :
    (running.Inv ∧ running.busy = true ∧ ∃ t, step running = .next t ∧ (!t.busy && t.done) = true) ∧
    ((put running 0 [0xFF]).Inv ∧ ∃ t, step (put running 0 [0xFF]) = .next t ∧ (!t.busy && t.err) = true) ∧
    ((withEvent running (.mmioWrite 0x08 4 2)).Inv ∧
      ∃ t, step (withEvent running (.mmioWrite 0x08 4 2)) = .next t ∧ (!t.busy && !t.done && !t.err) = true) :=
  ⟨⟨by decide, rfl, exists_next (by decide)⟩, ⟨by decide, exists_next (by decide)⟩, by decide, exists_next (by decide)⟩

/-- For ControlAndMoveComplete, DblCompletes, CtrmaskCompletes and CteqCompletes. -/
theorem witness_register_commands : running.pc ≠ lastPc ∧ (7 : Reg).toNat < 8 ∧ (6 : Reg) ≠ 7 := by decide

theorem witness_KeyCommandsComplete :
    running.pc ≠ lastPc ∧ (16 ∈ Config.keySizes ∧ (32 : Word).toNat = 2 * 16 ∧
      (0xFFFFFFE0 : Word).toNat + (32 : Word).toNat ≤ Config.addrSpace ∧
      plainRange running.platform (0xFFFFFFE0 : Word).toNat (32 : Word).toNat) ∧
    (24 ∈ Config.keySizes ∧ (48 : Word).toNat = 2 * 24) ∧ 32 ∈ Config.keySizes ∧ (64 : Word).toNat = 2 * 32 :=
  ⟨by decide, ⟨by decide, rfl, by decide, reset_plainRange _ _ (by decide)⟩, ⟨by decide, rfl⟩, by decide, rfl⟩

theorem witness_NoKeyComesFirst : needsKey (.openAead 0 1 0 0) = true ∧ running.keyValid = false := by decide

theorem witness_KeysNotReadOut : needsKey (.keyld 0 32) = false ∧ ∃ t, exec (.keyld 0 32) running = .next t :=
  ⟨rfl, runs _ _ rfl⟩

/-- For BldCompletes and BstCompletes, at the last legal address. -/
theorem witness_block_moves :
    running.mem.wf ∧ running.pc ≠ lastPc ∧ (0xFFFFFFF0 : Word).toNat + 16 ≤ Config.addrSpace ∧
    plainRange running.platform (0xFFFFFFF0 : Word).toNat 16 :=
  ⟨Memory.wf_nil, by decide, by decide, reset_plainRange _ _ (by decide)⟩

theorem witness_SelfModifyingList :
    running.mem.wf ∧ running.quiet ∧ running.pcAligned ∧ running.pc ≠ lastPc ∧ (16 : Word) = running.pc + 16 ∧
    plainRange running.platform (16 : Word).toNat 16 :=
  ⟨Memory.wf_nil, coherent_quiet rfl rfl, by decide, by decide, rfl, reset_plainRange _ _ (by decide)⟩

/-- The shortest and the longest field. -/
theorem witness_PadxorCompletes :
    running.pc ≠ lastPc ∧ ((0 : Word).toNat ≤ 15 ∧ rangeLegal (0xFFFFFFFF : Word).toNat (0 : Word).toNat = true ∧
      plainRange running.platform (0xFFFFFFFF : Word).toNat (0 : Word).toNat) ∧
    (15 : Word).toNat ≤ 15 ∧ rangeLegal (0xFFFFFFF1 : Word).toNat (15 : Word).toNat = true ∧
    plainRange running.platform (0xFFFFFFF1 : Word).toNat (15 : Word).toNat :=
  ⟨by decide, ⟨by decide, by decide, reset_plainRange _ _ (by decide)⟩, by decide, by decide,
    reset_plainRange _ _ (by decide)⟩

/-- The shortest string, in place and just after the source. -/
theorem witness_XorendCompletes :
    running.mem.wf ∧ running.pc ≠ lastPc ∧ 16 ≤ (16 : Word).toNat ∧ (16 : Word).toNat ≤ Config.maxLen ∧
    (0x2000 : Word).toNat + (16 : Word).toNat ≤ Config.addrSpace ∧
    (0x2010 : Word).toNat + (16 : Word).toNat ≤ Config.addrSpace ∧
    (∀ x, inRange x (0x2010 : Word).toNat (16 : Word).toNat → ¬ inRange x (0x2000 : Word).toNat (16 : Word).toNat) ∧
    plainRange running.platform (0x2000 : Word).toNat (16 : Word).toNat ∧
    plainRange running.platform (0x2010 : Word).toNat (16 : Word).toNat :=
  ⟨Memory.wf_nil, by decide, by decide, by decide, by decide, by decide,
    overlaps_eq_false.1 (by decide), reset_plainRange _ _ (by decide), reset_plainRange _ _ (by decide)⟩

/-- Both length classes, at their boundary. -/
theorem witness_TerminalInjective (d : Block) :
    (counting 15).length < 16 ∧ 16 ≤ (counting 16).length ∧
    (16 ≤ (counting 15).length ↔ 16 ≤ (counting 15).length) ∧ terminal (counting 15) d = terminal (counting 15) d ∧
    (16 ≤ (counting 16).length ↔ 16 ≤ (counting 16).length) ∧ terminal (counting 16) d = terminal (counting 16) d :=
  ⟨by decide, by decide, .rfl, rfl, .rfl, rfl⟩

theorem witness_MacCommandsComplete :
    tableP2.pc ≠ lastPc ∧ tableP2.keyValid = true ∧ (0xFFFFFF : Word).toNat ≤ Config.maxLen ∧
    rangeLegal (0xFF000001 : Word).toNat (0xFFFFFF : Word).toNat = true ∧
    plainRange tableP2.platform (0xFF000001 : Word).toNat (0xFFFFFF : Word).toNat ∧
    (∃ t, TableOk tableP2 0x3300 3 t ∧ ∀ r ∈ t.ranges, plainRange tableP2.platform r.1 r.2) :=
  ⟨by decide, rfl, by decide, by decide, reset_plainRange _ _ (by decide), _, tableP2_ok, tableP2_plain⟩

/-- An empty message, and one byte just after the source. -/
theorem witness_CtrxorCompletes :
    keyed.mem.wf ∧ keyed.pc ≠ lastPc ∧ keyed.keyValid = true ∧ (0 : Word).toNat ≤ Config.maxLen ∧
    rangeLegal (0xFFFFFFFF : Word).toNat (0 : Word).toNat = true ∧
    plainRange keyed.platform (0xFFFFFFFF : Word).toNat (0 : Word).toNat ∧ (1 : Word).toNat ≤ Config.maxLen ∧
    rangeLegal (0x2000 : Word).toNat (1 : Word).toNat = true ∧ rangeLegal (0x2001 : Word).toNat (1 : Word).toNat = true ∧
    (∀ x, inRange x (0x2001 : Word).toNat (1 : Word).toNat → ¬ inRange x (0x2000 : Word).toNat (1 : Word).toNat) ∧
    plainRange keyed.platform (0x2000 : Word).toNat (1 : Word).toNat ∧
    plainRange keyed.platform (0x2001 : Word).toNat (1 : Word).toNat :=
  ⟨Memory.wf_nil, by decide, rfl, by decide, by decide, reset_plainRange _ _ (by decide), by decide, by decide, by decide,
    overlaps_eq_false.1 (by decide), reset_plainRange _ _ (by decide), reset_plainRange _ _ (by decide)⟩

theorem witness_MaskedCounterNeverCarries : 2 ^ 20 - 1 < 2 ^ 20 := by decide

/-- One descriptor for each clause. -/
theorem witness_DescriptorDecoding :
    (put keyed 0x3304 [0x20, 0, 0, 0x01]).quiet ∧
    ((put keyed 0x3304 [0x20, 0, 0, 0x01]).mem.read (0x3300 + 8 * 0 + 7)).extractLsb' 0 7 ≠ 0 ∧ tableP2.quiet ∧
    tableP2.mem.read (0x3300 + 8 * 1 + 7) = 0x80 ∧ tableP2.mem.read (0x3300 + 8 * 2 + 7) = 0x00 := by decide

theorem witness_S2vEqualsPrimitives :
    tableP2.quiet ∧ (2 : Reg).toNat < 8 ∧ (0 : Reg).toNat < 8 ∧ tableP2.pc.toNat + 16 * (2 + 2) ≤ lastPc.toNat ∧
    TableOk tableP2 0x3300 3 ⟨[.present 0x3100 24, .absent], 0x3200, 14⟩ ∧
    ∀ r ∈ Table.ranges ⟨[.present 0x3100 24, .absent], 0x3200, 14⟩, plainRange tableP2.platform r.1 r.2 :=
  ⟨coherent_quiet rfl rfl, by decide, by decide, by decide, tableP2_ok, tableP2_plain⟩

/-- One table for each clause; the clauses on the count, the alignment and the end of the address space meet at their
boundaries 0, 1, 127, 128 and `2^32`. -/
theorem witness_TableFaults :
    keyed.keyValid = true ∧ (0 : Word).toNat = 0 ∧ 128 ≤ (128 : Word).toNat ∧
    (1 ≤ (127 : Word).toNat ∧ (127 : Word).toNat ≤ 127) ∧ (0x3301 : Word).toNat % 8 ≠ 0 ∧
    ((0xFFFFFFF8 : Word).toNat % 8 = 0 ∧ Config.addrSpace < (0xFFFFFFF8 : Word).toNat + 8 * (2 : Word).toNat ∧
      (0xFFFFFFF8 : Word).toNat + 8 * (1 : Word).toNat ≤ Config.addrSpace) ∧
    (inRange 0x8000 (0x7FF8 : Word).toNat (8 * (2 : Word).toNat) ∧
      memOk { lowMemory with keyValid := true }.platform 0x8000 = false) ∧
    plainRange keyed.platform (0x3300 : Word).toNat (8 * (3 : Word).toNat) ∧
    readDesc (put keyed 0x3304 [0x20, 0, 0, 0x01]) (0x3300 : Word).toNat 0 =
      .error (.raise .badDescriptor (BitVec.ofNat 32 0)) ∧
    ((∀ k < (1 : Word).toNat, ∃ d, readDesc (put keyed 0x3307 [0x80]) (0x3300 : Word).toNat k = .ok d) ∧
      readDesc (put keyed 0x3307 [0x80]) (0x3300 : Word).toNat ((1 : Word).toNat - 1) = .ok .absent) ∧
    ((∀ k < (1 : Word).toNat, ∃ d,
        readDesc (put keyed 0x3300 [0xF8, 0xFF, 0xFF, 0xFF, 16]) (0x3300 : Word).toNat k = .ok d) ∧
      readDesc (put keyed 0x3300 [0xF8, 0xFF, 0xFF, 0xFF, 16]) (0x3300 : Word).toNat 0 =
        .ok (.present 0xFFFFFFF8 16) ∧
      readDesc (put keyed 0x3300 [0xF8, 0xFF, 0xFF, 0xFF, 16]) (0x3300 : Word).toNat ((1 : Word).toNat - 1) ≠ .ok .absent ∧
      rangeLegal (0xFFFFFFF8 : Word).toNat 16 = false) := by
  have h1 : (1 : Word).toNat = 1 := rfl
  have r1 : readDesc (put keyed 0x3307 [0x80]) (0x3300 : Word).toNat 0 = .ok .absent := rfl
  have r2 : readDesc (put keyed 0x3300 [0xF8, 0xFF, 0xFF, 0xFF, 16]) (0x3300 : Word).toNat 0 =
    .ok (.present 0xFFFFFFF8 16) := rfl
  refine ⟨rfl, rfl, by decide, by decide, by decide, by decide, ⟨by decide, by decide⟩, reset_plainRange _ _ (by decide),
    rfl, ⟨fun k hk => ?_, r1⟩, fun k hk => ?_, r2, ?_, by decide⟩
  · rw [h1] at hk
    obtain rfl : k = 0 := by omega
    exact ⟨_, r1⟩
  · rw [h1] at hk
    obtain rfl : k = 0 := by omega
    exact ⟨_, r2⟩
  · rw [h1, show 1 - 1 = 0 from rfl, r2]
    simp

theorem witness_SealCompletes :
    tableP2.mem.wf ∧ tableP2.pc ≠ lastPc ∧ TableOk tableP2 0x3300 3 ⟨[.present 0x3100 24, .absent], 0x3200, 14⟩ ∧
    (∀ r ∈ Table.ranges ⟨[.present 0x3100 24, .absent], 0x3200, 14⟩, plainRange tableP2.platform r.1 r.2) ∧
    (0xFFFFFFE2 : Word).toNat + (16 + 14) ≤ Config.addrSpace ∧
    (∀ r ∈ ((0x3300 : Word).toNat, 8 * (3 : Word).toNat) :: Table.ranges ⟨[.present 0x3100 24, .absent], 0x3200, 14⟩,
      ∀ x, inRange x (0xFFFFFFE2 : Word).toNat (16 + 14) → ¬ inRange x r.1 r.2) ∧
    plainRange tableP2.platform (0xFFFFFFE2 : Word).toNat (16 + 14) :=
  ⟨by decide, by decide, tableP2_ok, tableP2_plain, by decide, tableP2_disjoint _ _ (by decide),
    reset_plainRange _ _ (by decide)⟩

/-! A table of one field, and what SEAL and OPEN do with it -/

/-- A key and a table of one field of `len` bytes at 0x200. -/
def oneField (len : Byte) : State := put keyed 0x100 [0x00, 0x02, 0, 0, len, 0, 0, 0]

/-- The synthetic value of one empty field under KA1. -/
def emptyTag : Block := s2v keyed.macKey [] []

/-- A table of one field of `len` bytes, and bytes where the field starts. -/
def filled (len : Byte) (bs : List Byte) : State := put (oneField len) 0x200 bs

theorem filled_quiet (len : Byte) (bs : List Byte) : (filled len bs).quiet := coherent_quiet rfl rfl

theorem filled_read (len : Byte) (bs : List Byte) (x : Nat) (h : x < 0x200) :
    (filled len bs).mem.read x = (oneField len).mem.read x :=
  Memory.read_writeBytes_outside _ _ _ _ (.inl h)

theorem filled_readDesc (len : Byte) (bs : List Byte) : readDesc (filled len bs) 0x100 0 = readDesc (oneField len) 0x100 0 := by
  have word : ∀ a, a + 3 < 0x200 → tableWord (filled len bs) a = tableWord (oneField len) a := fun a ha => by
    have q1 : (filled len bs).quiet := filled_quiet len bs
    have q2 : (oneField len).quiet := coherent_quiet rfl rfl
    simp only [tableWord, seqByte_quiet q1, seqByte_quiet q2]
    rw [filled_read _ _ a (by omega), filled_read _ _ (a + 1) (by omega), filled_read _ _ (a + 2) (by omega),
      filled_read _ _ (a + 3) (by omega)]
  simp only [readDesc]
  rw [word (0x100 + 8 * 0) (by omega), word (0x100 + 8 * 0 + 4) (by omega)]

theorem filled_table {len : Byte} {n : Nat} (bs : List Byte) (h : readDesc (oneField len) 0x100 0 = .ok (.present 0x200 n))
    (hr : ∀ r ∈ Table.ranges ⟨[], 0x200, n⟩, rangeLegal r.1 r.2 = true) :
    TableOk (filled len bs) 0x100 1 ⟨[], 0x200, n⟩ where
  key := rfl
  count := rfl
  countMax := by decide
  aligned := by decide
  legal := by decide
  plain := reset_plainRange _ _ (by decide)
  front := fun j h => absurd h (Nat.not_lt_zero j)
  last := (filled_readDesc len bs).trans h
  ranges := hr

/-- The field reads as the bytes. -/
theorem filled_lastBytes {len : Byte} {n : Nat} {bs : List Byte} (hw : (oneField len).mem.wf) (h : bs.length = n) :
    Table.lastBytes (filled len bs) ⟨[], 0x200, n⟩ = bs := by
  have hq : (filled len bs).quiet := filled_quiet len bs
  show seqBytes (filled len bs) _ 0x200 n = _
  rw [seqBytes_quiet hq, ← h]
  exact Memory.read_back (oneField len).mem hw.1 0x200 bs

/-- A table of one field of 16 bytes, which holds a block. -/
def holding (w : Block) : State := filled 16 (blockBytes w)

theorem holding_quiet (w : Block) : (holding w).quiet := coherent_quiet rfl rfl

theorem holding_mem_wf (w : Block) : (holding w).mem.wf :=
  Memory.writeBytes_wf _ (by decide : (oneField 16).mem.wf) _ _ (.inr (by rw [blockBytes_length]; decide))

theorem holding_table (w : Block) : TableOk (holding w) 0x100 1 ⟨[], 0x200, 16⟩ := filled_table _ rfl (by decide)

theorem holding_lastBytes (w : Block) : Table.lastBytes (holding w) ⟨[], 0x200, 16⟩ = blockBytes w :=
  filled_lastBytes (by decide) (blockBytes_length w)

theorem holding_tags (w : Block) :
    tagOf (Table.lastBytes (holding w) ⟨[], 0x200, 16⟩) = w ∧
    openTag (holding w).macKey (holding w).encKey (Table.frontFields (holding w) ⟨[], 0x200, 16⟩)
      (Table.lastBytes (holding w) ⟨[], 0x200, 16⟩) = emptyTag := by
  rw [holding_lastBytes]
  have ht : (blockBytes w).take 16 = blockBytes w := List.take_of_length_le (by simp)
  have hd : (blockBytes w).drop 16 = [] := List.drop_of_length_le (by simp)
  refine ⟨by rw [tagOf, ht, blockOfBytes_blockBytes], ?_⟩
  unfold openTag candidate
  rw [hd]
  rfl

theorem holding_plain (w : Block) : ∀ r ∈ Table.ranges ⟨[], 0x200, 16⟩, plainRange (holding w).platform r.1 r.2 := by
  intro r hr
  simp only [Table.ranges, presentRanges, List.nil_append, List.mem_singleton] at hr
  subst hr
  exact reset_plainRange _ _ (by decide)

theorem oneField_disjoint (m len : Nat) (hm : m ≤ 0x100) (b : Nat) (hb : 0x300 ≤ b) :
    ∀ r ∈ ((0x100 : Word).toNat, 8 * (1 : Word).toNat) :: Table.ranges ⟨[], 0x200, m⟩,
      ∀ x, inRange x b len → ¬ inRange x r.1 r.2 := by
  intro r hr x hx
  have h1 : (0x100 : Word).toNat = 0x100 := rfl
  have h2 : (0x200 : Word).toNat = 0x200 := rfl
  have h3 : (1 : Word).toNat = 1 := rfl
  simp only [Table.ranges, presentRanges, List.nil_append, List.mem_cons, List.not_mem_nil, or_false] at hr
  simp only [inRange] at hx ⊢
  rcases hr with rfl | rfl <;> simp only [h1, h2, h3] <;> omega

/-- A ciphertext of 16 bytes that verifies: its tag is the synthetic value of the empty plaintext. -/
theorem witness_OpenCompletes :
    (holding emptyTag).mem.wf ∧ (holding emptyTag).quiet ∧ (holding emptyTag).pc ≠ lastPc ∧
    TableOk (holding emptyTag) 0x100 1 ⟨[], 0x200, 16⟩ ∧
    (∀ r ∈ Table.ranges ⟨[], 0x200, 16⟩, plainRange (holding emptyTag).platform r.1 r.2) ∧ 16 ≤ 16 ∧
    rangeLegal (0x300 : Word).toNat (16 - 16) = true ∧
    (∀ r ∈ ((0x100 : Word).toNat, 8 * (1 : Word).toNat) :: Table.ranges ⟨[], 0x200, 16⟩,
      ∀ x, inRange x (0x300 : Word).toNat (16 - 16) → ¬ inRange x r.1 r.2) ∧
    plainRange (holding emptyTag).platform (0x300 : Word).toNat (16 - 16) ∧
    openTag (holding emptyTag).macKey (holding emptyTag).encKey (Table.frontFields (holding emptyTag) ⟨[], 0x200, 16⟩)
      (Table.lastBytes (holding emptyTag) ⟨[], 0x200, 16⟩) =
      tagOf (Table.lastBytes (holding emptyTag) ⟨[], 0x200, 16⟩) :=
  ⟨holding_mem_wf _, holding_quiet _, by decide, holding_table _, holding_plain _, Nat.le_refl _, by decide,
    oneField_disjoint 16 _ (by decide) _ (by decide), reset_plainRange _ _ (by decide),
    (holding_tags _).2.trans (holding_tags _).1.symm⟩

/-- A short last field, and a tag that does not verify. -/
theorem witness_OpenRejects :
    (TableOk tableP2 0x3300 3 ⟨[.present 0x3100 24, .absent], 0x3200, 14⟩ ∧ 14 < 16) ∧
    ∃ w, TableOk (holding w) 0x100 1 ⟨[], 0x200, 16⟩ ∧
      (∀ r ∈ Table.ranges ⟨[], 0x200, 16⟩, plainRange (holding w).platform r.1 r.2) ∧
      rangeLegal (0x300 : Word).toNat (16 - 16) = true ∧
      (∀ r ∈ ((0x100 : Word).toNat, 8 * (1 : Word).toNat) :: Table.ranges ⟨[], 0x200, 16⟩,
        ∀ x, inRange x (0x300 : Word).toNat (16 - 16) → ¬ inRange x r.1 r.2) ∧
      openTag (holding w).macKey (holding w).encKey (Table.frontFields (holding w) ⟨[], 0x200, 16⟩)
        (Table.lastBytes (holding w) ⟨[], 0x200, 16⟩) ≠ tagOf (Table.lastBytes (holding w) ⟨[], 0x200, 16⟩) := by
  refine ⟨⟨tableP2_ok, by decide⟩, emptyTag ^^^ 1, holding_table _, holding_plain _, by decide,
    oneField_disjoint 16 _ (by decide) _ (by decide), ?_⟩
  rw [(holding_tags _).1, (holding_tags _).2]
  intro h
  have h1 := congrArg (fun v : Block => v.getLsbD 0) h
  simp at h1

theorem witness_NoPlaintextBeforeVerification :
    (∃ u, exec (.openAead 1 0x100 0x300 1) (holding (emptyTag ^^^ 1)) = .next u) ∧
    ∀ t, TableOk (holding (emptyTag ^^^ 1)) 0x100 1 t → 16 ≤ t.lastLen →
      openTag (holding (emptyTag ^^^ 1)).macKey (holding (emptyTag ^^^ 1)).encKey
        (t.frontFields (holding (emptyTag ^^^ 1))) (t.lastBytes (holding (emptyTag ^^^ 1))) ≠
        tagOf (t.lastBytes (holding (emptyTag ^^^ 1))) := by
  refine ⟨runs _ _ rfl, fun t ht _ => ?_⟩
  have h := (readTable_eq_ok.2 ht).symm.trans (readTable_eq_ok.2 (holding_table _))
  injection h with h
  subst h
  exact witness_OpenRejects.2.elim fun w hw => by
    rw [(holding_tags _).1, (holding_tags _).2]
    intro h
    have h1 := congrArg (fun v : Block => v.getLsbD 0) h
    simp at h1

/-- SEAL of one empty field from 0x100, to 0x300. -/
theorem seal_oneField : ∃ v, exec (.sealAead 0 0x100 0x300 1) (oneField 0) = .next v ∧ v.busy = true ∧
    ∀ i < 16, v.mem.read (0x300 + i) = blockByte emptyTag i := by
  have ht : TableOk (oneField 0) 0x100 1 ⟨[], 0x200, 0⟩ := readTable_eq_ok.1 rfl
  have hp : ∀ r ∈ Table.ranges ⟨[], 0x200, 0⟩, plainRange (oneField 0).platform r.1 r.2 := by
    intro r hr
    simp only [Table.ranges, presentRanges, List.nil_append, List.mem_singleton] at hr
    subst hr
    exact reset_plainRange _ _ (by decide)
  have hplan := sealPlan_eq_ok.2 ⟨_, ht, (by decide : rangeLegal (0x300 : Word).toNat (16 + 0) = true),
    oneField_disjoint 0 _ (by decide) _ (by decide), hp, rfl⟩
  have hl : (sealBytes (oneField 0).macKey (oneField 0).encKey (Table.frontFields (oneField 0) ⟨[], 0x200, 0⟩)
      (Table.lastBytes (oneField 0) ⟨[], 0x200, 0⟩)).length = 16 := by simp
  obtain ⟨v, h1, h2, -, h3, -⟩ := storeThen_setB (rd := 0)
    (v := s2v (oneField 0).macKey (Table.frontFields (oneField 0) ⟨[], 0x200, 0⟩)
      (Table.lastBytes (oneField 0) ⟨[], 0x200, 0⟩)) (dst := (0x300 : Word).toNat)
    (bs := sealBytes (oneField 0).macKey (oneField 0).encKey (Table.frontFields (oneField 0) ⟨[], 0x200, 0⟩)
      (Table.lastBytes (oneField 0) ⟨[], 0x200, 0⟩)) (by decide : (oneField 0).mem.wf) (by decide)
    (by rw [hl]; exact reset_plainRange _ _ (by decide))
  refine ⟨v, ?_, by rw [h2]; rfl, fun i hi => (h3 i (by rw [hl]; exact hi)).trans ?_⟩
  · simp only [exec, execSealAead, hplan]
    exact h1
  · simp only [sealBytes]
    rw [List.getElem_append_left (by simpa using hi), blockBytes_getElem]
    rfl

/-- SEAL of one empty field, and OPEN of what it wrote. -/
theorem witness_SealThenOpen : ∃ v,
    (oneField 0).mem.wf ∧ (oneField 0).quiet ∧ (oneField 0).busy = true ∧ (0 : Reg).toNat < 8 ∧
    TableOk (oneField 0) 0x100 1 ⟨[], 0x200, 0⟩ ∧ exec (.sealAead 0 0x100 0x300 1) (oneField 0) = .next v ∧
    v.busy = true ∧ (holding emptyTag).mem.wf ∧ (holding emptyTag).quiet ∧ (holding emptyTag).pc ≠ lastPc ∧
    (holding emptyTag).macKey = (oneField 0).macKey ∧ (holding emptyTag).encKey = (oneField 0).encKey ∧
    TableOk (holding emptyTag) 0x100 1 ⟨[], 0x200, 16⟩ ∧
    Table.frontFields (holding emptyTag) ⟨[], 0x200, 16⟩ = Table.frontFields (oneField 0) ⟨[], 0x200, 0⟩ ∧ 16 = 16 + 0 ∧
    (∀ i < 16 + 0, (holding emptyTag).mem.read ((0x200 : Word).toNat + i) = v.mem.read ((0x300 : Word).toNat + i)) ∧
    (∀ r ∈ Table.ranges ⟨[], 0x200, 16⟩, plainRange (holding emptyTag).platform r.1 r.2) ∧
    rangeLegal (0x400 : Word).toNat 0 = true ∧
    (∀ r ∈ ((0x100 : Word).toNat, 8 * (1 : Word).toNat) :: Table.ranges ⟨[], 0x200, 16⟩,
      ∀ x, inRange x (0x400 : Word).toNat 0 → ¬ inRange x r.1 r.2) ∧
    plainRange (holding emptyTag).platform (0x400 : Word).toNat 0 := by
  obtain ⟨v, h1, h2, h3⟩ := seal_oneField
  refine ⟨v, by decide, coherent_quiet rfl rfl, rfl, by decide, readTable_eq_ok.1 rfl, h1, h2, holding_mem_wf _,
    holding_quiet _, by decide, rfl, rfl, holding_table _, rfl, rfl, fun i hi => ?_, holding_plain _, by decide,
    oneField_disjoint 16 _ (by decide) _ (by decide), reset_plainRange _ _ (by decide)⟩
  refine Eq.trans ?_ (h3 i (by omega)).symm
  have hr := Memory.read_writeBytes_inside (oneField 16).mem (by decide : (oneField 16).mem.wf).1 0x200
    (blockBytes emptyTag) i (by rw [blockBytes_length]; omega)
  rwa [blockBytes_getElem] at hr

theorem witness_SealDeterministic : ∃ u,
    (oneField 0).mem.wf ∧ (oneField 0).busy = true ∧ (7 : Reg).toNat < 8 ∧ TableOk (oneField 0) 0x100 1 ⟨[], 0x200, 0⟩ ∧
    exec (.sealAead 0 0x100 0x300 1) (oneField 0) = .next u ∧ u.busy = true := by
  obtain ⟨u, h1, h2, -⟩ := seal_oneField
  exact ⟨u, by decide, rfl, by decide, readTable_eq_ok.1 rfl, h1, h2⟩

theorem witness_LengthFaults :
    ((33 : Word).toNat ≠ 32 ∧ (33 : Word).toNat ≠ 48 ∧ (33 : Word).toNat ≠ 64) ∧ 16 ≤ (16 : Word).toNat ∧
    (15 : Word).toNat < 16 ∧ Config.maxLen < (0x1000000 : Word).toNat ∧ keyed.keyValid = true := by decide

theorem witness_RangeFaults :
    Config.addrSpace < (0xFFFFFFF1 : Word).toNat + 16 ∧
    (0 < (32 : Word).toNat ∧ Config.addrSpace < (0xFFFFFFE1 : Word).toNat + (32 : Word).toNat) ∧
    (0 < (1 : Word).toNat ∧ (1 : Word).toNat ≤ 15 ∧ Config.addrSpace < (0xFFFFFFFF : Word).toNat + (2 : Word).toNat) ∧
    (16 ≤ (16 : Word).toNat ∧ (16 : Word).toNat ≤ Config.maxLen ∧
      (0xFFFFFFF0 : Word).toNat + (16 : Word).toNat ≤ Config.addrSpace ∧
      Config.addrSpace < (0xFFFFFFF1 : Word).toNat + (16 : Word).toNat) ∧ keyed.keyValid = true := by decide

theorem witness_DestinationFaults :
    ((16 : Word).toNat ≤ Config.maxLen ∧ (0x2000 : Word).toNat + (16 : Word).toNat ≤ Config.addrSpace ∧
      (0x200F : Word).toNat + (16 : Word).toNat ≤ Config.addrSpace ∧ (0x200F : Word) ≠ 0x2000 ∧
      ∃ x, inRange x (0x200F : Word).toNat (16 : Word).toNat ∧ inRange x (0x2000 : Word).toNat (16 : Word).toNat) ∧
    TableOk tableP2 0x3300 3 ⟨[.present 0x3100 24, .absent], 0x3200, 14⟩ ∧ 0 < 16 + 14 ∧
    Config.addrSpace < (0xFFFFFFE3 : Word).toNat + (16 + 14) ∧
    ((0x3317 : Word).toNat + (16 + 14) ≤ Config.addrSpace ∧
      ∃ r ∈ ((0x3300 : Word).toNat, 8 * (3 : Word).toNat) :: Table.ranges ⟨[.present 0x3100 24, .absent], 0x3200, 14⟩,
        ∃ x, inRange x (0x3317 : Word).toNat (16 + 14) ∧ inRange x r.1 r.2) :=
  ⟨⟨by decide, by decide, by decide, by decide, 0x200F, by decide, by decide⟩, tableP2_ok, by decide, by decide, by decide,
    _, List.mem_cons_self, 0x3317, by decide, by decide⟩

/-- Memory that answers below 0x8000 only, with a key and a table of one field of 16 bytes at `0x7FF8`. -/
def highField : State :=
  { put { lowMemory with keyValid := true, klen := 16 } 0x100 [0xF8, 0x7F, 0, 0, 16, 0, 0, 0] with pc := 0x7FF8 }

/-- The fetch, and a data read of each length, at the last byte that answers; a field of a table that passes it. -/
theorem witness_ReadBusErrors :
    (sequencerTurn (withEvent highField .seqTurn) = some highField.tick ∧ inRange 0x8000 (0x7FF8 : Word).toNat 16 ∧
      memOk lowMemory.platform 0x8000 = false) ∧
    ((0x7FFF : Word).toNat + 16 ≤ Config.addrSpace ∧ inRange 0x8000 (0x7FFF : Word).toNat 16 ∧
      (32 : Word).toNat = 32 ∧ inRange 0x8000 (0x7FFF : Word).toNat (32 : Word).toNat ∧ (15 : Word).toNat ≤ 15 ∧
      inRange 0x8000 (0x7FFF : Word).toNat (15 : Word).toNat ∧ (2 : Word).toNat ≤ Config.maxLen ∧
      highField.keyValid = true ∧ inRange 0x8000 (0x7FFF : Word).toNat (2 : Word).toNat) ∧
    (16 ≤ (16 : Word).toNat ∧ (16 : Word).toNat ≤ Config.maxLen ∧
      (0x7FEF : Word).toNat + (16 : Word).toNat ≤ Config.addrSpace ∧
      (∀ x, inRange x (0x7FEF : Word).toNat (16 : Word).toNat → ¬ inRange x (0x7FFF : Word).toNat (16 : Word).toNat)) ∧
    TableOk highField 0x100 1 ⟨[], 0x7FF8, 16⟩ ∧ rangeLegal (0x300 : Word).toNat (16 + 16) = true ∧
    (∀ r ∈ ((0x100 : Word).toNat, 8 * (1 : Word).toNat) :: Table.ranges ⟨[], 0x7FF8, 16⟩,
      ∀ x, inRange x (0x300 : Word).toNat (16 + 16) → ¬ inRange x r.1 r.2) ∧
    rangeLegal (0x300 : Word).toNat (16 - 16) = true ∧
    (∀ r ∈ ((0x100 : Word).toNat, 8 * (1 : Word).toNat) :: Table.ranges ⟨[], 0x7FF8, 16⟩,
      ∀ x, inRange x (0x300 : Word).toNat (16 - 16) → ¬ inRange x r.1 r.2) ∧
    ∃ r ∈ Table.ranges ⟨[], 0x7FF8, 16⟩, ∃ y, inRange y r.1 r.2 ∧ memOk highField.platform y = false := by
  have h : ∀ n, n ≤ 32 → ∀ r ∈ ((0x100 : Word).toNat, 8 * (1 : Word).toNat) :: Table.ranges ⟨[], 0x7FF8, 16⟩,
      ∀ x, inRange x (0x300 : Word).toNat n → ¬ inRange x r.1 r.2 := by
    intro n hn r hr x hx
    have h1 : (0x100 : Word).toNat = 0x100 := rfl
    have h2 : (0x7FF8 : Word).toNat = 0x7FF8 := rfl
    have h3 : (1 : Word).toNat = 1 := rfl
    have h4 : (0x300 : Word).toNat = 0x300 := rfl
    simp only [Table.ranges, presentRanges, List.nil_append, List.mem_cons, List.not_mem_nil, or_false] at hr
    simp only [inRange] at hx ⊢
    rcases hr with rfl | rfl <;> simp only [h1, h2, h3] <;> omega
  exact ⟨⟨rfl, by decide, by decide⟩, by decide, ⟨by decide, by decide, by decide, overlaps_eq_false.1 (by decide)⟩,
    readTable_eq_ok.1 rfl, by decide, h _ (by decide), by decide, h _ (by decide),
    _, List.mem_singleton.2 rfl, 0x8000, by decide, by decide⟩

theorem witness_DataWriteBusError :
    destOf (.bst 0 0x7FFF) lowMemory = some (0x7FFF, 16) ∧ inRange 0x8000 0x7FFF 16 ∧ lowMemory.mem.wf ∧
    memOk lowMemory.platform 0x8000 = false := by decide

/-- For MmioReadReturnsRegister and OtherRegisterWrites, at the last offset of the window. -/
theorem witness_mmio :
    State.reset.platform.base % 4 = 0 ∧ 0x3C % 4 = 0 ∧ 0x3C < 64 ∧
    (withEvent State.reset (.mmioRead 0x3C 4)).agenda = [.mmioRead (State.reset.platform.base + 0x3C) 4] ∧
    (withEvent State.reset (.mmioWrite 0x3C 4 1)).agenda = [.mmioWrite (State.reset.platform.base + 0x3C) 4 1] ∧
    (withEvent State.reset (.mmioWrite 0x0C 4 6)).agenda = [.mmioWrite (State.reset.platform.base + 0x0C) 4 6] := by decide

theorem witness_UnadmittedAccessRefused :
    ((2 : Nat) ≠ 4 ∨ 0 % 4 ≠ 0 ∨ 0 < State.reset.platform.base ∨ State.reset.platform.base + 64 ≤ 0) ∧
    (withEvent State.reset (.mmioRead 0 2)).agenda = [.mmioRead 0 2] ∧ State.reset.platform.base + 64 ≤ 64 ∧
    (withEvent State.reset (.mmioWrite 64 4 0)).agenda = [.mmioWrite 64 4 0] := by decide

theorem witness_CtrlWriteStartsRun :
    State.reset.platform.base % 4 = 0 ∧ (5 : Word).getLsbD 1 = false ∧ (5 : Word).getLsbD 0 = true ∧
    (4 : Word).getLsbD 1 = false ∧ (4 : Word).getLsbD 0 = false ∧
    (withEvent State.reset (.mmioWrite 0x08 4 5)).agenda = [.mmioWrite (State.reset.platform.base + 0x08) 4 5] ∧
    State.reset.busy = false ∧ running.busy = true ∧ running.quiet ∧ fetch running = .ok (List.replicate 16 0) ∧
    (∀ x, inRange x running.pc.toNat 16 → x ∉ hostWrites running.platform.coherent running.dirty [.store 0x10 1]) ∧
    decode (List.replicate 16 0) = .ok (.halt, []) ∧
    fetch (put running 0 [0xFF]) = .ok (0xFF :: List.replicate 15 0) ∧
    decode (0xFF :: List.replicate 15 0) = .error (.reservedOpcode 0xFF) :=
  ⟨by decide, by decide, by decide, by decide, by decide, rfl, rfl, rfl, coherent_quiet rfl rfl, rfl,
    fun x h => by
      have : x < 16 := h.2
      simp [hostWrites]
      omega,
    rfl, rfl, rfl⟩

theorem witness_CmdPtrWrite :
    State.reset.platform.base % 4 = 0 ∧ State.reset.busy = false ∧ running.busy = true ∧
    (withEvent State.reset (.mmioWrite 0x10 4 0xF)).agenda = [.mmioWrite (State.reset.platform.base + 0x10) 4 0xF] := by
  decide

/-- What SEAL makes of the plaintext `AB` under KA1, as the one field of a table. -/
def sealedByte : State := filled 17 (sealBytes keyed.macKey keyed.encKey [] [0xAB])

theorem sealedByte_verifies :
    openTag sealedByte.macKey sealedByte.encKey (Table.frontFields sealedByte ⟨[], 0x200, 17⟩)
      (Table.lastBytes sealedByte ⟨[], 0x200, 17⟩) = tagOf (Table.lastBytes sealedByte ⟨[], 0x200, 17⟩) := by
  have hl : Table.lastBytes sealedByte ⟨[], 0x200, 17⟩ = sealBytes keyed.macKey keyed.encKey [] [0xAB] :=
    filled_lastBytes (by decide) (sealBytes_length _ _ _ _)
  rw [hl]
  unfold openTag candidate
  rw [tagOf_sealBytes, drop_sealBytes]
  have involution (k : List Byte) (q : Block) (p : List Byte) : ctrxor k q (ctrxor k q p) = p := by
    apply List.ext_getElem (by simp)
    intro i h1 h2
    rw [ctrxor_getElem, ctrxor_getElem, BitVec.xor_assoc, BitVec.xor_self, BitVec.xor_zero]
  have e : sealedByte.encKey = keyed.encKey := rfl
  have m : sealedByte.macKey = keyed.macKey := rfl
  have f : Table.frontFields sealedByte ⟨[], 0x200, 17⟩ = [] := rfl
  rw [e, m, f, involution]

/-- Idle, and during a BST at CMD_PTR, of which the last byte of its destination takes any value and the one just after it
stays; an OPEN with no table, and one of 17 bytes whose tag verifies. -/
theorem witness_SoftReset :
    State.reset.platform.base % 4 = 0 ∧ (3 : Word).getLsbD 1 = true ∧
    (withEvent State.reset (.mmioWrite 0x08 4 3)).agenda = [.mmioWrite (State.reset.platform.base + 0x08) 4 3] ∧
    State.reset.busy = false ∧ running.busy = true ∧ running.platform.plain ∧
    (∃ t, step (withEvent State.reset (.mmioWrite 0x08 4 3)) = .next t) ∧
    (∃ t, step (withEvent (put running 0 (encode (.bst 3 0x2100))) (.mmioWrite 0x08 4 2)) = .next t) ∧
    fetch { put running 0 (encode (.bst 3 0x2100)) with agenda := [] }.tick = .ok (encode (.bst 3 0x2100)) ∧
    decode (encode (.bst 3 0x2100)) = .ok (.bst 3 0x2100, []) ∧
    (∀ s, ¬ inRange 0x2110 (abandonedRange (.bst 3 0x2100) s).1 (abandonedRange (.bst 3 0x2100) s).2) ∧
    (put running 0 (encode (.bst 3 0x2100))).mem.wf ∧
    (∀ s, inRange 0x210F (abandonedRange (.bst 3 0x2100) s).1 (abandonedRange (.bst 3 0x2100) s).2) ∧
    (TableOk sealedByte 0x100 1 ⟨[], 0x200, 17⟩ ∧
      (∀ q ∈ Table.ranges ⟨[], 0x200, 17⟩, plainRange sealedByte.platform q.1 q.2) ∧ 16 ≤ 17 ∧
      rangeLegal (0xFFFFFFFF : Word).toNat (17 - 16) = true ∧
      (∀ q ∈ ((0x100 : Word).toNat, 8 * (1 : Word).toNat) :: Table.ranges ⟨[], 0x200, 17⟩,
        ∀ x, inRange x (0xFFFFFFFF : Word).toNat (17 - 16) → ¬ inRange x q.1 q.2) ∧
      openTag sealedByte.macKey sealedByte.encKey (Table.frontFields sealedByte ⟨[], 0x200, 17⟩)
        (Table.lastBytes sealedByte ⟨[], 0x200, 17⟩) = tagOf (Table.lastBytes sealedByte ⟨[], 0x200, 17⟩)) ∧
    storesMemory (.s2v 0 0 0) = false ∧ TableOk tableP2 0x3300 3 ⟨[.present 0x3100 24, .absent], 0x3200, 14⟩ ∧
    ∀ t, ¬ TableOk running 0 0 t := by
  obtain ⟨t, h, -⟩ := exists_next (o := step (withEvent State.reset (.mmioWrite 0x08 4 3))) (p := fun _ => true) (by decide)
  obtain ⟨u, hu, -⟩ := exists_next
    (o := step (withEvent (put running 0 (encode (.bst 3 0x2100))) (.mmioWrite 0x08 4 2))) (p := fun _ => true) (by decide)
  exact ⟨by decide, by decide, rfl, rfl, rfl, reset_plain, ⟨t, h⟩, ⟨u, hu⟩, rfl, rfl, fun _ => show ¬ inRange 0x2110 0x2100 16 by decide,
    by decide, fun _ => show inRange 0x210F 0x2100 16 by decide,
    ⟨filled_table _ rfl (by decide), fun q hq => by
        simp only [Table.ranges, presentRanges, List.nil_append, List.mem_singleton] at hq
        subst hq
        exact reset_plainRange _ _ (by decide),
      by decide, by decide, oneField_disjoint 17 _ (by decide) _ (by decide), sealedByte_verifies⟩,
    rfl, tableP2_ok,
    fun t ht => by cases ht.key⟩

theorem witness_InterruptLine :
    (∃ t, exec .halt running = .next t) ∧ State.reset.platform.base % 4 = 0 ∧
    (withEvent State.reset (.mmioWrite 0x0C 4 4)).agenda = [.mmioWrite (State.reset.platform.base + 0x0C) 4 4] ∧
    (∃ t, step (withEvent State.reset (.mmioWrite 0x0C 4 4)) = .next t) ∧
    (withEvent State.reset (.mmioWrite 0x08 4 1)).agenda = [.mmioWrite (State.reset.platform.base + 0x08) 4 1] ∧
    ∃ t, step (withEvent State.reset (.mmioWrite 0x08 4 1)) = .next t := by
  obtain ⟨t, h, -⟩ := exists_next (o := step (withEvent State.reset (.mmioWrite 0x0C 4 4))) (p := fun _ => true) (by decide)
  obtain ⟨u, hu, -⟩ := exists_next (o := step (withEvent State.reset (.mmioWrite 0x08 4 1))) (p := fun _ => true) (by decide)
  exact ⟨⟨_, rfl⟩, by decide, rfl, ⟨t, h⟩, rfl, u, hu⟩

/-- Each event, at the last address; both kinds of platform; what is asked of the rest of the run, at a byte that it does
not write. -/
theorem witness_HostVisibility :
    State.reset.mem.wf ∧ kindAt State.reset.platform (0xFFFFFFFF : Word).toNat = some .plain ∧
    (withEvent State.reset (.store 0xFFFFFFFF 1)).agenda = [.store 0xFFFFFFFF 1] ∧
    (withEvent State.reset (.load 0xFFFFFFFF)).agenda = [.load 0xFFFFFFFF] ∧
    (withEvent State.reset (.clean 0xFFFFFFFF)).agenda = [.clean 0xFFFFFFFF] ∧
    (withEvent State.reset (.invalidate 0xFFFFFFFF)).agenda = [.invalidate 0xFFFFFFFF] ∧
    State.reset.platform.coherent = true ∧ cached.platform.coherent = false ∧ State.reset.busy = false ∧
    cached.busy = false ∧ running.busy = true ∧ (0x40 : Nat) ≠ 0x41 ∧
    (running.busy && runWrites (runFuel running) (hostStore running 0x40 1) 0x40) = false ∧
    0x40 ∈ { cached with busy := true, stale := [0x40] }.stale ∧
    ({ cached with busy := true, stale := [0x40] }.busy &&
      runWrites (runFuel cached) (hostInvalidate { cached with busy := true, stale := [0x40] } 0x40) 0x40) = false := by
  decide

/-- A run of two NOPs and a HALT in which the host stores to 0x40 after the first NOP's and the second's turn. -/
def racing : State :=
  { put running 0 (encode .nop ++ encode .nop) with agenda := [.seqTurn, .seqTurn, .store 0x40 1] }

/-- A run of a BST to 0x2100 and a HALT, and first a load of the host. -/
def loading (a : Word) : State := withEvent (put running 0 (encode (.bst 3 0x2100))) (.load a)

/-- `k` turns of a run give a state with a property. -/
def runIs (k : Nat) (s : State) (p : State → Bool) : Bool :=
  match runWithin k s with
  | some t => p t
  | none => false

theorem exists_run {k : Nat} {s : State} {p : State → Bool} (h : runIs k s p = true) :
    ∃ t, runWithin k s = some t ∧ p t = true := by
  unfold runIs at h
  split at h
  · next t ht => exact ⟨t, ht, h⟩
  · cases h

theorem exists_turn {s : State} {p : State → Bool} (h : (sequencerTurn s).any p = true) :
    ∃ u, sequencerTurn s = some u ∧ p u = true := by
  cases hs : sequencerTurn s with
  | none => rw [hs] at h; cases h
  | some u => rw [hs] at h; exact ⟨u, rfl, h⟩

/-- A run of a HALT, and a store after it. -/
def ending : State := { running with agenda := [.seqTurn, .store 0x40 1] }

/-- Each clause: a store to come after two commands, met in the run; a store behind a wait; a store after the turn that ends
the run; a load before the BST, of a byte that it writes and of the byte just after. -/
theorem witness_RacesReachOverTheRun :
    ((∃ u, sequencerTurn racing = some u ∧ (u.raced == [0x40]) = true) ∧ meets 3 (racing.drawn 3) = true ∧
      0x40 ∈ racing.comingWrites 3 ∧ racing.agenda.length = 3 + ([] : List Event).length ∧
      ∃ t, runWithin 2 racing = some t ∧ (t.busy && t.agenda == [.store 0x40 1]) = true) ∧
    (0x40 ∉ running.raced ∧ running.platform.coherent = true ∧ 0x40 ∉ cached.dirty ∧
      ([.seqTurn, .awaitIdle, .store 0x40 1] : List Event) = [.seqTurn] ++ .awaitIdle :: [.store 0x40 1] ∧
      (∀ a v, Event.store a v ∈ [Event.seqTurn] → a.toNat ≠ 0x40)) ∧
    ((∃ u, sequencerTurn ending = some u ∧ u.busy = true) ∧
      ∀ (k : Nat) (t : State) (e : Event) (es : List Event), runWithin k ending = some t → t.busy = true →
        t.agenda = e :: es → 0x40 ∉ hostWrites t.platform.coherent t.dirty [e]) ∧
    (∀ (k : Nat) (t : State), runWithin k ending = some t → t.busy = true → ∃ v, step t = .next v) ∧
    ((loading 0x2100).busy = true ∧ (loading 0x2100).agenda = [.load 0x2100] ∧
      ∃ t, step (loading 0x2100) = .next t ∧ runIs 1 t (fun u => u.written.contains (0x2100 : Word).toNat) = true) ∧
    (loading 0x2110).pcAligned ∧ (loading 0x2110).platform.coherent = true ∧
    ∃ t, step (loading 0x2110) = .next t ∧
      runIs 2 t (fun u => !u.busy && !u.written.contains (0x2110 : Word).toNat) = true :=
  ⟨⟨exists_turn (by decide), by decide, by decide, rfl, exists_run (by decide)⟩,
    ⟨by decide, rfl, by decide, rfl, by simp⟩,
    ⟨exists_turn (by decide), fun k t e es h hb ha => by
      match k, h with
      | 0, h => injection h with h; subst h; injection ha with ha; subst ha; exact nofun
      | 1, h => injection h with h; subst h; cases hb
      | k + 2, h => cases h⟩,
    fun k t h hb => by
      match k, h with
      | 0, h => injection h with h; subst h; exact ⟨_, rfl⟩
      | 1, h => injection h with h; subst h; cases hb
      | k + 2, h => (cases h),
    ⟨rfl, rfl, exists_next (p := fun t => runIs 1 t _) (by decide)⟩, by decide, rfl,
    exists_next (p := fun t => runIs 2 t _) (by decide)⟩

end Sys2Proof.Tests
end

section
/-! PROOFS. The laws behind the statements about the state as a whole: what a command leaves before it ends, the
invariant, the keys, the MMIO window and a run that ends at its next turn. -/

namespace Sys2Proof.Machine

/-! ### What a command leaves before it completes or faults -/

/-- How a command other than HALT changes the state before it completes or takes a fault. -/
inductive Effect (i : Instr) (s : State) : State → Prop where
  | nothing : Effect i s s
  | change (u : State) (h : Change i s u) : Effect i s u
  | store (dst : Nat) (bs : List Byte) (after : State → State) (hs : storesMemory i = true)
      (hl : rangeLegal dst bs.length = true) (ha : AfterStore i after) : Effect i s (after (memWrite s dst bs))
  | scramble (dst n : Nat) (hs : storesMemory i = true) (hl : rangeLegal dst n = true) : Effect i s (scramble s dst n)

/-- How a command other than HALT ends: it completes, or a fault is taken (spec/46_sequencer_data.md R251,
spec/60_exceptions.md R290). -/
def Ends (u t : State) : Prop := (u.pc ≠ lastPc ∧ t = u.next) ∨ ∃ c info, t = raise u c info

theorem ends_of_complete {u t : State} (h : complete u = .next t) : Ends u t :=
  (complete_cases h).imp_right fun ⟨_, ht⟩ => ⟨_, _, ht⟩

/-- The end of a command writes CMD_PTR, or BUSY and the fault record, and nothing else. -/
theorem Ends.frame {u t : State} (h : Ends u t) :
    t = { u with
      pc := t.pc, busy := t.busy, err := t.err, errcode := t.errcode, errPc := t.errPc, errInfo := t.errInfo } := by
  rcases h with ⟨-, rfl⟩ | ⟨c, info, rfl⟩ <;> rfl

/-- The next state of a command is that of HALT, or an effect that has ended. -/
theorem exec_effect {i : Instr} {s t : State} (h : exec i s = .next t) :
    (i = .halt ∧ t = { s with busy := false, done := true }) ∨ (i ≠ .halt ∧ ∃ u, Effect i s u ∧ Ends u t) := by
  by_cases hi : i = .halt
  · subst hi
    injection h with h
    exact .inl ⟨rfl, h.symm⟩
  refine .inr ⟨hi, ?_⟩
  rcases exec_cases h with ⟨hh, -⟩ | ⟨u, hu, hc⟩ | ⟨c, info, ht⟩ | ⟨dst, bs, after, hs, hd, ha, hst⟩
  · exact absurd hh hi
  · exact ⟨u, .change u hu, ends_of_complete hc⟩
  · exact ⟨s, .nothing, .inr ⟨c, info, ht⟩⟩
  · rcases storeThen_cases hst with ⟨-, hc⟩ | ⟨x, -, -, ht⟩
    · exact ⟨_, .store dst bs after hs (destOf_legal hd) ha, ends_of_complete hc⟩
    · exact ⟨_, .scramble dst bs.length hs (destOf_legal hd), .inr ⟨_, _, ht⟩⟩

theorem Effect.frame {i : Instr} {s u : State} (h : Effect i s u) :
    u = { s with
      b := u.b, klen := u.klen, macKey := u.macKey, encKey := u.encKey, keyValid := u.keyValid, eq := u.eq
      mem := u.mem, written := u.written, stale := u.stale } := by
  cases h with
  | nothing => rfl
  | change _ h => cases h <;> rfl
  | store dst bs after hs hl ha => obtain ⟨rfl, -⟩ | ⟨rd, v, -, rfl⟩ := ha <;> rfl
  | scramble dst n hs hl => rfl

theorem Effect.pc {i : Instr} {s u : State} (h : Effect i s u) : u.pc = s.pc := by rw [h.frame]

theorem Effect.busy {i : Instr} {s u : State} (h : Effect i s u) : u.busy = s.busy := by rw [h.frame]

theorem Effect.control {i : Instr} {s u : State} (h : Effect i s u) :
    u.done = s.done ∧ u.ie = s.ie ∧ u.platform = s.platform ∧ u.agenda = s.agenda ∧ u.raced = s.raced ∧
      u.dirty = s.dirty ∧ u.hostData = s.hostData ∧ u.draws = s.draws := by
  rw [h.frame]
  simp only [and_self]

/-- EQ is written by CTEQ alone (spec/45_aead.md R224). -/
theorem Effect.eq {i : Instr} {s u : State} (h : Effect i s u) (hi : ∀ r q, i ≠ .cteq r q) : u.eq = s.eq := by
  cases h with
  | nothing => rfl
  | change _ h =>
    cases h with
    | cteq r q => exact absurd rfl (hi r q)
    | _ => rfl
  | store dst bs after hs hl ha => obtain ⟨rfl, -⟩ | ⟨rd, v, -, rfl⟩ := ha <;> rfl
  | scramble dst n hs hl => rfl

/-- The key store is written by KEYLD and KEYCLR alone (spec/10_state.md R23). -/
theorem Effect.keys {i : Instr} {s u : State} (h : Effect i s u) (hl : ∀ a n, i ≠ .keyld a n) (hc : i ≠ .keyclr) :
    u.keyValid = s.keyValid ∧ u.klen = s.klen ∧ u.macKey = s.macKey ∧ u.encKey = s.encKey := by
  cases h with
  | nothing => exact ⟨rfl, rfl, rfl, rfl⟩
  | change _ h =>
    cases h with
    | keyld a n => exact absurd rfl (hl a n)
    | keyclr => exact absurd rfl hc
    | _ => exact ⟨rfl, rfl, rfl, rfl⟩
  | store dst bs after hs hl ha => obtain ⟨rfl, -⟩ | ⟨rd, v, -, rfl⟩ := ha <;> exact ⟨rfl, rfl, rfl, rfl⟩
  | scramble dst n hs hl => exact ⟨rfl, rfl, rfl, rfl⟩

theorem Effect.marks_of_storesNothing {i : Instr} {s u : State} (h : Effect i s u) (hi : storesMemory i = false) :
    u.written = s.written ∧ u.stale = s.stale := by
  cases h with
  | nothing => exact ⟨rfl, rfl⟩
  | change _ h => cases h <;> exact ⟨rfl, rfl⟩
  | store dst bs after hs hl ha => rw [hi] at hs; cases hs
  | scramble dst n hs hl => rw [hi] at hs; cases hs

theorem Effect.getB {i : Instr} {s u : State} {r : Reg} (h : Effect i s u) (hr : destReg i ≠ some r) :
    u.getB r = s.getB r := by
  have other : ∀ (t : State) (rd : Reg) (v : Block), destReg i = some rd → (t.setB rd v).getB r = t.getB r :=
    fun t rd v hd => getB_setB_other t rd r v fun hq => hr (hq ▸ hd)
  cases h with
  | nothing => rfl
  | change _ h =>
    cases h with
    | reg _ rd v _ hd => exact other s rd v hd
    | _ => rfl
  | store dst bs after hs hl ha =>
    obtain ⟨rfl, -⟩ | ⟨rd, v, hd, rfl⟩ := ha
    · rfl
    · exact other (memWrite s dst bs) rd v hd
  | scramble dst n hs hl => rfl

/-! ### CMD_PTR -/

/-- CMD_PTR is aligned exactly where it is a multiple of 16. -/
theorem aligned_iff {pc : Word} : pc.extractLsb' 0 4 = 0 ↔ pc.toNat % 16 = 0 := by
  rw [← BitVec.toNat_inj]
  simp

/-- Below the last address an aligned CMD_PTR advances without wrapping (spec/10_state.md R25). -/
theorem toNat_add_of_aligned {pc : Word} (ha : pc.extractLsb' 0 4 = 0) (hl : pc ≠ lastPc) :
    (pc + 16).toNat = pc.toNat + 16 := by
  have h0 := aligned_iff.1 ha
  have h1 : pc.toNat ≠ 0xFFFFFFF0 := fun h => hl (BitVec.eq_of_toNat_eq h)
  have h2 := pc.isLt
  rw [BitVec.toNat_add, show (16 : Word).toNat = 16 from rfl]
  omega

theorem aligned_add {pc : Word} (ha : pc.extractLsb' 0 4 = 0) : (pc + 16).extractLsb' 0 4 = 0 := by
  have h0 := aligned_iff.1 ha
  refine aligned_iff.2 ?_
  rw [BitVec.toNat_add, show (16 : Word).toNat = 16 from rfl]
  omega

/-- The mask of a write of CMD_PTR keeps bits [31:4] and clears bits [3:0] (spec/10_state.md R36). -/
theorem cmdPtr_mask (v : Word) :
    (v &&& 0xFFFFFFF0).extractLsb' 4 28 = v.extractLsb' 4 28 ∧ (v &&& 0xFFFFFFF0).extractLsb' 0 4 = 0 := by
  have hi : (0xFFFFFFF0 : Word).extractLsb' 4 28 = BitVec.allOnes 28 := by decide
  have lo : (0xFFFFFFF0 : Word).extractLsb' 0 4 = 0#4 := by decide
  rw [BitVec.extractLsb'_and, BitVec.extractLsb'_and, hi, lo]
  exact ⟨BitVec.and_allOnes, BitVec.and_zero⟩

/-! ### The invariant -/

theorem faultCode_range (c : FaultCode) : 1 ≤ c.code.toNat ∧ c.code.toNat ≤ 0x0B := by
  cases c <;> decide

/-- The invariant speaks of memory only through its canonical form, and of the host's part of the state not at all. -/
theorem State.Inv.withMem {s : State} (h : s.Inv) {m : Memory} (hm : m.wf) (r d w st : List Nat) :
    { s with mem := m, raced := r, dirty := d, written := w, stale := st }.Inv := by
  obtain ⟨hpc, hkeys, hstatus, -⟩ := h
  exact ⟨hpc, hkeys, hstatus, hm⟩

theorem State.Inv.mem_wf {s : State} (h : s.Inv) : s.mem.wf := by
  obtain ⟨-, -, -, hm⟩ := h
  exact hm

theorem State.Inv.memWrite {s : State} (h : s.Inv) {a : Nat} {bs : List Byte}
    (hl : rangeLegal a bs.length = true) : (memWrite s a bs).Inv :=
  h.withMem (memWrite_wf h.mem_wf hl) ..

theorem State.Inv.scramble {s : State} (h : s.Inv) {a n : Nat} (hl : rangeLegal a n = true) : (scramble s a n).Inv :=
  h.memWrite (by simpa using hl)

/-- A fault of a running command keeps the invariant: DONE is 0 during a run (spec/10_state.md R35). -/
theorem State.Inv.raise {s : State} (h : s.Inv) (hb : s.busy = true) (c : FaultCode) (info : Word) :
    (raise s c info).Inv := by
  obtain ⟨hpc, hkeys, ⟨-, hrun, -, -⟩, hm⟩ := h
  have hdone : s.done = false := (hrun hb).1
  exact ⟨hpc, hkeys, ⟨by simp [hdone], by simp, by simp, fun _ => faultCode_range c⟩, hm⟩

theorem State.Inv.next {s : State} (h : s.Inv) : s.next.Inv := by
  obtain ⟨hpc, hkeys, hstatus, hm⟩ := h
  exact ⟨aligned_add hpc, hkeys, hstatus, hm⟩

/-- HALT of a running command keeps the invariant: ERR is 0 during a run (spec/10_state.md R35). -/
theorem State.Inv.halt {s : State} (h : s.Inv) (hb : s.busy = true) : { s with busy := false, done := true }.Inv := by
  obtain ⟨hpc, hkeys, ⟨-, hrun, hcode, hcode'⟩, hm⟩ := h
  have herr : s.err = false := (hrun hb).2
  exact ⟨hpc, hkeys, ⟨by simp [herr], by simp, hcode, hcode'⟩, hm⟩

/-- The halves of a key of an admitted length are keys of a size of `KEYSIZES` (spec/45_aead.md R222). -/
theorem keyHalves {n : Nat} (hn : keyLengthOk n = true) {bs : List Byte} (hl : bs.length = n) :
    n / 2 ∈ Config.keySizes ∧ n / 2 ≠ 0 ∧ (bs.take (n / 2)).length = n / 2 ∧ (bs.drop (n / 2)).length = n / 2 := by
  obtain ⟨k, hk, hkn⟩ := List.any_eq_true.1 hn
  obtain rfl : n = 2 * k := by simpa using hkn
  have hpos : k ≠ 0 := by rintro rfl; revert hk; decide
  rw [List.length_take, List.length_drop, hl, Nat.mul_div_cancel_left k (by decide)]
  exact ⟨hk, hpos, by omega, by omega⟩

theorem Change.inv {i : Instr} {s u : State} (h : Change i s u) (hs : s.Inv) : u.Inv := by
  obtain ⟨hpc, hkeys, hstatus, hm⟩ := hs
  cases h with
  | nop => exact ⟨hpc, hkeys, hstatus, hm⟩
  | keyld a n _ hn bs hb =>
    obtain ⟨-, -, rfl⟩ := readOperand_eq_ok.1 hb
    obtain ⟨hsize, hpos, hmac, henc⟩ := keyHalves hn (seqBytes_length s (.data 0) a.toNat n.toNat)
    exact ⟨hpc, ⟨.inr hsize, hmac, henc, by simpa using hpos⟩, hstatus, hm⟩
  | keyclr => exact ⟨hpc, ⟨.inl rfl, rfl, rfl, by simp⟩, hstatus, hm⟩
  | cteq => exact ⟨hpc, hkeys, hstatus, hm⟩
  | reg => exact ⟨hpc, hkeys, hstatus, hm⟩

theorem Effect.inv {i : Instr} {s u : State} (h : Effect i s u) (hs : s.Inv) : u.Inv := by
  cases h with
  | nothing => exact hs
  | change _ h => exact h.inv hs
  | store dst bs after _ hl ha =>
    have hw : (memWrite s dst bs).Inv := hs.memWrite hl
    obtain ⟨rfl, -⟩ | ⟨rd, v, -, rfl⟩ := ha
    · exact hw
    · exact hw
  | scramble dst n _ hl => exact hs.scramble hl

/-- A command of a run keeps the invariant. -/
theorem exec_inv {i : Instr} {s t : State} (hs : s.Inv) (hb : s.busy = true) (h : exec i s = .next t) : t.Inv := by
  rcases exec_effect h with ⟨-, rfl⟩ | ⟨-, u, hu, ⟨-, rfl⟩ | ⟨c, info, rfl⟩⟩
  · exact hs.halt hb
  · exact (hu.inv hs).next
  · exact (hu.inv hs).raise (hu.busy.trans hb) c info

theorem sequencerStep_inv {s t : State} (hs : s.Inv) (hb : s.busy = true) (h : sequencerStep s = .next t) : t.Inv := by
  rcases sequencerStep_cases h with ⟨c, info, rfl⟩ | ⟨i, hi⟩
  · exact hs.raise hb c info
  · exact exec_inv hs hb hi

/-- The reset values meet the invariant whatever memory in canonical form they leave (spec/10_state.md R42). -/
theorem resetBlock_inv {s : State} (h : s.mem.wf) : (resetBlock s).Inv :=
  ⟨rfl, (by decide : State.reset.keysOk), (by decide : State.reset.statusOk), h⟩

theorem softReset_inv {s : State} (h : s.mem.wf) : (softReset s).Inv := by
  rcases softReset_cases s with he | ⟨bs, i, rest, -, -, -, he⟩ <;> rw [he]
  · exact resetBlock_inv h
  · exact resetBlock_inv (abandon_wf h i)

theorem startRun_inv {s : State} (h : s.Inv) : (startRun s).Inv := by
  obtain ⟨hpc, hkeys, -, hm⟩ := h
  exact ⟨hpc, hkeys, by simp [State.statusOk], hm⟩

theorem writeCtrl_inv {s : State} (h : s.Inv) (v : Word) : (writeCtrl s v).Inv := by
  have hie : { s with ie := v.getLsbD 2 }.Inv := h
  rcases writeCtrl_cases s v with ⟨-, he⟩ | ⟨-, -, -, he⟩ | ⟨-, -, he⟩ <;> rw [he]
  · exact softReset_inv h.mem_wf
  · exact startRun_inv hie
  · exact hie

/-- A write of STATUS clears ERR only together with ERRCODE (spec/10_state.md R35). -/
theorem writeStatus_inv {s : State} (h : s.Inv) (v : Word) : (writeStatus s v).Inv := by
  obtain ⟨hpc, hkeys, ⟨hboth, hrun, hcode, hcode'⟩, hm⟩ := h
  refine ⟨hpc, hkeys, ?_, hm⟩
  simp only [State.statusOk, writeStatus_done, writeStatus_err, writeStatus_busy, writeStatus_errcode]
  refine ⟨fun hd => hboth (by simp_all), fun hb => by simp [hrun hb], ?_⟩
  cases hv : v.getLsbD 2 with
  | true => simp
  | false => simpa using ⟨hcode, hcode'⟩

theorem writeCmdPtr_inv {s : State} (h : s.Inv) (v : Word) : (writeCmdPtr s v).Inv := by
  obtain ⟨hpc, hkeys, hstatus, hm⟩ := h
  unfold writeCmdPtr
  split
  · exact ⟨hpc, hkeys, hstatus, hm⟩
  · exact ⟨(cmdPtr_mask v).2, hkeys, hstatus, hm⟩

theorem mmioWrite_inv {s : State} (h : s.Inv) (off : Nat) (v : Word) : (mmioWrite s off v).Inv := by
  rcases mmioWrite_cases s off v with ⟨-, he⟩ | ⟨-, he⟩ | ⟨-, he⟩ | he <;> rw [he]
  · exact writeCtrl_inv h v
  · exact writeStatus_inv h v
  · exact writeCmdPtr_inv h v
  · exact h

/-- A clean changes memory and the host's part of the state only. -/
theorem hostClean_frame (s : State) (a : Nat) :
    hostClean s a = { s with
      mem := (hostClean s a).mem, raced := (hostClean s a).raced, dirty := (hostClean s a).dirty } := by
  unfold hostClean
  split <;> rfl

/-- An invalidation changes memory and the host's part of the state only. -/
theorem hostInvalidate_frame (s : State) (a : Nat) :
    hostInvalidate s a = { s with
      mem := (hostInvalidate s a).mem, raced := (hostInvalidate s a).raced, dirty := (hostInvalidate s a).dirty
      stale := (hostInvalidate s a).stale } := by
  unfold hostInvalidate
  split <;> rfl

theorem hostStep_inv {e : Event} {s t : State} (hs : s.Inv) (h : hostStep e s = .next t) : t.Inv := by
  rcases hostStepWith_cases h with
    rfl | ⟨w, rfl⟩ | ⟨_, _, off, v, -, -, rfl⟩ | ⟨a, ha, ⟨v, -, rfl⟩ | ⟨-, rfl⟩ | ⟨-, rfl⟩⟩
  · exact hs
  · exact hs
  · exact mmioWrite_inv hs off v
  · exact hs.withMem (hostStore_wf hs.mem_wf ha v) ..
  · rw [hostClean_frame]; exact hs.withMem (hostClean_wf hs.mem_wf ha) ..
  · rw [hostInvalidate_frame]; exact hs.withMem (hostInvalidate_wf hs.mem_wf ha) ..

/-- Every step keeps the invariant: a cycle of the sequencer, an idle step, an event of the host. -/
theorem step_inv {s t : State} (hs : s.Inv) (h : step s = .next t) : t.Inv := by
  rcases step_cases h with ⟨u, hu, hq⟩ | ⟨-, -, rfl⟩ | ⟨e, rest, -, -, he⟩
  · obtain ⟨hb, es, rfl⟩ := sequencerTurn_frame hu
    exact sequencerStep_inv (s := { s with agenda := es, raced := foreseen s.agenda.length s }.tick) hs hb hq
  · exact hs
  · exact hostStep_inv (s := { s with agenda := rest }.tick) hs he

/-! ### Commands that do not read the keys -/

/-- `s` with other keys of the same key store. -/
def State.withKeys (s : State) (mk ek : List Byte) : State := { s with macKey := mk, encKey := ek }

/-- Two states that differ in the bytes of the keys at most. -/
def SameButKeys (s s' : State) : Prop := ∃ mk ek, s' = s.withKeys mk ek

/-- Where `o` gives a next state, `o'` gives one that differs from it in the keys at most. -/
def Follows (o o' : Outcome) : Prop := ∀ t, o = .next t → ∃ u, o' = .next u ∧ SameButKeys t u

theorem SameButKeys.follows_next {s s' : State} (h : SameButKeys s s') : Follows (.next s) (.next s') := by
  intro t ht
  injection ht with ht
  exact ⟨s', rfl, ht ▸ h⟩

theorem SameButKeys.follows_complete {s s' : State} (h : SameButKeys s s') : Follows (complete s) (complete s') := by
  obtain ⟨mk, ek, rfl⟩ := h
  intro t ht
  rcases complete_cases ht with ⟨hl, rfl⟩ | ⟨hl, rfl⟩
  · exact ⟨_, complete_of_ne_last (s := s.withKeys mk ek) hl, mk, ek, rfl⟩
  · exact ⟨_, complete_of_last (s := s.withKeys mk ek) hl, mk, ek, rfl⟩

theorem SameButKeys.follows_stop {s s' : State} (h : SameButKeys s s') (e : Stop) : Follows (stop s e) (stop s' e) := by
  obtain ⟨mk, ek, rfl⟩ := h
  intro t ht
  obtain ⟨c, info, rfl, rfl⟩ := stop_eq_next.1 ht
  exact ⟨_, rfl, mk, ek, rfl⟩

/-- A command that stores nothing, whose checks do not read the keys. -/
theorem SameButKeys.follows_conclude {s s' : State} (h : SameButKeys s s') {α : Type} (r : Except Stop α)
    {f g : α → State} (hfg : ∀ x, SameButKeys (f x) (g x)) :
    Follows (conclude s (r >>= fun x => .ok (f x))) (conclude s' (r >>= fun x => .ok (g x))) := by
  cases r with
  | ok x => exact (hfg x).follows_complete
  | error e => exact h.follows_stop e

/-- The write stage of a command that writes no register. -/
theorem SameButKeys.follows_storeThen {s s' : State} (h : SameButKeys s s') (dst : Nat) (bs : List Byte) :
    Follows (storeThen s dst bs id) (storeThen s' dst bs id) := by
  obtain ⟨mk, ek, rfl⟩ := h
  have ha : access (s.withKeys mk ek) [(dst, bs.length)] = access s [(dst, bs.length)] := rfl
  unfold storeThen
  rw [ha]
  split
  · exact SameButKeys.follows_complete ⟨mk, ek, rfl⟩
  · exact SameButKeys.follows_stop ⟨mk, ek, rfl⟩ _

/-- A command not marked Key does the same whatever the keys are (spec/10_state.md R23, spec/30_encoding.md R105). -/
theorem exec_withKeys_follows {i : Instr} (hi : needsKey i = false) (s : State) (mk ek : List Byte) :
    Follows (exec i s) (exec i (s.withKeys mk ek)) := by
  have hk : SameButKeys s (s.withKeys mk ek) := ⟨mk, ek, rfl⟩
  -- a register written with a value that does not depend on the keys
  have reg : ∀ (rd : Reg) (v : Block), SameButKeys (s.setB rd v) ((s.withKeys mk ek).setB rd v) :=
    fun _ _ => ⟨mk, ek, rfl⟩
  cases i with
  | halt => exact SameButKeys.follows_next ⟨mk, ek, rfl⟩
  | nop => exact hk.follows_complete
  | keyld a n =>
    simp only [exec, execKeyld, ← bind_assoc]
    exact hk.follows_conclude (check (keyLengthOk n.toNat) .invalidKey n >>= fun _ => readOperand s a n.toNat)
      fun _ => ⟨_, _, rfl⟩
  | keyclr => exact SameButKeys.follows_complete ⟨[], [], rfl⟩
  | bld rd a => exact hk.follows_conclude (readOperand s a 16) fun _ => reg rd _
  | bst rs1 a =>
    have hp : bstPlan (s.withKeys mk ek) rs1 a = bstPlan s rs1 a := rfl
    simp only [exec, execBst, hp]
    split
    · exact hk.follows_storeThen _ _
    · exact hk.follows_stop _
  | bzero rd => exact (reg rd _).follows_complete
  | bmov rd rs1 => exact (reg rd _).follows_complete
  | bxor rd rs1 rs2 => exact (reg rd _).follows_complete
  | cteq rs1 rs2 => exact SameButKeys.follows_complete ⟨mk, ek, rfl⟩
  | dbl rd rs1 => exact (reg rd _).follows_complete
  | ctrmask rd rs1 => exact (reg rd _).follows_complete
  | padxor rd rs1 a n =>
    simp only [exec, execPadxor, ← bind_assoc]
    exact hk.follows_conclude (check (decide (n.toNat ≤ 15)) .contract shortOnly >>= fun _ => readOperand s a n.toNat)
      fun _ => reg rd _
  | xorend rs1 a b n =>
    have hp : xorendPlan (s.withKeys mk ek) rs1 a b n = xorendPlan s rs1 a b n := rfl
    simp only [exec, execXorend, hp]
    split
    · exact hk.follows_storeThen _ _
    · exact hk.follows_stop _
  | _ => cases hi

theorem mmioRead_withKeys (s : State) (mk ek : List Byte) (off : Nat) :
    mmioRead (s.withKeys mk ek) off = mmioRead s off := rfl

/-! ### Accesses to the window -/

/-- A naturally aligned 32-bit access of a window at an aligned BASE is admitted (spec/10_state.md R30, R31). -/
theorem mmioOffset_window {p : Platform} {off : Nat} (hb : p.base % 4 = 0) (ho : off % 4 = 0) (hl : off < 64) :
    mmioOffset p (p.base + off) 4 = some off := by
  unfold mmioOffset
  rw [Nat.add_sub_cancel_left]
  exact if_pos ⟨rfl, by omega, by omega, Nat.add_lt_add_left hl _, ho⟩

/-- Any other access is refused (spec/10_state.md R31). -/
theorem mmioOffset_eq_none {p : Platform} {addr width : Nat}
    (h : width ≠ 4 ∨ addr % 4 ≠ 0 ∨ addr < p.base ∨ p.base + 64 ≤ addr) : mmioOffset p addr width = none := by
  unfold mmioOffset
  rw [if_neg]
  simp only [Config.windowBytes]
  omega

/-- The state in which an event of the host takes effect: the event is off the agenda and the draw counter moved on. -/
def State.took (s : State) (rest : List Event) : State := { s with agenda := rest }.tick

theorem step_mmioRead {s : State} {addr width off : Nat} {rest : List Event}
    (h : s.agenda = .mmioRead addr width :: rest) (ho : mmioOffset s.platform addr width = some off) :
    step s = .next { s.took rest with hostData := mmioRead s off } := by
  rw [step_of_event h nofun nofun]
  simp only [hostStep, hostStepWith, tick_platform, ho]
  rfl

theorem step_mmioWrite {s : State} {addr width off : Nat} {v : Word} {rest : List Event}
    (h : s.agenda = .mmioWrite addr width v :: rest) (ho : mmioOffset s.platform addr width = some off) :
    step s = .next (mmioWrite (s.took rest) off v) := by
  rw [step_of_event h nofun nofun]
  simp only [hostStep, hostStepWith, tick_platform, ho]
  rfl

theorem step_mmioRead_refused {s : State} {addr width : Nat} {rest : List Event}
    (h : s.agenda = .mmioRead addr width :: rest) (ho : mmioOffset s.platform addr width = none) :
    step s = .refused (.hostAccess addr) := by
  rw [step_of_event h nofun nofun]
  simp only [hostStep, hostStepWith, tick_platform, ho]

theorem step_mmioWrite_refused {s : State} {addr width : Nat} {v : Word} {rest : List Event}
    (h : s.agenda = .mmioWrite addr width v :: rest) (ho : mmioOffset s.platform addr width = none) :
    step s = .refused (.hostAccess addr) := by
  rw [step_of_event h nofun nofun]
  simp only [hostStep, hostStepWith, tick_platform, ho]

@[simp] theorem mmioWrite_ctrl (s : State) (v : Word) : mmioWrite s 0x08 v = writeCtrl s v := rfl

@[simp] theorem mmioWrite_status (s : State) (v : Word) : mmioWrite s 0x0C v = writeStatus s v := rfl

@[simp] theorem mmioWrite_cmdPtr (s : State) (v : Word) : mmioWrite s 0x10 v = writeCmdPtr s v := rfl

/-- The read-only and reserved registers ignore a write (spec/10_state.md R32, R33, R37-R40). -/
theorem mmioWrite_ignored {s : State} {off : Nat} {v : Word} (h1 : off ≠ 0x08) (h2 : off ≠ 0x0C) (h3 : off ≠ 0x10) :
    mmioWrite s off v = s := by
  unfold mmioWrite
  rw [if_neg h1, if_neg h2, if_neg h3]

theorem step_writeCtrl {s : State} {v : Word} {rest : List Event} (hb : s.platform.base % 4 = 0)
    (ha : s.agenda = .mmioWrite (s.platform.base + 0x08) 4 v :: rest) :
    step s = .next (writeCtrl (s.took rest) v) :=
  step_mmioWrite ha (mmioOffset_window hb rfl (by decide))

/-- A write of CMD_PTR is ignored during a run and takes the masked word while idle (spec/10_state.md R36). -/
theorem writeCmdPtr_eq (s : State) (v : Word) :
    writeCmdPtr s v = { s with pc := if s.busy then s.pc else v &&& 0xFFFFFFF0 } := by
  unfold writeCmdPtr
  split <;> rfl

/-- A 1 clears DONE, or ERR with ERRCODE, and a 0 leaves them (spec/10_state.md R35). -/
theorem writeStatus_cleared (s : State) (v : Word) :
    writeStatus s v = { s with
      done := if v.getLsbD 1 then false else s.done
      err := if v.getLsbD 2 then false else s.err
      errcode := if v.getLsbD 2 then 0 else s.errcode } := by
  unfold writeStatus
  cases v.getLsbD 1 <;> cases v.getLsbD 2 <;> simp

/-! ### The interrupt line -/

theorem irq_raise (s : State) (c : FaultCode) (info : Word) : (raise s c info).irq = s.ie := by
  simp [State.irq]

theorem irq_halt (s : State) : { s with busy := false, done := true }.irq = s.ie := by
  simp [State.irq]

theorem irq_softReset (s : State) : (softReset s).irq = false := by
  rcases softReset_cases s with h | ⟨_, _, _, -, -, -, h⟩ <;> rw [h] <;> rfl

/-- A soft reset, a GO that starts a run and a clear of IE lower the line (spec/60_exceptions.md R295). -/
theorem irq_writeCtrl (s : State) (v : Word) :
    (writeCtrl s v).irq =
      (!v.getLsbD 1 && v.getLsbD 2 && !(v.getLsbD 0 && !s.busy) && (s.done || s.err)) := by
  rcases writeCtrl_cases s v with ⟨h1, he⟩ | ⟨h1, h0, hb, he⟩ | ⟨h1, h0, he⟩ <;> rw [he]
  · rw [irq_softReset, h1]
    rfl
  · simp [State.irq, h0, hb]
  · show (v.getLsbD 2 && (s.done || s.err)) = _
    rcases h0 with h0 | h0 <;>
      simp only [h1, h0, Bool.not_false, Bool.not_true, Bool.false_and, Bool.and_false, Bool.true_and, Bool.and_true]

/-! ### A run that ends at its next turn -/

/-- What a turn foresees was raced before, or is written by the events to come. -/
theorem mem_foreseen {n x : Nat} {s : State} (h : x ∈ foreseen n s) :
    x ∈ hostWrites s.platform.coherent s.dirty s.agenda ∨ x ∈ s.raced := by
  obtain ⟨m, hm, -, -⟩ := foreseen_spec n s
  rw [hm, mem_drawn] at h
  exact h.imp_left hostWrites_of_take

/-- A fetch of bytes that are not hidden delivers them as they stand in memory. -/
theorem fetch_visible {s : State} (hp : plainRange s.platform s.pc.toNat 16)
    (hv : ∀ x, inRange x s.pc.toNat 16 → hidden s x = false) :
    fetch s = .ok ((addresses s.pc.toNat 16).map s.mem.read) :=
  fetch_eq_ok.2 ⟨hp, List.map_congr_left fun x hx => (seqByte_visible (hv x (mem_addresses.1 hx)) .fetch).symm⟩

theorem sequencerTurn_seqTurn {s : State} {es : List Event} (hb : s.busy = true) (ha : s.agenda = .seqTurn :: es) :
    sequencerTurn s = some { s with agenda := es, raced := foreseen s.agenda.length s }.tick :=
  sequencerTurn_eq_some.2 ⟨_, sequencerTakes_eq_some.2 ⟨hb, .inr (.inr ⟨es, ha, rfl⟩)⟩, rfl⟩

/-- The fetched bytes end the run whatever the state: they are a HALT, or no command. -/
def EndRunBytes (bs : List Byte) : Prop := (∃ more, decode bs = .ok (.halt, more)) ∨ ∃ e, decode bs = .error e

/-- The state after such bytes: DONE, or ILLEGAL_OPCODE. -/
def endRun (bs : List Byte) (s : State) : State :=
  match decode bs with
  | .ok _ => { s with busy := false, done := true }
  | .error _ => raise s .illegalOpcode (commandWord bs)

theorem endRun_busy (bs : List Byte) (s : State) : (endRun bs s).busy = false := by
  unfold endRun
  split <;> rfl

theorem endRun_done_or_err (bs : List Byte) (s : State) : (endRun bs s).done = true ∨ (endRun bs s).err = true := by
  unfold endRun
  split
  · exact .inl rfl
  · exact .inr rfl

@[simp] theorem endRun_agenda (bs : List Byte) (s : State) : (endRun bs s).agenda = s.agenda := by
  unfold endRun
  split <;> rfl

@[simp] theorem endRun_platform (bs : List Byte) (s : State) : (endRun bs s).platform = s.platform := by
  unfold endRun
  split <;> rfl

theorem sequencerStep_endRun {s : State} {bs : List Byte} (hf : fetch s = .ok bs) (hd : EndRunBytes bs) :
    sequencerStep s = .next (endRun bs s) := by
  unfold sequencerStep endRun
  rcases hd with ⟨more, hd⟩ | ⟨e, hd⟩ <;> simp only [hf, hd]
  rfl

/-- The next turn of the sequencer ends the run: it fetches such bytes, and neither a write of the host so far nor one
of the events `es` to come hides them. -/
structure EndsNext (s : State) (es : List Event) (bs : List Byte) : Prop where
  busy : s.busy = true
  quiet : s.quiet
  plain : plainRange s.platform s.pc.toNat 16
  bytes : (addresses s.pc.toNat 16).map s.mem.read = bs
  unwritten : ∀ x, inRange x s.pc.toNat 16 → x ∉ hostWrites s.platform.coherent s.dirty es
  ends : EndRunBytes bs

/-- That the next turn ends the run depends neither on the agenda, nor on IE, nor on the draw counter. -/
theorem EndsNext.congr {s : State} {es : List Event} {bs : List Byte} (h : EndsNext s es bs) (l : List Event)
    (ie : Bool) (d : Nat) : EndsNext { s with agenda := l, ie := ie, draws := d } es bs := by
  obtain ⟨hb, hq, hp, hbs, hw, hd⟩ := h
  exact ⟨hb, hq, hp, hbs, hw, hd⟩

/-- What such a turn draws, it draws of no byte that it fetches, so it ends the run. -/
theorem EndsNext.step {s : State} {es l : List Event} {bs : List Byte} (h : EndsNext s es bs)
    (ha : s.agenda = .seqTurn :: l)
    (hl : hostWrites s.platform.coherent s.dirty l = hostWrites s.platform.coherent s.dirty es) :
    ∃ r, step s = .next (endRun bs { s with agenda := l, raced := r }.tick) := by
  obtain ⟨hb, ⟨hraced, hdirty⟩, hp, rfl, hw, hd⟩ := h
  refine ⟨foreseen s.agenda.length s, ?_⟩
  rw [step_of_sequencerTurn (sequencerTurn_seqTurn hb ha)]
  refine sequencerStep_endRun (fetch_visible hp fun x hx => ?_) hd
  have hnot : x ∉ foreseen s.agenda.length s := by
    intro h
    rcases mem_foreseen h with h | h
    · rw [ha, show hostWrites s.platform.coherent s.dirty (.seqTurn :: l) = _ from hl] at h
      exact hw x hx h
    · rw [hraced] at h
      cases h
  rcases hdirty with hc | hc <;> simp [hidden, hnot, hc]

/-- A GO while BUSY = 1 is ignored: the write takes IE alone (spec/10_state.md R34). -/
theorem step_go_busy {s : State} {v : Word} {rest : List Event} (hbase : s.platform.base % 4 = 0)
    (ha : s.agenda = .mmioWrite (s.platform.base + 0x08) 4 v :: rest) (h1 : v.getLsbD 1 = false) (hb : s.busy = true) :
    step s = .next { s.took rest with ie := v.getLsbD 2 } := by
  rw [step_writeCtrl hbase ha]
  simp only [writeCtrl, h1, show (s.took rest).busy = true from hb, Bool.not_true, Bool.and_false, Bool.false_eq_true,
    if_false]

/-- A GO while BUSY = 0 starts a run (spec/46_sequencer_data.md R250). -/
theorem step_go_idle {s : State} {v : Word} {rest : List Event} (hbase : s.platform.base % 4 = 0)
    (ha : s.agenda = .mmioWrite (s.platform.base + 0x08) 4 v :: rest) (h1 : v.getLsbD 1 = false)
    (h0 : v.getLsbD 0 = true) (hb : s.busy = false) :
    step s = .next (startRun { s.took rest with ie := v.getLsbD 2 }) := by
  rw [step_writeCtrl hbase ha]
  simp only [writeCtrl, h1, h0, show (s.took rest).busy = false from hb, Bool.not_false, Bool.and_self,
    Bool.false_eq_true, if_false, if_true]

theorem run_two {s a b : State} (ha : step s = .next a) (hb : step a = .next b) :
    Host.Core.run Sys2Proof.core 2 s = .next b := by
  have ha' : Sys2Proof.core.step s = .next a := ha
  have hb' : Sys2Proof.core.step a = .next b := hb
  simp only [Host.Core.run, ha', hb']

/-- A GO while BUSY = 1 is ignored, and the turn after it ends the run. -/
theorem EndsNext.run_go_first {s : State} {v : Word} {es : List Event} {bs : List Byte} (h : EndsNext s es bs)
    (hbase : s.platform.base % 4 = 0) (h1 : v.getLsbD 1 = false) :
    ∃ r, Host.Core.run Sys2Proof.core 2
        { s with agenda := .mmioWrite (s.platform.base + 0x08) 4 v :: .seqTurn :: es } =
      .next (endRun bs { s.tick.tick with ie := v.getLsbD 2, agenda := es, raced := r }) := by
  obtain ⟨r, hend⟩ := (h.congr (.seqTurn :: es) (v.getLsbD 2) (s.draws + 1)).step rfl rfl
  exact ⟨r, run_two (step_go_busy (s := { s with agenda := _ }) hbase rfl h1 h.busy) hend⟩

/-- What GO writes is all that tells the two orders apart (spec/60_exceptions.md R294; assumption 21). -/
theorem startRun_endRun (bs : List Byte) (s : State) (ie : Bool) (l es : List Event) (r r' : List Nat) :
    startRun { (endRun bs { s with agenda := l, raced := r' }.tick).took es with ie := ie } =
      startRun (endRun bs { s.tick.tick with ie := ie, agenda := es, raced := r }) := by
  unfold endRun
  split <;> rfl

/-- The turn ends the run, and the GO after it starts one. -/
theorem EndsNext.run_go_last {s : State} {v : Word} {es : List Event} {bs : List Byte} (h : EndsNext s es bs)
    (hbase : s.platform.base % 4 = 0) (h1 : v.getLsbD 1 = false) (h0 : v.getLsbD 0 = true) (r : List Nat) :
    Host.Core.run Sys2Proof.core 2
        { s with agenda := .seqTurn :: .mmioWrite (s.platform.base + 0x08) 4 v :: es } =
      .next (startRun (endRun bs { s.tick.tick with ie := v.getLsbD 2, agenda := es, raced := r })) := by
  obtain ⟨r', hend⟩ := (h.congr (.seqTurn :: .mmioWrite (s.platform.base + 0x08) 4 v :: es) s.ie s.draws).step rfl rfl
  refine run_two hend ((step_go_idle ?_ ?_ h1 h0 (endRun_busy ..)).trans (congrArg _ (startRun_endRun ..)))
  · rw [endRun_platform]
    exact hbase
  · rw [endRun_agenda, endRun_platform]
    rfl

/-! ### The words of the registers -/

theorem bitAt_getLsbD (f : Bool) {i : Nat} (j : Nat) (hi : i < 32) : (bitAt f i).getLsbD j = (f && decide (j = i)) := by
  cases f with
  | false => simp [bitAt]
  | true =>
    show (BitVec.twoPow 32 i).getLsbD j = _
    simp [BitVec.getLsbD_twoPow, hi, eq_comm]

/-- STATUS bit by bit (spec/10_state.md R35). -/
theorem statusWord_getLsbD (s : State) (j : Nat) :
    s.statusWord.getLsbD j = (s.busy && decide (j = 0) || s.done && decide (j = 1) || s.err && decide (j = 2) ||
      s.keyValid && decide (j = 3) || s.eq && decide (j = 4) ||
      (decide (j < 32) && !decide (j < 8) && s.errcode.getLsbD (j - 8))) := by
  simp only [State.statusWord, BitVec.getLsbD_or, bitAt_getLsbD, Nat.reduceLT, BitVec.getLsbD_shiftLeft,
    BitVec.getLsbD_setWidth]
  by_cases hj : j < 32
  · simp [show j - 8 < 32 by omega]
  · simp [hj]

theorem ctrlWord_eq (s : State) : s.ctrlWord = if s.ie then 4 else 0 := rfl

theorem capsWord_eq : capsWord = 0x07100010 := by decide

theorem limitsWord_eq : limitsWord = 0x0000187F := by decide

/-- The reserved offsets read 0 (spec/10_state.md R40). -/
theorem mmioRead_reserved (s : State) {off : Nat} (h : 0x20 ≤ off) : mmioRead s off = 0 := by
  unfold mmioRead
  iterate 8 rw [if_neg (by omega)]

theorem statusWord_flags (s : State) :
    s.statusWord.getLsbD 0 = s.busy ∧ s.statusWord.getLsbD 1 = s.done ∧ s.statusWord.getLsbD 2 = s.err ∧
      s.statusWord.getLsbD 3 = s.keyValid ∧ s.statusWord.getLsbD 4 = s.eq := by
  simp only [statusWord_getLsbD]
  simp

/-- Above the five flags STATUS holds ERRCODE in bits [15:8], and 0 elsewhere. -/
theorem statusWord_getLsbD_of_ge (s : State) {j : Nat} (h : 5 ≤ j) :
    s.statusWord.getLsbD j = (decide (j < 32) && !decide (j < 8) && s.errcode.getLsbD (j - 8)) := by
  rw [statusWord_getLsbD]
  simp [show j ≠ 0 by omega, show j ≠ 1 by omega, show j ≠ 2 by omega, show j ≠ 3 by omega, show j ≠ 4 by omega]

theorem statusWord_fields (s : State) :
    s.statusWord.extractLsb' 5 3 = 0 ∧ s.statusWord.extractLsb' 8 8 = s.errcode ∧
      s.statusWord.extractLsb' 16 16 = 0 := by
  refine ⟨BitVec.eq_of_getLsbD_eq fun j hj => ?_, BitVec.eq_of_getLsbD_eq fun j hj => ?_,
    BitVec.eq_of_getLsbD_eq fun j hj => ?_⟩ <;>
    rw [BitVec.getLsbD_extractLsb', statusWord_getLsbD_of_ge s (by omega)]
  · simp [show 5 + j < 8 by omega]
  · simp [show 8 + j < 32 by omega, hj]
  · simp [BitVec.getLsbD_of_ge s.errcode (16 + j - 8) (by omega)]

end Sys2Proof.Machine
end

section
/-! PROOFS. The statements about the state, settled from these laws. -/

namespace Sys2Proof.Proofs
open Sys2Proof.Machine

/-- Settles O3: a cycle of the sequencer, a host event and an idle step each keep the invariant. -/
theorem stepKeepsInvariant : Obligations.StepKeepsInvariant := fun _ _ hs h => step_inv hs h

/-- Settles O2: the reset state holds the reset values and no memory. -/
theorem resetMeetsInvariant : Obligations.ResetMeetsInvariant := resetBlock_inv (s := State.reset) reset_mem_wf

/-- Settles O10: a completed command advances CMD_PTR from an address below the last; HALT and every fault leave it. -/
theorem commandMovesPcBy16 : Obligations.CommandMovesPcBy16 := by
  intro i s t ha h
  rcases exec_effect h with ⟨-, rfl⟩ | ⟨hi, u, hu, ⟨hl, rfl⟩ | ⟨c, info, rfl⟩⟩
  · exact .inl rfl
  · rw [hu.pc] at hl
    refine .inr ⟨hi, ?_, hu.busy⟩
    rw [next_pc, hu.pc, toNat_add_of_aligned ha hl]
  · exact .inl hu.pc

/-- Settles O12: the effect of a command keeps every other register, and ending it writes none. -/
theorem registerFrame : Obligations.RegisterFrame := by
  intro i s t r h hr
  rcases exec_effect h with ⟨-, rfl⟩ | ⟨-, u, hu, he⟩
  · rfl
  · rw [he.frame]
    exact hu.getB hr

/-- Settles O11: HALT writes DONE and BUSY; the effect of any other command has the frame, and ending it keeps it. -/
theorem flagAndKeyFrame : Obligations.FlagAndKeyFrame := by
  intro i s t h
  rcases exec_effect h with ⟨rfl, rfl⟩ | ⟨-, u, hu, he⟩
  · exact ⟨fun _ => rfl, fun _ _ => ⟨rfl, rfl, rfl, rfl⟩, fun hi => absurd rfl hi, rfl, rfl, rfl, rfl, rfl, rfl, rfl,
      fun _ => ⟨rfl, rfl⟩⟩
  · obtain ⟨hdone, hie, hplatform, hagenda, hraced, hdirty, hdata, hdraws⟩ := hu.control
    rw [he.frame]
    exact ⟨hu.eq, hu.keys, fun _ => hdone, hie, hplatform, hagenda, hraced, hdirty, hdata, hdraws,
      hu.marks_of_storesNothing⟩

/-- Settles O27: the checks and the value of a command not marked Key read no key, nor does any register word. -/
theorem keysNotReadOut : Obligations.KeysNotReadOut := by
  refine ⟨fun i s t mk ek hi h => ?_, mmioRead_withKeys⟩
  obtain ⟨_, hu, mk', ek', rfl⟩ := exec_withKeys_follows hi s mk ek t h
  exact ⟨_, hu, rfl⟩

/-- Settles O52: the word returned is `mmioRead` at the offset, register by register. -/
theorem mmioReadReturnsRegister : Obligations.MmioReadReturnsRegister := by
  intro s off rest hb ho hl ha
  obtain ⟨hbusy, hdone, herr, hvalid, heq⟩ := statusWord_flags s
  obtain ⟨hgap, hcode, hhigh⟩ := statusWord_fields s
  refine ⟨mmioRead s off, step_mmioRead ha (mmioOffset_window hb ho hl), ?_⟩
  refine ⟨?_, ?_, ?_, ?_, ?_, ?_, ?_, mmioRead_reserved s, ?_⟩ <;> rintro rfl
  · rfl
  · exact capsWord_eq
  · exact limitsWord_eq
  · exact ctrlWord_eq s
  · rfl
  · rfl
  · rfl
  · exact ⟨hbusy, hdone, herr, hvalid, heq, hgap, hcode, hhigh⟩

/-- Settles O53: such an access has no offset in the window. -/
theorem unadmittedAccessRefused : Obligations.UnadmittedAccessRefused := by
  intro s addr width v rest h
  have hnone : mmioOffset s.platform addr width = none := mmioOffset_eq_none h
  exact ⟨fun ha => step_mmioRead_refused ha hnone, fun ha => step_mmioWrite_refused ha hnone⟩

/-- Settles O54: the write takes its branch of R34; before the turn that ends the run a GO is ignored, and after it the
run it starts differs only in what GO writes. -/
theorem ctrlWriteStartsRun : Obligations.CtrlWriteStartsRun := by
  refine ⟨fun s v rest hb h1 ha => ?_, fun s v es bs hbase h1 h0 hb hq hf hw hd => ?_⟩
  · refine ⟨_, step_writeCtrl hb ha, ?_⟩
    rcases writeCtrl_cases (s.took rest) v with ⟨h1', -⟩ | ⟨-, h0, hbusy, he⟩ | ⟨-, h0, he⟩
    · rw [h1] at h1'
      cases h1'
    · rw [he]
      refine ⟨rfl, rfl, rfl, rfl, rfl, rfl, rfl, rfl, rfl, rfl, fun _ _ => ⟨rfl, rfl, rfl, rfl, rfl, rfl, rfl, rfl⟩, ?_⟩
      rintro (h | h)
      · rw [h0] at h
        cases h
      · rw [show s.busy = false from hbusy] at h
        cases h
    · rw [he]
      refine ⟨rfl, rfl, rfl, rfl, rfl, rfl, rfl, rfl, rfl, rfl, fun hgo hidle => ?_,
        fun _ => ⟨rfl, rfl, rfl, rfl, rfl, rfl, rfl, rfl⟩⟩
      rcases h0 with h0 | h0
      · rw [hgo] at h0
        cases h0
      · rw [show (s.took rest).busy = false from hidle] at h0
        cases h0
  · obtain ⟨hp, rfl⟩ := fetch_eq_ok.1 hf
    have hend : EndsNext s es (seqBytes s .fetch s.pc.toNat 16) := ⟨hb, hq, hp, (seqBytes_quiet hq ..).symm, hw, hd⟩
    obtain ⟨r, hfirst⟩ := hend.run_go_first hbase h1
    exact ⟨_, endRun_busy .., endRun_done_or_err .., hfirst, hend.run_go_last hbase h1 h0 r⟩

/-- Settles O55: the word written is the old CMD_PTR during a run, and the masked word while idle. -/
theorem cmdPtrWrite : Obligations.CmdPtrWrite := by
  intro s v rest hb ha
  refine ⟨if s.busy then s.pc else v &&& 0xFFFFFFF0, ?_, fun h => if_pos h, fun h => ?_⟩
  · rw [step_mmioWrite ha (mmioOffset_window hb rfl (by decide)), mmioWrite_cmdPtr, writeCmdPtr_eq]
    rfl
  · rw [h]
    exact cmdPtr_mask v

/-- Settles O56: STATUS takes the write as R35 says, and the other offsets ignore it. -/
theorem otherRegisterWrites : Obligations.OtherRegisterWrites := by
  intro s off v rest hb ho hl ha
  have hstep : step s = .next (mmioWrite (s.took rest) off v) := step_mmioWrite ha (mmioOffset_window hb ho hl)
  constructor
  · rintro rfl
    rw [hstep, mmioWrite_status, writeStatus_cleared]
    rfl
  · intro h1 h2 h3
    rw [hstep, mmioWrite_ignored h1 h2 h3]
    rfl

/-- Settles O58: the line is read off the state after each of these steps. -/
theorem interruptLine : Obligations.InterruptLine := by
  refine ⟨fun s => rfl, fun s t code info => ⟨irq_raise s code info, fun h => ?_⟩,
    fun s t v rest hb h => ⟨fun ha => ?_, fun ha => ?_⟩⟩
  · injection h with h
    rw [← h, irq_halt]
  · rw [step_mmioWrite ha (mmioOffset_window hb rfl (by decide)), mmioWrite_status] at h
    injection h with h
    rw [← h]
    rfl
  · rw [step_writeCtrl hb ha] at h
    injection h with h
    rw [← h, irq_writeCtrl]
    rfl

end Sys2Proof.Proofs
end

section
/-! PROOFS. The laws behind the statements about memory: where a command writes, the RANGE and OVERLAP faults of
operands, and the bytes of a descriptor. -/

namespace Sys2Proof.Machine

/-! ### Where a command writes -/

/-- A command that stores nothing has no destination range. -/
theorem destOf_of_storesNothing {i : Instr} (h : storesMemory i = false) (s : State) : destOf i s = none := by
  cases i with
  | bst | xorend | ctrxor | sealAead | openAead => cases h
  | _ => rfl

/-- A command writes memory in its destination range alone, faulting or not (spec/60_exceptions.md R291). -/
theorem exec_mem_outside {i : Instr} {s t : State} {x : Nat} (h : exec i s = .next t)
    (hx : ∀ dst len, destOf i s = some (dst, len) → ¬ inRange x dst len) : t.mem.read x = s.mem.read x := by
  rcases exec_cases h with ⟨-, rfl⟩ | ⟨u, hu, hc⟩ | ⟨c, info, rfl⟩ | ⟨dst, bs, after, -, hd, ha, hst⟩
  · rfl
  · have hmem : u.mem = s.mem := by cases hu <;> rfl
    rw [(ends_of_complete hc).frame]
    exact congrArg (Memory.read · x) hmem
  · rfl
  · rcases storeThen_cases hst with ⟨-, hc⟩ | ⟨y, -, -, rfl⟩
    · have hmem : (after (memWrite s dst bs)).mem = (memWrite s dst bs).mem := by
        obtain ⟨rfl, -⟩ | ⟨rd, v, -, rfl⟩ := ha <;> rfl
      rw [(ends_of_complete hc).frame]
      exact (congrArg (Memory.read · x) hmem).trans (memWrite_mem_outside s dst bs x (hx _ _ hd))
    · exact scramble_mem_outside s dst bs.length x (hx _ _ hd)

/-- The 16 bytes from an aligned address fit into the address space (spec/10_state.md R25). -/
theorem aligned_range_legal {a : Word} (h : a.extractLsb' 0 4 = 0) : rangeLegal a.toNat 16 = true := by
  have h0 := aligned_iff.1 h
  have h1 := a.isLt
  refine rangeLegal_iff.2 (.inr ?_)
  simp only [Config.addrSpace]
  omega

/-- 16 bytes that are stored in a quiet state where CMD_PTR comes to stand are the next command that is fetched. -/
theorem fetch_storeThen {s : State} {bs : List Byte} (hw : s.mem.wf) (hq : s.quiet) (hl : s.pc ≠ lastPc)
    (hlen : bs.length = 16) (hp : plainRange s.platform (s.pc + 16).toNat 16) :
    ∃ t, storeThen s (s.pc + 16).toNat bs id = .next t ∧ t.pc = s.pc + 16 ∧ fetch t = .ok bs := by
  refine ⟨(memWrite s (s.pc + 16).toNat bs).next, storeThen_completes (after := id) (by rwa [hlen]) hl, rfl, ?_⟩
  have hq' : (memWrite s (s.pc + 16).toNat bs).next.quiet := hq
  rw [fetch_visible hp fun x _ => hidden_quiet hq' x]
  have hback := Memory.read_back s.mem hw.1 (s.pc + 16).toNat bs
  rw [hlen] at hback
  exact congrArg Except.ok hback

/-! ### Checks that fail -/

theorem check_ok_or_raise (c : Bool) (code : FaultCode) (info : Word) :
    check c code info = .ok () ∨ check c code info = .error (.raise code info) := by
  cases c
  · exact .inr rfl
  · exact .inl rfl

@[simp] theorem stop_raise (s : State) (code : FaultCode) (info : Word) :
    stop s (.raise code info) = .next (raise s code info) := rfl

theorem needRange_ok {a : Word} {n : Nat} (h : a.toNat + n ≤ Config.addrSpace) : needRange a n = .ok () :=
  needRange_eq_ok.2 (rangeLegal_iff.2 (.inr h))

/-- A non-empty range that passes the last address raises RANGE with its start (spec/20_memory.md R65). -/
theorem needRange_raise {a : Word} {n : Nat} (h0 : 0 < n) (h : Config.addrSpace < a.toNat + n) :
    needRange a n = .error (.raise .range a) := by
  refine (check_ok_or_raise ..).resolve_left fun hok => ?_
  rcases rangeLegal_iff.1 (needRange_eq_ok.1 hok) with h' | h' <;> omega

theorem readOperand_raise {a : Word} {n : Nat} (h0 : 0 < n) (h : Config.addrSpace < a.toNat + n) (s : State) :
    readOperand s a n = .error (.raise .range a) := by
  simp only [readOperand, needRange_raise h0 h, bind_error]

/-- A destination that is not the source and shares a byte with it raises OVERLAP (spec/20_memory.md R68). -/
theorem needInPlaceOrDisjoint_raise {a b : Word} {n : Nat} (hne : b ≠ a)
    (h : ∃ x, inRange x b.toNat n ∧ inRange x a.toNat n) :
    needInPlaceOrDisjoint a b n = .error (.raise .overlap b) := by
  refine (check_ok_or_raise ..).resolve_left fun hok => ?_
  obtain ⟨x, hb, ha⟩ := h
  exact (needInPlaceOrDisjoint_eq_ok.1 hok).elim hne fun hd => hd x hb ha

/-- A destination that shares a byte with the table or a present field raises OVERLAP (spec/20_memory.md R68). -/
theorem needDisjoint_raise {t : Table} {a n b : Word} {len : Nat}
    (h : ∃ r ∈ (a.toNat, 8 * n.toNat) :: t.ranges, ∃ x, inRange x b.toNat len ∧ inRange x r.1 r.2) :
    needDisjoint t a n b len = .error (.raise .overlap b) := by
  refine (check_ok_or_raise ..).resolve_left fun hok => ?_
  obtain ⟨r, hr, x, hb, hx⟩ := h
  exact needDisjoint_eq_ok.1 hok r hr x hb hx

theorem keyLengthOk_sizes {n : Nat} (h : n = 32 ∨ n = 48 ∨ n = 64) : keyLengthOk n = true := by
  rcases h with rfl | rfl | rfl <;> rfl

theorem needKey_ok {s : State} (h : s.keyValid = true) : needKey s = .ok () := needKey_eq_ok.2 h

theorem needLen_ok {n : Word} (h : n.toNat ≤ Config.maxLen) : needLen n = .ok () := needLen_eq_ok.2 h

/-! ### The ranges of XOREND and CTRXOR -/

/-- The checks of a source and a destination of `n` bytes that XOREND and CTRXOR share, in their order (R154, R204). -/
def pairChecks (a b : Word) (n : Nat) : Except Stop Unit := do
  needRange a n
  needRange b n
  needInPlaceOrDisjoint a b n

theorem pairChecks_source {a : Word} {n : Nat} (h0 : 0 < n) (h : Config.addrSpace < a.toNat + n) (b : Word) :
    pairChecks a b n = .error (.raise .range a) := by
  simp only [pairChecks, needRange_raise h0 h, bind_error]

theorem pairChecks_destination {a b : Word} {n : Nat} (h0 : 0 < n) (ha : a.toNat + n ≤ Config.addrSpace)
    (h : Config.addrSpace < b.toNat + n) : pairChecks a b n = .error (.raise .range b) := by
  simp only [pairChecks, needRange_ok ha, needRange_raise h0 h, bind_ok, bind_error]

theorem pairChecks_overlap {a b : Word} {n : Nat} (ha : a.toNat + n ≤ Config.addrSpace)
    (hb : b.toNat + n ≤ Config.addrSpace) (hne : b ≠ a) (h : ∃ x, inRange x b.toNat n ∧ inRange x a.toNat n) :
    pairChecks a b n = .error (.raise .overlap b) := by
  simp only [pairChecks, needRange_ok ha, needRange_ok hb, needInPlaceOrDisjoint_raise hne h, bind_ok]

theorem exec_xorend_raise {s : State} {rs1 : Reg} {a b n : Word} {code : FaultCode} {info : Word}
    (h16 : 16 ≤ n.toNat) (hmax : n.toNat ≤ Config.maxLen)
    (h : pairChecks a b n.toNat = .error (.raise code info)) :
    exec (.xorend rs1 a b n) s = .next (raise s code info) := by
  have hplan : xorendPlan s rs1 a b n = (pairChecks a b n.toNat >>= fun _ => access s [(a.toNat, n.toNat)] >>= fun _ =>
      .ok (xorend (seqBytes s (.data 0) a.toNat n.toNat) (blockBytes (s.getB rs1)))) := by
    simp only [xorendPlan, pairChecks, bind_assoc, decide_eq_true h16, check_true, needLen_ok hmax, bind_ok, pure_ok]
  simp only [exec, execXorend, hplan, h, bind_error, stop_raise]

theorem exec_ctrxor_raise {s : State} {rs1 : Reg} {a b n : Word} {code : FaultCode} {info : Word}
    (hkey : s.keyValid = true) (hmax : n.toNat ≤ Config.maxLen)
    (h : pairChecks a b n.toNat = .error (.raise code info)) :
    exec (.ctrxor rs1 a b n) s = .next (raise s code info) := by
  have hplan : ctrxorPlan s rs1 a b n = (pairChecks a b n.toNat >>= fun _ => access s [(a.toNat, n.toNat)] >>= fun _ =>
      .ok (ctrxor s.encKey (s.getB rs1) (seqBytes s (.data 0) a.toNat n.toNat))) := by
    simp only [ctrxorPlan, pairChecks, bind_assoc, needKey_ok hkey, needLen_ok hmax, bind_ok, pure_ok]
  simp only [exec, execCtrxor, hplan, h, bind_error, stop_raise]

/-! ### The destinations of SEAL and OPEN -/

/-- After the table, SEAL and OPEN check the RANGE and then the OVERLAP of a destination of `len` bytes (R225, R226). -/
theorem exec_envelope_raise {s : State} {rd : Reg} {a b n : Word} {t : Table} {len : Nat} {i : Instr}
    {code : FaultCode} {info : Word} (ht : TableOk s a n t)
    (hi : i = .sealAead rd a b n ∧ len = 16 + t.lastLen ∨ i = .openAead rd a b n ∧ len = t.lastLen - 16)
    (h : (needRange b len >>= fun _ => needDisjoint t a n b len) = .error (.raise code info)) :
    exec i s = .next (raise s code info) := by
  have hread : readTable s a n = .ok t := readTable_eq_ok.2 ht
  rcases hi with ⟨rfl, rfl⟩ | ⟨rfl, rfl⟩
  · have hplan : sealPlan s a b n = .error (.raise code info) := by
      simp only [sealPlan, hread, bind_ok, ← bind_assoc, h, bind_error]
    simp only [exec, execSealAead, hplan, stop_raise]
  · have hplan : openPlan s a b n = .error (.raise code info) := by
      simp only [openPlan, hread, bind_ok, ← bind_assoc, h, bind_error]
    simp only [exec, execOpenAead, hplan, stop_raise]

/-! ### The bytes of a descriptor -/

theorem tableWord_quiet {s : State} (h : s.quiet) (a : Nat) :
    tableWord s a = wordOfBytes (s.mem.read a) (s.mem.read (a + 1)) (s.mem.read (a + 2)) (s.mem.read (a + 3)) := by
  simp only [tableWord, seqByte_quiet h]

/-- Bits [30:24] of a word are the low bits of its last byte. -/
theorem wordOfBytes_reserved (b0 b1 b2 b3 : Byte) :
    (wordOfBytes b0 b1 b2 b3).extractLsb' 24 7 = b3.extractLsb' 0 7 := by
  apply BitVec.eq_of_getLsbD_eq
  intro i hi
  simp [wordOfBytes_getLsbD _ _ _ _ (24 + i) (by omega), hi, show ¬ 24 + i < 8 by omega, show ¬ 24 + i < 16 by omega]

theorem wordOfBytes_top (b0 b1 b2 b3 : Byte) : (wordOfBytes b0 b1 b2 b3).getLsbD 31 = b3.getLsbD 7 :=
  wordOfBytes_getLsbD b0 b1 b2 b3 31 (by decide)

/-- Bits [23:0] of a word are its first three bytes, lowest first (spec/20_memory.md R62). -/
theorem wordOfBytes_low (b0 b1 b2 b3 : Byte) :
    ((wordOfBytes b0 b1 b2 b3).extractLsb' 0 24).toNat = b0.toNat + 2 ^ 8 * b1.toNat + 2 ^ 16 * b2.toNat := by
  rw [BitVec.extractLsb'_toNat, wordOfBytes_toNat, Nat.shiftRight_zero]
  have h0 := b0.isLt
  have h1 := b1.isLt
  have h2 := b2.isLt
  omega

/-- A descriptor in a quiet state, by its bytes (spec/20_memory.md R66, R67). -/
theorem readDesc_quiet {s : State} (h : s.quiet) (a i : Nat) :
    readDesc s a i =
      if (s.mem.read (a + 8 * i + 7)).extractLsb' 0 7 ≠ 0 then .error (.raise .badDescriptor (BitVec.ofNat 32 i))
      else if (s.mem.read (a + 8 * i + 7)).getLsbD 7 then .ok .absent
      else .ok (.present
        (wordOfBytes (s.mem.read (a + 8 * i)) (s.mem.read (a + 8 * i + 1)) (s.mem.read (a + 8 * i + 2))
          (s.mem.read (a + 8 * i + 3)))
        ((s.mem.read (a + 8 * i + 4)).toNat + 2 ^ 8 * (s.mem.read (a + 8 * i + 5)).toNat +
          2 ^ 16 * (s.mem.read (a + 8 * i + 6)).toNat)) := by
  simp only [readDesc, tableWord_quiet h, wordOfBytes_reserved, wordOfBytes_top, wordOfBytes_low]

end Sys2Proof.Machine
end

section
/-! PROOFS. The laws behind the statements about the host and DMA memory: its stores, cleans, invalidations and loads,
and the end of a run within the fuel of its loads. -/

namespace Sys2Proof.Machine

/-! ### Host accesses where plain memory answers -/

theorem hostMemory_plain {s : State} {a : Nat} (h : kindAt s.platform a = some .plain) (t : State) :
    hostMemory s a t = .next t := if_pos h

theorem step_store {s : State} {a : Word} {v : Byte} {rest : List Event} (hk : kindAt s.platform a.toNat = some .plain)
    (h : s.agenda = .store a v :: rest) : step s = .next (hostStore (s.took rest) a.toNat v) :=
  (step_of_event h nofun nofun).trans (hostMemory_plain hk _)

theorem step_load {s : State} {a : Word} {rest : List Event} (hk : kindAt s.platform a.toNat = some .plain)
    (h : s.agenda = .load a :: rest) :
    step s = .next { s.took rest with hostData := (hostByte (s.took rest) a.toNat).setWidth 32 } :=
  (step_of_event h nofun nofun).trans (hostMemory_plain hk _)

theorem step_clean {s : State} {a : Word} {rest : List Event} (hk : kindAt s.platform a.toNat = some .plain)
    (h : s.agenda = .clean a :: rest) : step s = .next (hostClean (s.took rest) a.toNat) :=
  (step_of_event h nofun nofun).trans (hostMemory_plain hk _)

theorem step_invalidate {s : State} {a : Word} {rest : List Event} (hk : kindAt s.platform a.toNat = some .plain)
    (h : s.agenda = .invalidate a :: rest) : step s = .next (hostInvalidate (s.took rest) a.toNat) :=
  (step_of_event h nofun nofun).trans (hostMemory_plain hk _)

/-- A load that takes place is of a byte where plain memory answers. -/
theorem step_load_eq_next {s t : State} {a : Word} {rest : List Event} (h : s.agenda = .load a :: rest)
    (ht : step s = .next t) : t = { s.took rest with hostData := (hostByte (s.took rest) a.toNat).setWidth 32 } := by
  rw [step_of_event h nofun nofun] at ht
  obtain ⟨-, hq⟩ := hostMemory_eq_next.1 ht
  exact hq.symm

/-! ### What is hidden from the run, and what the host's loads return -/

theorem hidden_eq_true {s : State} {a : Nat} :
    hidden s a = true ↔ a ∈ s.raced ∨ (s.platform.coherent = false ∧ a ∈ s.dirty) := by
  simp [hidden]

theorem hidden_eq_false {s : State} {a : Nat} :
    hidden s a = false ↔ a ∉ s.raced ∧ (s.platform.coherent = true ∨ a ∉ s.dirty) := by
  cases hc : s.platform.coherent <;> simp [hidden, hc]

/-- A load returns any byte where the run in progress writes it (spec/20_memory.md R83). -/
theorem hostByte_race {s : State} {a : Nat} (hb : s.busy = true) (hw : runWrites (runFuel s) s a = true) :
    hostByte s a = Config.freeByte s.draws .host a :=
  if_pos (by rw [hb, hw]; rfl)

/-- A load returns any byte where the host may hold an old copy (spec/70_reset_and_hazards.md R332). -/
theorem hostByte_stale {s : State} {a : Nat} (hc : s.platform.coherent = false) (ha : a ∈ s.stale) :
    hostByte s a = Config.freeByte s.draws .host a :=
  if_pos (by simp [hc, ha])

/-- A load returns the byte in memory where neither is so. -/
theorem hostByte_visible {s : State} {a : Nat} (hw : (s.busy && runWrites (runFuel s) s a) = false)
    (hc : s.platform.coherent = true ∨ a ∉ s.stale) : hostByte s a = s.mem.read a := by
  refine if_neg ?_
  rw [hw]
  rcases hc with hc | hc <;> simp [hc]

/-- What the run has written it writes, whatever is known of its turns to come. -/
theorem runWrites_of_written {n : Nat} {s : State} {a : Nat} (h : a ∈ s.written) : runWrites n s a = true := by
  cases n <;> simp [runWrites, h]

/-- With no run on, nothing more is written. -/
theorem runWrites_idle {n : Nat} {s : State} {a : Nat} (hb : s.busy = false) (h : a ∉ s.written) :
    runWrites n s a = false := by
  cases n <;> simp [runWrites, hb, h]

/-! ### Stores, cleans and invalidations of the host -/

theorem mem_hostStore_raced {s : State} {x y : Nat} {v : Byte} :
    y ∈ (hostStore s x v).raced ↔ (s.busy = true ∧ y = x) ∨ y ∈ s.raced := by
  cases hb : s.busy <;> simp [hostStore, hb]

theorem mem_hostStore_dirty {s : State} {x y : Nat} {v : Byte} :
    y ∈ (hostStore s x v).dirty ↔ (s.platform.coherent = false ∧ y = x) ∨ y ∈ s.dirty := by
  cases hc : s.platform.coherent <;> simp [hostStore, hc]

theorem not_mem_hostStore_stale (s : State) (x : Nat) (v : Byte) : x ∉ (hostStore s x v).stale := by
  simp [hostStore]

theorem hostStore_read {s : State} (hw : s.mem.wf) (x : Nat) (v : Byte) (y : Nat) :
    (hostStore s x v).mem.read y = if y = x then v else s.mem.read y := by
  split
  · next h => rw [h]; exact Memory.read_write_same _ hw.1 _ _
  · next h => exact Memory.read_write_other _ _ _ _ h

/-- A store hides no byte but its own from the run. -/
theorem hidden_hostStore_other {s : State} {x y : Nat} (h : y ≠ x) (v : Byte) :
    hidden (hostStore s x v) y = hidden s y := by
  rw [Bool.eq_iff_iff, hidden_eq_true, hidden_eq_true, mem_hostStore_raced, mem_hostStore_dirty]
  simp [h, hostStore]

theorem seqByte_hostStore_other {s : State} {x y : Nat} (h : y ≠ x) (v : Byte) (acc : Config.Access) :
    seqByte (hostStore s x v) acc y = seqByte s acc y := by
  have hread : (hostStore s x v).mem.read y = s.mem.read y := Memory.read_write_other _ _ _ _ h
  simp only [seqByte, hidden_hostStore_other h, hread]
  rfl

/-- A clean of an uncleaned byte, on a platform that is not coherent. -/
theorem hostClean_of_dirty {s : State} {a : Nat} (hc : s.platform.coherent = false) (hd : a ∈ s.dirty) :
    hostClean s a = { s with
      mem := if a ∈ s.stale then s.mem.write a (Config.freeByte s.draws .host a) else s.mem
      raced := if s.busy then s.raced.insert a else s.raced
      dirty := s.dirty.filter (fun x => x != a) } := by
  simp [hostClean, hc, hd]

/-- An invalidation on a platform that is not coherent. -/
theorem hostInvalidate_of_incoherent {s : State} (a : Nat) (hc : s.platform.coherent = false) :
    hostInvalidate s a = { s with
      mem := if a ∈ s.dirty ∧ a ∉ s.stale then s.mem.write a (Config.freeByte s.draws .host a) else s.mem
      raced := if s.busy = true ∧ a ∈ s.dirty then s.raced.insert a else s.raced
      dirty := s.dirty.filter (fun x => x != a)
      stale := if s.busy = true ∧ a ∈ s.written then s.stale else s.stale.filter (fun x => x != a) } := by
  simp [hostInvalidate, hc]

/-- A byte that the block wrote is in memory after an invalidation, and the host holds an old copy of it no more unless
the run in progress wrote it (spec/70_reset_and_hazards.md R332). -/
theorem hostByte_hostInvalidate {s : State} {a : Nat} (hc : s.platform.coherent = false) (hs : a ∈ s.stale)
    (hw : (s.busy && runWrites (runFuel s) (hostInvalidate s a) a) = false) :
    hostByte (hostInvalidate s a) a = s.mem.read a := by
  have hinv := hostInvalidate_of_incoherent a hc
  have hmem : (hostInvalidate s a).mem = s.mem := by simp [hinv, hs]
  have hwritten : (hostInvalidate s a).written = s.written := by rw [hinv]
  have hstale : a ∉ (hostInvalidate s a).stale := by
    have hrun : ¬ (s.busy = true ∧ a ∈ s.written) := by
      rintro ⟨hb, ha⟩
      rw [hb, runWrites_of_written (hwritten.symm ▸ ha)] at hw
      cases hw
    simp [hinv, hrun]
  have hbusy : (hostInvalidate s a).busy = s.busy := by rw [hinv]
  have hfuel : runFuel (hostInvalidate s a) = runFuel s := by rw [hinv]; rfl
  rw [hostByte_visible (by rw [hbusy, hfuel, hw]) (.inr hstale), hmem]

theorem mem_memWrite_written (s : State) (x : Nat) (w : Byte) : x ∈ (memWrite s x [w]).written :=
  ((memWrite_marks s x [w]) x).1.2 (.inl ⟨Nat.le_refl x, Nat.lt_succ_self x⟩)

theorem mem_memWrite_stale (s : State) (x : Nat) (w : Byte) : x ∈ (memWrite s x [w]).stale :=
  ((memWrite_marks s x [w]) x).2.2 (.inl ⟨Nat.le_refl x, Nat.lt_succ_self x⟩)

theorem memWrite_read_same {s : State} (hw : s.mem.wf) (x : Nat) (w : Byte) : (memWrite s x [w]).mem.read x = w :=
  memWrite_mem_inside hw x [w] 0 Nat.one_pos

/-! ### What a load foretells, and what the run then writes -/

theorem withHost_nil (s : State) (w : Word) : s.withHost w [] = { s with hostData := w } := by
  show { s with hostData := w, agenda := s.agenda ++ [] } = _
  rw [List.append_nil]

theorem runWrites_withHost (n : Nat) (s : State) (w : Word) (a : Nat) :
    runWrites n (s.withHost w []) a = runWrites n s a := by
  induction n generalizing s w with
  | zero => rfl
  | succ n ih =>
    obtain ⟨w', hw⟩ := turnWith_withHost (fun _ _ => 0) (fun _ _ => 0) (sequencerTurn_withHost s w) (.inl rfl)
    have hb : (s.withHost w []).busy = s.busy := rfl
    have hwr : (s.withHost w []).written = s.written := rfl
    simp only [runWrites, hw, hb, hwr]
    cases turnWith sequencerTurn (fun _ _ => 0) s with
    | next t => simp only [Outcome.withHost, ih]
    | fault f => rfl
    | refused r => rfl

/-- What the run has written before a turn stays recorded. -/
theorem step_written {s t : State} (hb : s.busy = true) (h : step s = .next t) : ∀ x ∈ s.written, x ∈ t.written := by
  obtain ⟨m, hs⟩ := step_drawn s
  rw [hs] at h
  obtain ⟨-, hw, -⟩ := takes_run (s := s.drawn m) hb h
  exact hw

/-- A turn of the run brings nothing new to what it writes. -/
theorem runWrites_step {n : Nat} {s v : State} {a : Nat} (hb : s.busy = true) (h : step s = .next v) :
    runWrites (n + 1) s a = runWrites n v a := by
  have hturn : turnWith sequencerTurn hostByte s = .next v := h
  obtain ⟨w, hw⟩ := turnWith_withHost hostByte (fun _ _ => 0) (sequencerTurn_withHost s s.hostData) (.inl rfl)
  rw [withHost_nil, hturn] at hw
  have hw : turnWith sequencerTurn (fun _ _ => 0) s = .next (v.withHost w []) := hw
  simp only [runWrites, hb, hw, runWrites_withHost, Bool.true_and]
  cases hs : s.written.contains a with
  | false => rfl
  | true => exact (runWrites_of_written (step_written hb h a (List.contains_iff_mem.1 hs))).symm

/-- What a run comes to write it is told to write, however far its turns are told. -/
theorem runWrites_of_run {k n : Nat} {s u : State} {a : Nat} (h : runWithin k s = some u) (ha : a ∈ u.written) :
    runWrites n s a = true := by
  induction k generalizing s n with
  | zero =>
    injection h with h
    exact runWrites_of_written (h ▸ ha)
  | succ k ih =>
    obtain ⟨hb, v, hv, h⟩ := runWithin_succ h
    cases n with
    | zero => simp [runWrites, hb]
    | succ n => rw [runWrites_step hb hv]; exact ih h

/-- What a run has not written when it has ended it is told not to write, where its turns are told to the end. -/
theorem runWrites_of_ended {k n : Nat} {s u : State} {a : Nat} (h : runWithin k s = some u) (hb : u.busy = false)
    (ha : a ∉ u.written) (hk : k ≤ n) : runWrites n s a = false := by
  induction k generalizing s n with
  | zero =>
    injection h with h
    subst h
    exact runWrites_idle hb ha
  | succ k ih =>
    obtain ⟨hbs, v, hv, h⟩ := runWithin_succ h
    obtain ⟨n, rfl⟩ : ∃ m, n = m + 1 := ⟨n - 1, by omega⟩
    rw [runWrites_step hbs hv]
    exact ih h (by omega)

/-! ### How many turns a run takes -/

/-- A bound of the turns to come in a run: one for each event of the host, and one for each command from CMD_PTR to the
last address (spec/46_sequencer_data.md R252). -/
def turnsLeft (s : State) : Nat := if s.busy then s.agenda.length + (2 ^ 28 - s.pc.toNat / 16) else 0

theorem turnsLeft_busy {s : State} (h : s.busy = true) :
    turnsLeft s = s.agenda.length + (2 ^ 28 - s.pc.toNat / 16) := if_pos h

theorem turnsLeft_pos {s : State} (h : s.busy = true) : 0 < turnsLeft s := by
  rw [turnsLeft_busy h]
  have := s.pc.isLt
  omega

theorem turnsLeft_le_runFuel (s : State) : turnsLeft s ≤ runFuel s := by
  unfold turnsLeft runFuel
  split <;> omega

/-- A command ends the run, or advances CMD_PTR from an address below the last. -/
theorem exec_ends_or_advances {i : Instr} {s t : State} (h : exec i s = .next t) :
    t.busy = false ∨ (s.pc ≠ lastPc ∧ t.pc = s.pc + 16) := by
  rcases exec_effect h with ⟨-, rfl⟩ | ⟨-, u, hu, ⟨hl, rfl⟩ | ⟨c, info, rfl⟩⟩
  · exact .inl rfl
  · exact .inr ⟨hu.pc ▸ hl, congrArg (· + 16) hu.pc⟩
  · exact .inl rfl

theorem sequencerStep_ends_or_advances {s t : State} (h : sequencerStep s = .next t) :
    t.busy = false ∨ (s.pc ≠ lastPc ∧ t.pc = s.pc + 16) := by
  rcases sequencerStep_cases h with ⟨c, info, rfl⟩ | ⟨i, hi⟩
  · exact .inl rfl
  · exact exec_ends_or_advances hi

/-- An event of the host during a run ends it, by a soft reset, or leaves CMD_PTR (spec/10_state.md R36). -/
theorem hostStep_ends_or_stays {e : Event} {s t : State} (hb : s.busy = true) (h : hostStep e s = .next t) :
    t.busy = false ∨ t.pc = s.pc := by
  rcases hostStepWith_cases h with
    rfl | ⟨w, rfl⟩ | ⟨_, _, off, v, -, -, rfl⟩ | ⟨a, -, ⟨v, -, rfl⟩ | ⟨-, rfl⟩ | ⟨-, rfl⟩⟩
  · exact .inr rfl
  · exact .inr rfl
  · rcases mmioWrite_cases s off v with ⟨-, he⟩ | ⟨-, he⟩ | ⟨-, he⟩ | he <;> rw [he]
    · rcases writeCtrl_cases s v with ⟨-, he⟩ | ⟨-, -, h0, -⟩ | ⟨-, -, he⟩
      · rw [he]; exact .inl (softReset_sameRun s).2
      · rw [hb] at h0; cases h0
      · rw [he]; exact .inr rfl
    · exact .inr rfl
    · rw [writeCmdPtr_eq, if_pos hb]; exact .inr rfl
    · exact .inr rfl
  · exact .inr rfl
  · rw [hostClean_frame]; exact .inr rfl
  · rw [hostInvalidate_frame]; exact .inr rfl

/-- A turn of a run that stays on leaves CMD_PTR aligned, and fewer turns to come. -/
theorem step_progress {s t : State} (ha : s.pcAligned) (hb : s.busy = true) (hbt : t.busy = true)
    (h : step s = .next t) : t.pcAligned ∧ turnsLeft t < turnsLeft s := by
  rw [turnsLeft_busy hb, turnsLeft_busy hbt]
  rcases step_cases h with ⟨u, hu, hq⟩ | ⟨-, hidle, -⟩ | ⟨e, rest, hagenda, -, he⟩
  · have hlen : t.agenda.length ≤ s.agenda.length := by
      rcases step_agenda hb h with h | ⟨e, h⟩ <;> simp [h]
    obtain ⟨-, es, rfl⟩ := sequencerTurn_frame hu
    rcases sequencerStep_ends_or_advances hq with hend | ⟨hl, hpc⟩
    · rw [hend] at hbt; cases hbt
    · have hpc : t.pc = s.pc + 16 := hpc
      have hnat : (s.pc + 16).toNat = s.pc.toNat + 16 := toNat_add_of_aligned ha hl
      have hlt := (s.pc + 16).isLt
      rw [State.pcAligned, hpc, hnat]
      rw [hnat] at hlt
      exact ⟨aligned_add ha, by omega⟩
  · rw [hb] at hidle; cases hidle
  · have he : hostStepWith hostByte e (s.took rest) = .next t := he
    have hpc : t.pc = s.pc := by
      rcases hostStep_ends_or_stays (s := s.took rest) hb he with hend | hpc
      · rw [hend] at hbt; cases hbt
      · exact hpc
    have hrest : t.agenda = rest := by
      obtain ⟨-, hr, -⟩ := hostStepWith_run (s := s.took rest) hb he
      exact hr
    rw [State.pcAligned, hpc, hrest, hagenda, List.length_cons]
    exact ⟨ha, by omega⟩

/-- A run takes no more turns than are left. -/
theorem runWithin_le {k : Nat} {s u : State} (ha : s.pcAligned) (h : runWithin k s = some u) : k ≤ turnsLeft s := by
  induction k generalizing s with
  | zero => exact Nat.zero_le _
  | succ k ih =>
    obtain ⟨hb, v, hv, h⟩ := runWithin_succ h
    cases hbv : v.busy with
    | true =>
      obtain ⟨hav, hlt⟩ := step_progress ha hb hbv hv
      exact Nat.succ_le_of_lt (Nat.lt_of_le_of_lt (ih hav h) hlt)
    | false =>
      cases k with
      | zero => exact turnsLeft_pos hb
      | succ k =>
        obtain ⟨hb', -⟩ := runWithin_succ h
        rw [hb'] at hbv
        cases hbv

/-! ### Loads during a run -/

section
variable {s t : State} {a : Word} {rest : List Event}

/-- What the run comes to write, a load of the host before it or after it finds as any byte (spec/20_memory.md R83). -/
theorem load_of_written (hb : s.busy = true) (h : s.agenda = .load a :: rest) (ht : step s = .next t) {k : Nat}
    {u : State} (hu : runWithin k t = some u) (ha : a.toNat ∈ u.written) :
    t.hostData = (Config.freeByte t.draws .host a.toNat).setWidth 32 := by
  obtain rfl := step_load_eq_next h ht
  have hw : runWrites (runFuel (s.took rest)) (s.took rest) a.toNat = true := by
    rw [← runWrites_withHost _ (s.took rest) ((hostByte (s.took rest) a.toNat).setWidth 32), withHost_nil]
    exact runWrites_of_run hu ha
  exact congrArg (BitVec.setWidth 32) (hostByte_race (s := s.took rest) hb hw)

/-- What the run has not written when it has ended, a load of the host during it finds as it is. -/
theorem load_of_unwritten (hp : s.pcAligned) (h : s.agenda = .load a :: rest) (ht : step s = .next t) {k : Nat}
    {u : State} (hu : runWithin k t = some u) (hbu : u.busy = false) (ha : a.toNat ∉ u.written)
    (hc : s.platform.coherent = true ∨ a.toNat ∉ s.stale) : t.hostData = (s.mem.read a.toNat).setWidth 32 := by
  obtain rfl := step_load_eq_next h ht
  have hk : k ≤ runFuel (s.took rest) :=
    (runWithin_le (s := { s.took rest with hostData := _ }) hp hu).trans (turnsLeft_le_runFuel _)
  have hw : runWrites (runFuel (s.took rest)) (s.took rest) a.toNat = false := by
    rw [← runWrites_withHost _ (s.took rest) ((hostByte (s.took rest) a.toNat).setWidth 32), withHost_nil]
    exact runWrites_of_ended hu hbu ha hk
  exact congrArg (BitVec.setWidth 32) (hostByte_visible (s := s.took rest) (by rw [hw, Bool.and_false]) hc)

end

/-! ### What the sequencer reads in its turn -/

theorem seqByte_of_raced {s : State} {a : Nat} (h : a ∈ s.raced) (acc : Config.Access) :
    seqByte s acc a = Config.freeByte s.draws acc a :=
  seqByte_hidden (hidden_eq_true.2 (.inl h)) acc

/-- A byte that the turn does not foresee, and that is cleaned, is read as it is. -/
theorem seqByte_of_sequencerTurn {s u : State} {x : Nat} (h : sequencerTurn s = some u) (hr : x ∉ u.raced)
    (hd : s.platform.coherent = true ∨ x ∉ s.dirty) (acc : Config.Access) : seqByte u acc x = s.mem.read x := by
  obtain ⟨-, es, rfl⟩ := sequencerTurn_frame h
  exact seqByte_visible (hidden_eq_false.2 ⟨hr, hd⟩) acc

/-- A turn foresees no write of the host behind its wait for the end of the run, and only what is stored or was not
cleaned before. -/
theorem not_foreseen_of_not_stored {s u : State} {x : Nat} {before after : List Event} (h : sequencerTurn s = some u)
    (hr : x ∉ s.raced) (hd : s.platform.coherent = true ∨ x ∉ s.dirty)
    (ha : s.agenda = before ∨ s.agenda = before ++ .awaitIdle :: after)
    (hs : ∀ a v, Event.store a v ∈ before → a.toNat ≠ x) : x ∉ u.raced := by
  obtain ⟨m, hu, hm, -, -⟩ := sequencerTurn_spec h
  rw [hu, mem_drawn]
  rintro (hx | hx)
  · have hsub : ∀ e ∈ s.agenda.take m, e ∈ before := by
      rcases ha with ha | ha
      · exact fun e he => ha ▸ List.mem_of_mem_take he
      · intro e he
        have hle := meets_await (s := s.drawn m) ha hm
        rw [ha, List.take_append_of_le_length hle] at he
        exact List.mem_of_mem_take he
    rcases mem_hostWrites hx with ⟨a, v, hmem, hav⟩ | ⟨hc, hx⟩
    · exact hs a v (hsub _ hmem) hav
    · rcases hd with hd | hd
      · rw [hd] at hc; cases hc
      · exact hd hx
  · exact hr hx

/-- A store that the run comes to is among the writes of as many events as it has taken with it. -/
theorem store_mem_comingWrites {s t : State} {k n : Nat} {a : Word} {v : Byte} {es : List Event}
    (h : runWithin k s = some t) (ht : t.agenda = .store a v :: es) (hn : s.agenda.length = n + es.length) :
    a.toNat ∈ s.comingWrites n := by
  obtain ⟨taken, hs⟩ := run_agenda h
  have hlen : n = taken.length + 1 := by
    rw [hs, ht, List.length_append, List.length_cons] at hn
    omega
  refine hostWrites_of_store (v := v) ?_
  rw [hs, ht, hlen, List.take_length_add_append]
  simp

end Sys2Proof.Machine
end

section
/-! PROOFS. The statements about memory and what the host sees of it, settled from these laws. -/

namespace Sys2Proof.Proofs
open Sys2Proof.Machine

/-- Settles O13: a command that stores nothing has no destination range. -/
theorem memoryFrame : Obligations.MemoryFrame := by
  intro i s t hi h x
  refine exec_mem_outside h fun dst len hd => ?_
  rw [destOf_of_storesNothing hi] at hd
  cases hd

/-- Settles O14: the destination range of each storing command is the one named, and there is none where the table is
refused. -/
theorem storeFrame : Obligations.StoreFrame := by
  intro s t r a b n x
  -- a refused table leaves no destination range
  have refused : ∀ {i : Instr} {e : Stop}, readTable s a n = .error e →
      (∀ d, destOf i s = some d → ∃ tb, TableOk s a n tb) → exec i s = .next t → t.mem.read x = s.mem.read x := by
    intro i e he hd h
    refine exec_mem_outside h fun dst len hdst => ?_
    obtain ⟨tb, htb⟩ := hd _ hdst
    rw [readTable_eq_ok.2 htb] at he
    cases he
  refine ⟨fun h hx => exec_mem_outside h fun dst len hd => ?_, fun h hx => exec_mem_outside h fun dst len hd => ?_,
    fun h hx => exec_mem_outside h fun dst len hd => ?_, fun tb htb h hx => exec_mem_outside h fun dst len hd => ?_,
    fun tb htb h hx => exec_mem_outside h fun dst len hd => ?_, fun e he => refused he fun d hd => ?_,
    fun e he => refused he fun d hd => ?_⟩
  · obtain ⟨he, -⟩ := destOf_bst hd
    cases he
    exact hx
  · obtain ⟨he, -⟩ := destOf_xorend hd
    cases he
    exact hx
  · obtain ⟨he, -⟩ := destOf_ctrxor hd
    cases he
    exact hx
  · obtain ⟨tb', htb', he, -⟩ := destOf_seal hd
    cases he
    cases htb.symm.trans (readTable_eq_ok.2 htb')
    exact hx
  · obtain ⟨tb', htb', he, -⟩ := destOf_open hd
    cases he
    cases htb.symm.trans (readTable_eq_ok.2 htb')
    exact hx
  · obtain ⟨tb, htb, -⟩ := destOf_seal hd
    exact ⟨tb, htb⟩
  · obtain ⟨tb, htb, -⟩ := destOf_open hd
    exact ⟨tb, htb⟩

/-- Settles O30: BST completes with the register's bytes where CMD_PTR comes to stand. -/
theorem selfModifyingList : Obligations.SelfModifyingList := by
  rintro s rs1 _ hw hq ha hl rfl hp
  have hplan : bstPlan s rs1 (s.pc + 16) = .ok (blockBytes (s.getB rs1)) :=
    bstPlan_eq_ok.2 ⟨aligned_range_legal (aligned_add ha), rfl⟩
  simp only [exec, execBst, hplan]
  exact fetch_storeThen hw hq hl (blockBytes_length _) hp

/-- Settles O38: each clause is a branch of the descriptor read by its bytes. -/
theorem descriptorDecoding : Obligations.DescriptorDecoding := by
  intro s a i hq
  rw [readDesc_quiet hq]
  refine ⟨fun h => if_pos h, fun h => ?_, fun h => ⟨_, wordOfBytes_toNat .., ?_⟩⟩
  · rw [h]
    rfl
  · rw [h]
    rfl

/-- Settles O48: the checks before the RANGE pass, and it raises with the start of the first range that is not legal. -/
theorem rangeFaults : Obligations.RangeFaults := by
  intro s rd rs1 a b n
  refine ⟨fun h => ?_, fun h0 h => ?_, fun h0 hmax ha hb => ?_⟩
  · have hread := readOperand_raise (by decide : 0 < 16) h s
    have hplan : bstPlan s rs1 a = .error (.raise .range a) := by
      simp only [bstPlan, needRange_raise (by decide : 0 < 16) h, bind_error]
    constructor
    · simp only [exec, execBld, hread, bind_error, conclude_error, stop_raise]
    · simp only [exec, execBst, hplan, stop_raise]
  · have hread := readOperand_raise h0 h s
    refine ⟨fun hk => ?_, fun h15 => ?_, fun h16 hmax => exec_xorend_raise h16 hmax (pairChecks_source h0 h b),
      fun hmax hkey => ⟨?_, ?_, ?_, exec_ctrxor_raise hkey hmax (pairChecks_source h0 h b)⟩⟩
    · simp only [exec, execKeyld, keyLengthOk_sizes hk, check_true, bind_ok, hread, bind_error, conclude_error,
        stop_raise]
    · simp only [exec, execPadxor, decide_eq_true h15, check_true, bind_ok, hread, bind_error, conclude_error,
        stop_raise]
    · simp only [exec, execMac, needKey_ok hkey, needLen_ok hmax, bind_ok, hread, bind_error, conclude_error,
        stop_raise]
    · simp only [exec, execFold, needKey_ok hkey, needLen_ok hmax, bind_ok, hread, bind_error, conclude_error,
        stop_raise]
    · simp only [exec, execMacend, needKey_ok hkey, needLen_ok hmax, bind_ok, hread, bind_error, conclude_error,
        stop_raise]
  · have hpair := pairChecks_destination h0 ha hb
    exact ⟨fun h16 => exec_xorend_raise h16 hmax hpair, fun hkey => exec_ctrxor_raise hkey hmax hpair⟩

/-- Settles O49: the checks before pass, and the destination's RANGE or OVERLAP check raises. -/
theorem destinationFaults : Obligations.DestinationFaults := by
  refine ⟨fun s rs1 a b n hmax ha hb hne hx => ?_, fun s rd a b n t len i ht hi h0 => ⟨fun h => ?_, fun hl h => ?_⟩⟩
  · have hpair := pairChecks_overlap ha hb hne hx
    exact ⟨fun h16 => exec_xorend_raise h16 hmax hpair, fun hkey => exec_ctrxor_raise hkey hmax hpair⟩
  · refine exec_envelope_raise ht hi ?_
    simp only [needRange_raise h0 h, bind_error]
  · refine exec_envelope_raise ht hi ?_
    simp only [needRange_ok hl, bind_ok, needDisjoint_raise h]

/-- Settles O59: each event takes effect where plain memory answers, and each clause reads the byte where it is hidden
or stale, or is neither. -/
theorem hostVisibility : Obligations.HostVisibility := by
  refine ⟨fun s a v rest hk => ⟨step_store hk, step_load hk, step_clean hk, step_invalidate hk⟩,
    fun s x v w acc hw => ?_⟩
  have hstored : (hostStore s x v).mem.read x = v := by rw [hostStore_read hw, if_pos rfl]
  have hfresh : x ∉ (hostStore s x v).stale := not_mem_hostStore_stale s x v
  have hwrote : (memWrite s x [w]).mem.read x = w := memWrite_read_same hw x w
  have hidle : s.busy = false → ∀ n t, ((memWrite s x [w]).busy && runWrites n t x) = false := fun hb n t => by
    rw [memWrite_busy, hb, Bool.false_and]
  refine ⟨hostStore_read hw x v, fun y hy => seqByte_hostStore_other hy v acc,
    fun hb => seqByte_of_raced (mem_hostStore_raced.2 (.inl ⟨hb, rfl⟩)) acc,
    fun h => (hostByte_visible (s := hostStore s x v) h (.inr hfresh)).trans hstored,
    fun hb => hostByte_race (s := memWrite s x [w]) hb (runWrites_of_written (mem_memWrite_written s x w)),
    fun hc => ⟨?_, fun hb => (hostByte_visible (hidle hb _ _) (.inl hc)).trans hwrote⟩, fun hc => ?_⟩
  · have hvis : hidden (startRun (hostStore s x v)) x = false := hidden_eq_false.2 ⟨List.not_mem_nil, .inl hc⟩
    exact (seqByte_visible hvis acc).trans hstored
  · have hdirty : x ∈ (hostStore s x v).dirty := mem_hostStore_dirty.2 (.inl ⟨hc, rfl⟩)
    have hstale : x ∈ (memWrite s x [w]).stale := mem_memWrite_stale s x w
    have hclean := hostClean_of_dirty (s := hostStore s x v) hc hdirty
    have hhid : hidden (startRun (hostStore s x v)) x = true := hidden_eq_true.2 (.inr ⟨hc, hdirty⟩)
    refine ⟨seqByte_hidden hhid acc, ?_, hostByte_stale hc hstale, fun hb => ?_,
      fun hs hr => hostByte_hostInvalidate hc hs hr, ?_, ?_⟩
    · rw [hclean, if_neg hfresh]
      refine (seqByte_visible (hidden_eq_false.2 ⟨List.not_mem_nil, .inr ?_⟩) acc).trans hstored
      simp
    · exact (hostByte_hostInvalidate (s := memWrite s x [w]) hc hstale (hidle hb _ _)).trans hwrote
    · rw [hostClean_of_dirty (s := memWrite (hostStore s x v) x [w]) hc hdirty, if_pos (mem_memWrite_stale _ x w)]
      exact Memory.read_write_same _ (Memory.writeBytes_sorted _ (Memory.write_sorted _ hw.1 _ _) _ _) _ _
    · rw [hostInvalidate_of_incoherent (s := hostStore s x v) x hc, if_pos ⟨hdirty, hfresh⟩]
      exact Memory.read_write_same _ (Memory.write_sorted _ hw.1 _ _) _ _

/-- Settles O60: what a turn foresees the run meets or stops before, what the run meets is foreseen unless drawing it
keeps the run from it, and a load tells the run to its end. -/
theorem racesReachOverTheRun : Obligations.RacesReachOverTheRun := by
  refine ⟨fun s u n x acc hu hm hx => ?_, fun s u t k n a v es acc hu ht hb ha hn => ?_,
    fun s u x acc hu hr hd => ⟨fun before after ha hs => ?_, fun hmeets hstops => ?_⟩, fun s t a rest hb h ht => ?_⟩
  · refine ⟨seqByte_of_raced (foreseen_of_meets hu hm hx) acc, ?_⟩
    rcases meetsWrite_of_drawn (Nat.le_refl _) (by simp [hu]) hm hx with
      ⟨k, t, e, es, hk, hb, hw⟩ | ⟨k, t, hk, hb, hs⟩
    · exact ⟨k, t, hk, hb, .inl ⟨e, es, hw⟩⟩
    · exact ⟨k, t, hk, hb, .inr hs⟩
  · cases hm : meets n (s.drawn n) with
    | false => exact .inr rfl
    | true => exact .inl (seqByte_of_raced (foreseen_of_meets hu hm (store_mem_comingWrites ht ha hn)) acc)
  · exact seqByte_of_sequencerTurn hu (not_foreseen_of_not_stored hu hr hd ha hs) hd acc
  · refine seqByte_of_sequencerTurn hu (fun hx => ?_) hd acc
    rcases meetsWrite_of_foreseen hu hx hr with ⟨k, t, e, es, hk, hb, ha, hw⟩ | ⟨k, t, hk, hb, hs⟩
    · exact hmeets k t e es hk hb ha hw
    · obtain ⟨v, hv⟩ := hstops k t hk hb
      exact hs v hv
  · exact ⟨fun k u hu ha => load_of_written hb h ht hu ha,
      fun k u hp hu hbu ha hc => load_of_unwritten hp h ht hu hbu ha hc⟩

end Sys2Proof.Proofs
end

section
/-! PROOFS. The laws behind the statements about the encoding: a command word by its fields, its match under an opcode's
mask, the 16 bytes of a command, and the NO_KEY check that comes first. -/

namespace Sys2Proof

/-! ### A command word by its fields (spec/30_encoding.md R101, R106) -/

/-- The five fields of a command word hold all its bits. -/
theorem commandWord_ext {v w : Word} (hop : v.extractLsb' 0 8 = w.extractLsb' 0 8)
    (hrd : v.extractLsb' 8 4 = w.extractLsb' 8 4) (hrs1 : v.extractLsb' 12 4 = w.extractLsb' 12 4)
    (hrs2 : v.extractLsb' 16 4 = w.extractLsb' 16 4) (hrsv : v.extractLsb' 20 12 = w.extractLsb' 20 12) : v = w := by
  simp only [← BitVec.toNat_inj, BitVec.extractLsb'_toNat, Nat.shiftRight_eq_div_pow] at *
  omega

theorem commandWordOf_fields {cw : Word} {o : Op} (hop : o.code = cw.extractLsb' 0 8)
    (hrsv : cw.extractLsb' 20 12 = 0) :
    commandWordOf o (cw.extractLsb' 8 4) (cw.extractLsb' 12 4) (cw.extractLsb' 16 4) = cw :=
  commandWord_ext ((commandWordOf_op ..).trans hop) (commandWordOf_rd ..) (commandWordOf_rs1 ..) (commandWordOf_rs2 ..)
    ((commandWordOf_rsv ..).trans hrsv.symm)

theorem commandWordOf_zero (o : Op) : commandWordOf o 0 0 0 = o.code.setWidth 32 := by
  simp [commandWordOf]

/-- The fields that an opcode's mask covers, it covers whole (R106). -/
theorem mask_fields (o : Op) :
    o.mask.extractLsb' 0 8 = BitVec.allOnes 8 ∧ o.mask.extractLsb' 20 12 = BitVec.allOnes 12 ∧
    (o.uses.rd = false → o.mask.extractLsb' 8 4 = BitVec.allOnes 4) ∧
    (o.uses.rs1 = false → o.mask.extractLsb' 12 4 = BitVec.allOnes 4) ∧
    (o.uses.rs2 = false → o.mask.extractLsb' 16 4 = BitVec.allOnes 4) := by
  cases o <;> decide

/-- A field that the mask covers whole is that of the match. -/
theorem extractLsb'_of_and_eq {cw mask m : Word} {st len : Nat} (h : cw &&& mask = m)
    (hm : mask.extractLsb' st len = BitVec.allOnes len) : cw.extractLsb' st len = m.extractLsb' st len := by
  rw [← h, BitVec.extractLsb'_and, hm, BitVec.and_allOnes]

/-- A word matches an opcode under its mask where OP is its code and RSV and the unused register fields are 0 (R106). -/
theorem and_mask_eq_iff {cw : Word} {o : Op} :
    cw &&& o.mask = o.code.setWidth 32 ↔ o.code = cw.extractLsb' 0 8 ∧ cw.extractLsb' 20 12 = 0 ∧
      (o.uses.rd = false → cw.extractLsb' 8 4 = 0) ∧ (o.uses.rs1 = false → cw.extractLsb' 12 4 = 0) ∧
      (o.uses.rs2 = false → cw.extractLsb' 16 4 = 0) := by
  constructor
  · intro h
    rw [← commandWordOf_zero] at h
    obtain ⟨hop, hrsv, hrd, hrs1, hrs2⟩ := mask_fields o
    exact ⟨((extractLsb'_of_and_eq h hop).trans (commandWordOf_op ..)).symm,
      (extractLsb'_of_and_eq h hrsv).trans (commandWordOf_rsv ..),
      fun hu => (extractLsb'_of_and_eq h (hrd hu)).trans (commandWordOf_rd ..),
      fun hu => (extractLsb'_of_and_eq h (hrs1 hu)).trans (commandWordOf_rs1 ..),
      fun hu => (extractLsb'_of_and_eq h (hrs2 hu)).trans (commandWordOf_rs2 ..)⟩
  · rintro ⟨hop, hrsv, hrd, hrs1, hrs2⟩
    have h := Laws.MatchMask.commandWordOf_match o _ _ _ hrd hrs1 hrs2
    rwa [commandWordOf_fields hop hrsv] at h

/-! ### What decodes (spec/30_encoding.md R103, R109) -/

theorem fieldOk_iff {used : Bool} {r : Reg} :
    (if used then r.toNat < 8 else r = 0) ↔ (used = true → r.toNat < 8) ∧ (used = false → r = 0) := by
  cases used <;> simp

/-- What `decodeWords` accepts, by mask and match, and what it gives. -/
theorem decodeWords_eq_ok_iff_match {cw a b n : Word} {i : Instr} :
    decodeWords cw a b n = .ok i ↔ ∃ o : Op, cw &&& o.mask = o.code.setWidth 32 ∧
      (o.uses.rd = true → (cw.extractLsb' 8 4).toNat < 8) ∧ (o.uses.rs1 = true → (cw.extractLsb' 12 4).toNat < 8) ∧
      (o.uses.rs2 = true → (cw.extractLsb' 16 4).toNat < 8) ∧
      i = assemble o (cw.extractLsb' 8 4) (cw.extractLsb' 12 4) (cw.extractLsb' 16 4) a b n := by
  simp only [decodeWords_eq_ok, fieldOk_iff, and_mask_eq_iff]
  refine exists_congr fun o => ⟨?_, ?_⟩
  · rintro ⟨hop, hrsv, ⟨hrd, hrd0⟩, ⟨hrs1, hrs10⟩, ⟨hrs2, hrs20⟩, hi⟩
    exact ⟨⟨hop, hrsv, hrd0, hrs10, hrs20⟩, hrd, hrs1, hrs2, hi⟩
  · rintro ⟨⟨hop, hrsv, hrd0, hrs10, hrs20⟩, hrd, hrs1, hrs2, hi⟩
    exact ⟨hop, hrsv, ⟨hrd, hrd0⟩, ⟨hrs1, hrs10⟩, ⟨hrs2, hrs20⟩, hi⟩

/-- A command is well-formed where the register fields that its opcode uses hold 0 to 7 (R103). -/
theorem assemble_wf_iff {o : Op} {rd rs1 rs2 : Reg} {a b n : Word} :
    (assemble o rd rs1 rs2 a b n).wf = true ↔ (o.uses.rd = true → rd.toNat < 8) ∧ (o.uses.rs1 = true → rs1.toNat < 8) ∧
      (o.uses.rs2 = true → rs2.toNat < 8) := by
  cases o <;> simp [assemble, Instr.wf, Op.uses, Reg.ok, and_assoc]

theorem wf_of_decodeWords {cw a b n : Word} {i : Instr} (h : decodeWords cw a b n = .ok i) : i.wf = true := by
  obtain ⟨o, -, hrd, hrs1, hrs2, rfl⟩ := decodeWords_eq_ok_iff_match.1 h
  exact assemble_wf_iff.2 ⟨hrd, hrs1, hrs2⟩

/-- A used register field above 7, or an unused one that is not 0 (R103). -/
def BadField (used : Bool) (r : Reg) : Prop := (used = true ∧ 7 < r.toNat) ∨ (used = false ∧ r ≠ 0)

theorem not_badField {used : Bool} {r : Reg} (h : if used then r.toNat < 8 else r = 0) : ¬ BadField used r := by
  obtain ⟨hused, hunused⟩ := fieldOk_iff.1 h
  rintro (⟨hu, hr⟩ | ⟨hu, hr⟩)
  · exact absurd (hused hu) (Nat.not_lt.2 hr)
  · exact hr (hunused hu)

/-- A word with a reserved opcode, a nonzero RSV or a bad register field is no command, whatever its operand words. -/
theorem decodeWords_error {cw : Word} (a b n : Word)
    (h : (∀ o : Op, o.code ≠ cw.extractLsb' 0 8) ∨ cw.extractLsb' 20 12 ≠ 0 ∨
      ∃ o : Op, o.code = cw.extractLsb' 0 8 ∧ (BadField o.uses.rd (cw.extractLsb' 8 4) ∨
        BadField o.uses.rs1 (cw.extractLsb' 12 4) ∨ BadField o.uses.rs2 (cw.extractLsb' 16 4))) :
    ∃ e, decodeWords cw a b n = .error e := by
  cases hd : decodeWords cw a b n with
  | error e => exact ⟨e, rfl⟩
  | ok i =>
    obtain ⟨o, hop, hrsv, hrd, hrs1, hrs2, -⟩ := decodeWords_eq_ok.1 hd
    rcases h with h | h | ⟨o', hop', h⟩
    · exact absurd hop (h o)
    · exact absurd hrsv h
    · obtain rfl : o' = o :=
        Option.some.inj ((ofCode_eq_some.2 hop').symm.trans (ofCode_eq_some.2 hop))
      rcases h with h | h | h
      · exact absurd h (not_badField hrd)
      · exact absurd h (not_badField hrs1)
      · exact absurd h (not_badField hrs2)

/-! ### The encoding of a command (spec/30_encoding.md R100, R101, R108) -/

/-- The words of every command match its opcode under its mask, and hold its operands. -/
theorem encodeWords_match (i : Instr) : Laws.MatchMask.Statement i := by
  cases i with
  | halt => exact Laws.MatchMask.halt
  | nop => exact Laws.MatchMask.nop
  | keyld a n => exact Laws.MatchMask.keyld a n
  | keyclr => exact Laws.MatchMask.keyclr
  | bld rd a => exact Laws.MatchMask.bld rd a
  | bst rs1 a => exact Laws.MatchMask.bst rs1 a
  | bzero rd => exact Laws.MatchMask.bzero rd
  | bmov rd rs1 => exact Laws.MatchMask.bmov rd rs1
  | bxor rd rs1 rs2 => exact Laws.MatchMask.bxor rd rs1 rs2
  | cteq rs1 rs2 => exact Laws.MatchMask.cteq rs1 rs2
  | dbl rd rs1 => exact Laws.MatchMask.dbl rd rs1
  | ctrmask rd rs1 => exact Laws.MatchMask.ctrmask rd rs1
  | padxor rd rs1 a n => exact Laws.MatchMask.padxor rd rs1 a n
  | xorend rs1 a b n => exact Laws.MatchMask.xorend rs1 a b n
  | macz rd => exact Laws.MatchMask.macz rd
  | mac rd a n => exact Laws.MatchMask.mac rd a n
  | fold rd rs1 a n => exact Laws.MatchMask.fold rd rs1 a n
  | macend rd rs1 a n => exact Laws.MatchMask.macend rd rs1 a n
  | ctrxor rs1 a b n => exact Laws.MatchMask.ctrxor rs1 a b n
  | s2v rd a n => exact Laws.MatchMask.s2v rd a n
  | sealAead rd a b n => exact Laws.MatchMask.sealAead rd a b n
  | openAead rd a b n => exact Laws.MatchMask.openAead rd a b n

theorem decodeWords_encodeWords {i : Instr} (h : i.wf = true) :
    decodeWords (encodeWords i).1 (encodeWords i).2.1 (encodeWords i).2.2.1 (encodeWords i).2.2.2 = .ok i := by
  obtain ⟨hmatch, hi⟩ := encodeWords_match i
  rw [← hi] at h
  obtain ⟨hrd, hrs1, hrs2⟩ := assemble_wf_iff.1 h
  exact decodeWords_eq_ok_iff_match.2 ⟨i.op, hmatch, hrd, hrs1, hrs2, hi.symm⟩

/-- Decoding reads the four words of the first 16 bytes, and leaves the bytes after them (R108). -/
theorem decode_bytesOfWords (cw a b n : Word) (rest : List Byte) :
    decode (bytesOfWord cw ++ bytesOfWord a ++ bytesOfWord b ++ bytesOfWord n ++ rest) =
      (decodeWords cw a b n).map fun i => (i, rest) := by
  simp only [bytesOfWord, List.cons_append, List.nil_append, decode, wordOfBytes_bytesOfWord]
  cases decodeWords cw a b n <;> rfl

theorem commandWord_bytesOfWord (cw : Word) (rest : List Byte) : commandWord (bytesOfWord cw ++ rest) = cw :=
  wordOfBytes_bytesOfWord cw

end Sys2Proof

namespace Sys2Proof.Machine

/-! ### Cycles and commands that fault at once -/

/-- A cycle that fetches no command raises ILLEGAL_OPCODE with CW (spec/60_exceptions.md R281). -/
theorem sequencerStep_illegal {s : State} {bs : List Byte} {e : DecodeError} (hf : fetch s = .ok bs)
    (hd : decode bs = .error e) : sequencerStep s = .next (raise s .illegalOpcode (commandWord bs)) := by
  rw [sequencerStep_endRun hf (.inr ⟨e, hd⟩), endRun, hd]

theorem needKey_raise {s : State} (h : s.keyValid = false) : needKey s = .error (.raise .noKey 0) := by
  rw [needKey, h, check_false]

/-- The first check of a descriptor table is NO_KEY (spec/43_vector_mac.md R175). -/
theorem readTable_noKey {s : State} (h : s.keyValid = false) (a n : Word) :
    readTable s a n = .error (.raise .noKey 0) := by
  rw [readTable, needKey_raise h, bind_error]

end Sys2Proof.Machine
end

section
/-! PROOFS. The statements about the encoding, and that NO_KEY comes first, settled from these laws. -/

namespace Sys2Proof.Proofs
open Sys2Proof.Machine

/-- Settles O4: the words of a command match its opcode under its mask, and its register fields are in range. -/
theorem decodeEncode : Obligations.DecodeEncode := by
  intro i rest h
  rw [encode, decode_bytesOfWords, decodeWords_encodeWords h]
  rfl

/-- Settles O5: the checks of R109 are the match under the opcode's mask and the bounds of the used register fields. -/
theorem decodableWords : Obligations.DecodableWords := by
  refine fun cw a b n => ⟨⟨?_, ?_⟩, fun i => wf_of_decodeWords⟩
  · rintro ⟨i, h⟩
    obtain ⟨o, hmatch, hrd, hrs1, hrs2, -⟩ := decodeWords_eq_ok_iff_match.1 h
    exact ⟨o, hmatch, hrd, hrs1, hrs2⟩
  · rintro ⟨o, hmatch, hrd, hrs1, hrs2⟩
    exact ⟨_, decodeWords_eq_ok_iff_match.2 ⟨o, hmatch, hrd, hrs1, hrs2, rfl⟩⟩

/-- Settles O8: such a word is no command, so the cycle that fetches it raises ILLEGAL_OPCODE. -/
theorem illegalCommandWord : Obligations.IllegalCommandWord := by
  intro s u cw a b n hu hf h
  obtain ⟨e, he⟩ : ∃ e, decodeWords cw a b n = .error e := by
    refine decodeWords_error a b n (h.imp_right (Or.imp_right ?_))
    rintro ⟨o, hop, hbad⟩
    exact ⟨o, hop, by simpa only [BadField, or_assoc] using hbad⟩
  have hd : decode (bytesOfWord cw ++ bytesOfWord a ++ bytesOfWord b ++ bytesOfWord n) = .error e := by
    rw [← List.append_nil (_ ++ bytesOfWord n), decode_bytesOfWords, he]
    rfl
  rw [step_of_sequencerTurn hu, sequencerStep_illegal hf hd, List.append_assoc, List.append_assoc,
    commandWord_bytesOfWord]

/-- Settles O6: the decoder evaluates on the listed bytes and words. -/
theorem sampleWordsDecode : Obligations.SampleWordsDecode :=
  ⟨rfl, rfl, rfl, rfl, rfl, rfl, rfl, rfl, rfl, rfl, rfl⟩

/-- Settles O26: the first check of each command marked Key is its own NO_KEY check, or that of its descriptor table. -/
theorem noKeyComesFirst : Obligations.NoKeyComesFirst := by
  intro i s hi hs
  have hkey := needKey_raise hs
  have htable := readTable_noKey hs
  cases i with
  | macz rd => simp only [exec, execMacz, hkey, bind_error, conclude_error, stop_raise]
  | mac rd a n => simp only [exec, execMac, hkey, bind_error, conclude_error, stop_raise]
  | fold rd rs1 a n => simp only [exec, execFold, hkey, bind_error, conclude_error, stop_raise]
  | macend rd rs1 a n => simp only [exec, execMacend, hkey, bind_error, conclude_error, stop_raise]
  | ctrxor rs1 a b n => simp only [exec, execCtrxor, ctrxorPlan, hkey, bind_error, stop_raise]
  | s2v rd a n => simp only [exec, execS2v, htable, bind_error, conclude_error, stop_raise]
  | sealAead rd a b n => simp only [exec, execSealAead, sealPlan, htable, bind_error, stop_raise]
  | openAead rd a b n => simp only [exec, execOpenAead, openPlan, htable, bind_error, stop_raise]
  | _ => cases hi

end Sys2Proof.Proofs
end

section
/-! PROOFS. Doubling (spec/41_doubling.md): `dbl` as a shift and a reduction, its bytes and its inverse, and the two
statements about it settled from these laws. -/

namespace Sys2Proof.Machine

/-! ### `dbl` as a shift and a reduction (R130) -/

/-- What `dbl` XORs into the shifted block: `0x87` where the top bit was set. -/
def reduction (top : Bool) : Block := if top then 0x87 else 0

@[simp] theorem reduction_true : reduction true = 0x87 := rfl

@[simp] theorem reduction_false : reduction false = 0 := rfl

theorem reduction_xor (c d : Bool) : reduction (c ^^ d) = reduction c ^^^ reduction d := by
  cases c <;> cases d <;> rfl

theorem dbl_eq_xor_reduction (v : Block) : dbl v = (v <<< 1) ^^^ reduction v.msb := by
  cases h : v.msb <;> simp [dbl, h]

theorem dbl_of_top_clear {v : Block} (h : v.msb = false) : dbl v = v <<< 1 := by simp [dbl, h]

theorem dbl_of_top_set {v : Block} (h : v.msb = true) : dbl v = (v <<< 1) ^^^ 0x87 := by simp [dbl, h]

/-! ### The bytes of the doubled block (R130) -/

theorem blockByte_reduction_last (top : Bool) : blockByte (reduction top) 15 = if top then 0x87 else 0 := by
  cases top <;> decide

/-- The reduction reaches the last byte only. -/
theorem blockByte_reduction_other (top : Bool) {i : Nat} (hi : i < 15) : blockByte (reduction top) i = 0 := by
  have hset : ∀ i < 15, blockByte 0x87 i = 0 := by decide
  cases top with
  | true => exact hset i hi
  | false => simp [blockByte]

theorem blockByte_shiftLeft_one_last (v : Block) : blockByte (v <<< 1) 15 = blockByte v 15 <<< 1 := by
  apply BitVec.eq_of_getLsbD_eq
  intro j hj
  rw [blockByte_getLsbD _ _ _ hj, BitVec.getLsbD_shiftLeft, BitVec.getLsbD_shiftLeft,
    blockByte_getLsbD _ _ _ (by omega)]
  simp [hj, show j < 128 by omega]

/-- A byte of the shifted block takes its lowest bit from the top of the next byte. -/
theorem blockByte_shiftLeft_one (v : Block) {i : Nat} (hi : i < 15) :
    blockByte (v <<< 1) i = (blockByte v i <<< 1) ||| (blockByte v (i + 1) >>> 7) := by
  apply BitVec.eq_of_getLsbD_eq
  intro j hj
  rw [blockByte_getLsbD _ _ _ hj, BitVec.getLsbD_or, BitVec.getLsbD_shiftLeft, BitVec.getLsbD_shiftLeft,
    BitVec.getLsbD_ushiftRight]
  cases j with
  | zero =>
    have htop : (blockByte v (i + 1)).getLsbD 7 = v.getLsbD (8 * (15 - i) - 1) := by
      rw [blockByte_getLsbD _ _ _ (by decide), show 8 * (15 - (i + 1)) + 7 = 8 * (15 - i) - 1 by omega]
    simpa [show 8 * (15 - i) < 128 by omega, show 15 - i ≠ 0 by omega] using htop.symm
  | succ j =>
    rw [blockByte_getLsbD _ _ _ (by omega), BitVec.getLsbD_of_ge _ (7 + (j + 1)) (by omega)]
    simp [hj, show 8 * (15 - i) + (j + 1) < 128 by omega]

theorem blockByte_zero_top (v : Block) : (blockByte v 0).getLsbD 7 = v.msb := by
  rw [blockByte_getLsbD _ _ _ (by decide), BitVec.msb_eq_getLsbD_last]

theorem blockByte_dbl (v : Block) {i : Nat} (hi : i < 15) :
    blockByte (dbl v) i = (blockByte v i <<< 1) ||| (blockByte v (i + 1) >>> 7) := by
  rw [dbl_eq_xor_reduction, blockByte_xor, blockByte_reduction_other _ hi, blockByte_shiftLeft_one v hi]
  exact BitVec.xor_zero

theorem blockByte_dbl_last (v : Block) :
    blockByte (dbl v) 15 = (blockByte v 15 <<< 1) ^^^ (if (blockByte v 0).getLsbD 7 then 0x87 else 0x00) := by
  rw [dbl_eq_xor_reduction, blockByte_xor, blockByte_shiftLeft_one_last, blockByte_reduction_last, blockByte_zero_top]

/-! ### The laws of `dbl` (R132) -/

theorem dbl_xor (x y : Block) : dbl (x ^^^ y) = dbl x ^^^ dbl y := by
  simp only [dbl_eq_xor_reduction, BitVec.shiftLeft_xor_distrib, BitVec.msb_xor, reduction_xor]
  ac_rfl

theorem toNat_dbl_of_top_clear {v : Block} (h : v.msb = false) : (dbl v).toNat = 2 * v.toNat := by
  have hlt := BitVec.msb_eq_false_iff_two_mul_lt.1 h
  rw [dbl_of_top_clear h, BitVec.toNat_shiftLeft, Nat.shiftLeft_eq]
  omega

/-- Shifting right and left again loses the lowest bit. -/
theorem shiftLeft_shiftRight_one (r : Block) : (r >>> 1) <<< 1 = r ^^^ (if r.getLsbD 0 then 1 else 0) := by
  apply BitVec.eq_of_getLsbD_eq
  intro k hk
  cases k with
  | zero => cases h : r.getLsbD 0 <;> simpa using h
  | succ k => cases r.getLsbD 0 <;> simp [hk, Nat.add_comm]

/-- The inverse of `dbl` (R132). -/
def halve (r : Block) : Block :=
  if r.getLsbD 0 then ((r >>> 1) ^^^ (0x43 : Block)) ||| ((1 : Block) <<< 127) else r >>> 1

theorem dbl_halve (r : Block) : dbl (halve r) = r := by
  have hshift := shiftLeft_shiftRight_one r
  cases h : r.getLsbD 0 with
  | false =>
    have htop : (r >>> 1).msb = false := by simp
    simp only [halve, h, Bool.false_eq_true, if_false] at hshift ⊢
    rw [dbl_of_top_clear htop, hshift]
    exact BitVec.xor_zero
  | true =>
    have htop : ((r >>> 1 ^^^ (0x43 : Block)) ||| ((1 : Block) <<< 127)).msb = true := by
      rw [BitVec.msb_or, show ((1 : Block) <<< 127).msb = true by decide, Bool.or_true]
    have hmask : (0x43 : Block) <<< 1 = 1 ^^^ 0x87 := by decide
    have hbit : ((1 : Block) <<< 127) <<< 1 = 0 := by decide
    simp only [halve, h, if_true] at hshift ⊢
    rw [dbl_of_top_set htop, BitVec.shiftLeft_or_distrib, BitVec.shiftLeft_xor_distrib, hshift, hmask, hbit]
    simp [BitVec.xor_assoc]

/-- `dbl` has a right inverse on a finite type, so it is one-to-one. -/
theorem dbl_injective : Function.Injective dbl :=
  Finite.injective_iff_surjective.2 fun r => ⟨halve r, dbl_halve r⟩

/-- DBL ends below the last command address with the doubled block in RD (R131). -/
theorem exec_dbl {s : State} (h : s.pc ≠ lastPc) (rd rs1 : Reg) :
    exec (.dbl rd rs1) s = .next (s.setB rd (dbl (s.getB rs1))).next :=
  complete_of_ne_last h

end Sys2Proof.Machine

namespace Sys2Proof.Proofs
open Sys2Proof.Machine

/-- Settles O21: the value is the doubled block, whose bytes are those of the shifted block and of the reduction. -/
theorem dblCompletes : Obligations.DblCompletes :=
  fun s rd rs1 h => ⟨dbl (s.getB rs1), exec_dbl h rd rs1, fun _ hi => blockByte_dbl _ hi, blockByte_dbl_last _⟩

/-- Settles O22: shift and reduction are linear, and `halve` undoes them; the two arms are those of the top bit. -/
theorem dblLaws : Obligations.DblLaws :=
  ⟨by decide, dbl_xor, dbl_halve, fun _ _ h => dbl_injective h,
    fun b h => toNat_dbl_of_top_clear ((BitVec.msb_eq_getLsbD_last b).trans h),
    fun b h => dbl_of_top_set ((BitVec.msb_eq_getLsbD_last b).trans h)⟩

end Sys2Proof.Proofs
end

section
/-! PROOFS. The terminal combiner (spec/42_combiner.md): the bytes of `pad`, `xorend` as an involution, the two arms of
`terminal`, and the three statements about them settled from these laws. -/

namespace Sys2Proof.Machine

/-! ### `pad` (R150) -/

/-- The bytes of a padded string of at most 15 bytes. -/
theorem blockByte_pad {x : List Byte} (hx : x.length < 16) {i : Nat} (hi : i < 16) :
    blockByte (pad x) i = if i < x.length then x.getD i 0 else if i = x.length then 0x80 else 0x00 := by
  have hlen : (x ++ 0x80 :: List.replicate (15 - x.length) 0).length = 16 := by
    simp only [List.length_append, List.length_cons, List.length_replicate]
    omega
  rw [pad, blockByte_blockOfBytes _ hlen i hi]
  rcases Nat.lt_trichotomy i x.length with hlt | rfl | hgt
  · rw [if_pos hlt, List.getElem_append_left hlt, List.getD_eq_getElem _ _ hlt]
  · simp
  · rw [if_neg (by omega), if_neg (by omega), List.getElem_append_right (by omega), List.getElem_cons,
      dif_neg (by omega), List.getElem_replicate]

/-- The last `0x80` byte of a padded string stands right after the string (R155). -/
theorem length_le_of_pad_eq {x y : List Byte} (hx : x.length < 16) (hy : y.length < 16) (h : pad x = pad y) :
    y.length ≤ x.length := by
  by_contra hlt
  have hbyte := blockByte_pad hx hy
  rw [h, blockByte_pad hy hy, if_neg (by omega), if_pos rfl, if_neg (by omega), if_neg (by omega)] at hbyte
  exact absurd hbyte (by decide)

theorem pad_injective {x y : List Byte} (hx : x.length < 16) (hy : y.length < 16) (h : pad x = pad y) : x = y := by
  have hlen : x.length = y.length :=
    Nat.le_antisymm (length_le_of_pad_eq hy hx h.symm) (length_le_of_pad_eq hx hy h)
  apply List.ext_getElem hlen
  intro i hix hiy
  have hbyte := blockByte_pad hx (hix.trans hx)
  rw [h, blockByte_pad hy (hix.trans hx), if_pos hiy, if_pos hix, List.getD_eq_getElem _ _ hiy,
    List.getD_eq_getElem _ _ hix] at hbyte
  exact hbyte.symm

/-! ### `xorend` (R151) -/

/-- The bytes of `xorend` with a block: all but the last 16 are kept. -/
theorem xorend_blockBytes_getElem {x : List Byte} (hx : 16 ≤ x.length) (d : Block) {i : Nat} (hi : i < x.length)
    (h : i < (xorend x (blockBytes d)).length) :
    (xorend x (blockBytes d))[i] =
      if i < x.length - 16 then x[i] else x[i] ^^^ blockByte d (i - (x.length - 16)) := by
  rw [xorend_getElem (by simpa using hx)]
  simp only [blockBytes_length, blockBytes_getElem]
  split <;> rfl

/-- `xorend(·, b)` is an involution on the strings at least as long as `b` (R155). -/
theorem xorend_xorend {a b : List Byte} (h : b.length ≤ a.length) : xorend (xorend a b) b = a := by
  have hlen := xorend_length h
  have h' : b.length ≤ (xorend a b).length := h.trans_eq hlen.symm
  apply List.ext_getElem ((xorend_length h').trans hlen)
  intro i hi hia
  rw [xorend_getElem h']
  simp only [hlen]
  by_cases hk : i < a.length - b.length
  · rw [dif_pos hk, xorend_getElem h, dif_pos hk]
  · rw [dif_neg hk, xorend_getElem h, dif_neg hk, BitVec.xor_assoc, BitVec.xor_self, BitVec.xor_zero]

theorem xorend_left_injective {a a' b : List Byte} (h : b.length ≤ a.length) (h' : b.length ≤ a'.length)
    (he : xorend a b = xorend a' b) : a = a' := by
  rw [← xorend_xorend h, he, xorend_xorend h']

/-! ### The two arms of `terminal` (R152) -/

theorem terminal_of_short {x : List Byte} (h : x.length < 16) (d : Block) :
    terminal x d = blockBytes (pad x ^^^ dbl d) := if_neg (Nat.not_le.2 h)

theorem terminal_of_long {x : List Byte} (h : 16 ≤ x.length) (d : Block) : terminal x d = xorend x (blockBytes d) :=
  if_pos h

theorem terminal_injective_short {x y : List Byte} {d : Block} (hx : x.length < 16) (hy : y.length < 16)
    (h : terminal x d = terminal y d) : x = y := by
  rw [terminal_of_short hx, terminal_of_short hy] at h
  exact pad_injective hx hy ((BitVec.xor_left_inj (dbl d)).1 (blockBytes_injective h))

theorem terminal_injective_long {x y : List Byte} {d : Block} (hx : 16 ≤ x.length) (hy : 16 ≤ y.length)
    (h : terminal x d = terminal y d) : x = y := by
  rw [terminal_of_long hx, terminal_of_long hy] at h
  exact xorend_left_injective (by simpa using hx) (by simpa using hy) h

/-! ### PADXOR and XOREND (R153, R154) -/

/-- PADXOR ends below the last command address with the padded field XOR the doubled chaining value in RD. -/
theorem exec_padxor {s : State} {a n : Word} (hpc : s.pc ≠ lastPc) (hn : n.toNat ≤ 15)
    (hr : rangeLegal a.toNat n.toNat = true) (hp : plainRange s.platform a.toNat n.toNat) (rd rs1 : Reg) :
    exec (.padxor rd rs1 a n) s =
      .next (s.setB rd (pad (seqBytes s (.data 0) a.toNat n.toNat) ^^^ dbl (s.getB rs1))).next := by
  have hread : readOperand s a n.toNat = .ok (seqBytes s (.data 0) a.toNat n.toNat) :=
    readOperand_eq_ok.2 ⟨hr, hp, rfl⟩
  simp only [exec, execPadxor, decide_eq_true hn, check_true, hread, bind_ok, pure_ok, conclude_ok]
  exact complete_of_ne_last hpc

end Sys2Proof.Machine

namespace Sys2Proof.Proofs
open Sys2Proof.Machine

/-- Settles O31: the value is the padded field XOR the doubled chaining value, and the field's bytes are those read. -/
theorem padxorCompletes : Obligations.PadxorCompletes := by
  intro s rd rs1 a n hpc hn hr hp
  refine ⟨_, exec_padxor hpc hn hr hp rd rs1, fun i hi => ?_⟩
  have hshort : (seqBytes s (.data 0) a.toNat n.toNat).length < 16 := by rw [seqBytes_length]; omega
  rw [blockByte_xor, blockByte_pad hshort hi, seqBytes_length]
  congr 1
  split
  · next hlt => rw [List.getD_eq_getElem _ _ (by rwa [seqBytes_length]), seqBytes_getElem]
  · rfl

/-- Settles O32: the plan passes its checks, and the bytes stored are those of `xorend` with the block. -/
theorem xorendCompletes : Obligations.XorendCompletes := by
  intro s rs1 a b n hw hpc h16 hmax ha hb hdisj hpa hpb
  have hsrc : (seqBytes s (.data 0) a.toNat n.toNat).length = n.toNat := seqBytes_length ..
  have hlen : (xorend (seqBytes s (.data 0) a.toNat n.toNat) (blockBytes (s.getB rs1))).length = n.toNat := by
    rw [xorend_length (by rwa [hsrc, blockBytes_length]), hsrc]
  have hplan := (xorendPlan_eq_ok (r := rs1) (b := b)).2
    ⟨h16, hmax, rangeLegal_iff.2 (.inr ha), rangeLegal_iff.2 (.inr hb), hdisj, hpa, rfl⟩
  simp only [exec, execXorend, hplan]
  obtain ⟨t, hnext, hframe, hmarks, hin, hout⟩ := storeThen_id hw hpc (hlen.symm ▸ hpb)
  rw [hlen] at hmarks hout
  refine ⟨t, hnext, hframe, hmarks, fun i hi => ?_, hout⟩
  rw [hin i (by rwa [hlen]), xorend_blockBytes_getElem (by rwa [hsrc]) _ (by rwa [hsrc])]
  simp only [seqBytes_length, seqBytes_getElem]

/-- Settles O33: each arm by the bytes of `pad` or `xorend`; `pad` is one-to-one and `xorend` an involution. -/
theorem terminalInjective : Obligations.TerminalInjective := by
  refine ⟨fun x d => ⟨fun hx => ?_, fun hx => ?_⟩, fun x y d hclass h => ?_⟩
  · rw [terminal_of_short hx]
    refine ⟨blockBytes_length _, fun i hi => ?_⟩
    rw [List.getElem?_eq_getElem (by rwa [blockBytes_length]), blockBytes_getElem, blockByte_xor, blockByte_pad hx hi]
  · have hlen : (xorend x (blockBytes d)).length = x.length := xorend_length (by simpa using hx)
    rw [terminal_of_long hx]
    refine ⟨hlen, fun i hi => ?_⟩
    rw [List.getElem?_eq_getElem (by rwa [hlen]), xorend_blockBytes_getElem hx d hi, List.getD_eq_getElem _ _ hi]
  · by_cases hx : 16 ≤ x.length
    · exact terminal_injective_long hx (hclass.1 hx) h
    · exact terminal_injective_short (Nat.not_le.1 hx) (Nat.not_le.1 (mt hclass.2 hx)) h

end Sys2Proof.Proofs
end

section
/-! PROOFS. The vector MAC (spec/43_vector_mac.md): its commands complete, S2V chains as its primitives do, the faults
of a descriptor table in their order, and the three statements about them settled from these laws. -/

namespace Sys2Proof.Machine

/-! ### The commands that read one field (R171-R174) -/

/-- A field that MAC, FOLD and MACEND accept and can read (R172-R174). -/
structure ReadableField (s : State) (a : Word) (n : Nat) : Prop where
  len : n ≤ Config.maxLen
  legal : rangeLegal a.toNat n = true
  plain : plainRange s.platform a.toNat n

theorem ReadableField.readOperand {s : State} {a : Word} {n : Nat} (h : ReadableField s a n) :
    readOperand s a n = .ok (seqBytes s (.data 0) a.toNat n) :=
  readOperand_eq_ok.2 ⟨h.legal, h.plain, rfl⟩

/-- What MAC, FOLD and MACEND share: their checks pass, and RD takes a value computed from the field. -/
theorem conclude_field {s : State} {a n : Word} (hpc : s.pc ≠ lastPc) (hkey : s.keyValid = true)
    (hf : ReadableField s a n.toNat) (rd : Reg) (f : List Byte → Block) :
    (conclude s do
      needKey s
      needLen n
      let m ← readOperand s a n.toNat
      return s.setB rd (f m)) = .next (s.setB rd (f (seqBytes s (.data 0) a.toNat n.toNat))).next := by
  simp only [needKey_ok hkey, needLen_ok hf.len, hf.readOperand, bind_ok, pure_ok, conclude_ok]
  exact complete_of_ne_last hpc

theorem exec_macz {s : State} (hpc : s.pc ≠ lastPc) (hkey : s.keyValid = true) (rd : Reg) :
    exec (.macz rd) s = .next (s.setB rd (macZero s.macKey)).next := by
  simp only [exec, execMacz, needKey_ok hkey, bind_ok, pure_ok, conclude_ok]
  exact complete_of_ne_last hpc

theorem exec_mac {s : State} {a n : Word} (hpc : s.pc ≠ lastPc) (hkey : s.keyValid = true)
    (hf : ReadableField s a n.toNat) (rd : Reg) :
    exec (.mac rd a n) s = .next (s.setB rd (Config.CMAC s.macKey (seqBytes s (.data 0) a.toNat n.toNat))).next :=
  conclude_field hpc hkey hf rd (Config.CMAC s.macKey)

theorem exec_fold {s : State} {a n : Word} (hpc : s.pc ≠ lastPc) (hkey : s.keyValid = true)
    (hf : ReadableField s a n.toNat) (rd rs1 : Reg) :
    exec (.fold rd rs1 a n) s =
      .next (s.setB rd (dbl (s.getB rs1) ^^^ Config.CMAC s.macKey (seqBytes s (.data 0) a.toNat n.toNat))).next :=
  conclude_field hpc hkey hf rd fun m => dbl (s.getB rs1) ^^^ Config.CMAC s.macKey m

theorem exec_macend {s : State} {a n : Word} (hpc : s.pc ≠ lastPc) (hkey : s.keyValid = true)
    (hf : ReadableField s a n.toNat) (rd rs1 : Reg) :
    exec (.macend rd rs1 a n) s =
      .next (s.setB rd
        (Config.CMAC s.macKey (terminal (seqBytes s (.data 0) a.toNat n.toNat) (s.getB rs1)))).next :=
  conclude_field hpc hkey hf rd fun m => Config.CMAC s.macKey (terminal m (s.getB rs1))

/-- Step 1 of `s2v` takes the CMAC of 16 zero bytes (R170). -/
theorem macZero_eq (k : List Byte) : macZero k = Config.CMAC k (List.replicate 16 0) :=
  congrArg (Config.CMAC k) (by decide)

/-! ### S2V (R175) -/

theorem exec_s2v {s : State} {a n : Word} {t : Table} (hpc : s.pc ≠ lastPc) (ht : TableOk s a n t)
    (hp : ∀ r ∈ t.ranges, plainRange s.platform r.1 r.2) (rd : Reg) :
    exec (.s2v rd a n) s = .next (s.setB rd (s2v s.macKey (t.frontFields s) (t.lastBytes s))).next := by
  have hread : readTable s a n = .ok t := readTable_eq_ok.2 ht
  have haccess : access s t.ranges = .ok () := access_eq_ok.2 hp
  simp only [exec, execS2v, hread, haccess, bind_ok, pure_ok, conclude_ok]
  exact complete_of_ne_last hpc

/-- Every present field of a table whose checks pass is one that the primitives accept. -/
theorem TableOk.readableField {s : State} {a n : Word} {t : Table} (ht : TableOk s a n t)
    (hp : ∀ r ∈ t.ranges, plainRange s.platform r.1 r.2) {d : Word} {m : Nat}
    (hd : Desc.present d m ∈ t.front ++ [.present t.lastAddr t.lastLen]) : ReadableField s d m := by
  have hr : (d.toNat, m) ∈ t.ranges := by
    rw [t.ranges_eq]
    exact mem_presentRanges.2 ⟨d, m, hd, rfl⟩
  refine ⟨?_, ht.ranges _ hr, hp _ hr⟩
  rcases List.mem_append.1 hd with hd | hd
  · exact ht.frontLen_le hd
  · cases List.mem_singleton.1 hd
    exact ht.lastLen_le

/-! ### The primitives of S2V chain in one register (R179) -/

/-- `s` in the course of the primitives: the chaining value in `rx`, and CMD_PTR further on. -/
def State.chaining (s : State) (rx : Reg) (d : Block) (p : Word) : State := { s.setB rx d with pc := p }

theorem chaining_getB {rx : Reg} (hx : rx.toNat < 8) (s : State) (d : Block) (p : Word) :
    (s.chaining rx d p).getB rx = d := getB_setB_same s rx d hx

theorem chaining_getB_other {rx q : Reg} (hq : q ≠ rx) (s : State) (d : Block) (p : Word) :
    (s.chaining rx d p).getB q = s.getB q := getB_setB_other s rx q d hq

/-- The next chaining value takes the place of the one before. -/
theorem chaining_setB_next (s : State) (rx : Reg) (d d' : Block) (p : Word) :
    ((s.chaining rx d p).setB rx d').next = s.chaining rx d' (p + 16) := by
  simp only [State.chaining, State.setB, State.next, Vector.setIfInBounds_setIfInBounds]

theorem runList_of_next {i : Instr} {s t : State} (h : exec i s = .next t) (is : List Instr) :
    runList (i :: is) s = runList is t := by
  simp only [runList, h]

/-- The length of a readable field fits into the operand word N. -/
theorem ReadableField.toNat_len {s : State} {a : Word} {n : Nat} (h : ReadableField s a n) :
    (BitVec.ofNat 32 n).toNat = n := by
  have hmax := h.len
  simp only [Config.maxLen] at hmax
  rw [BitVec.toNat_ofNat]
  omega

/-- Below the last command address CMD_PTR advances without wrapping (spec/10_state.md R25). -/
theorem toNat_add_of_lt_last {p : Word} (h : p.toNat < lastPc.toNat) : (p + 16).toNat = p.toNat + 16 := by
  simp only [lastPc] at h
  bv_omega

theorem ne_last_of_lt {p : Word} (h : p.toNat < lastPc.toNat) : p ≠ lastPc := by
  rintro rfl
  exact Nat.lt_irrefl _ h

theorem ReadableField.chaining {s : State} {a : Word} {n : Nat} (h : ReadableField s a n) (rx : Reg) (d : Block)
    (p : Word) : ReadableField (s.chaining rx d p) a (BitVec.ofNat 32 n).toNat :=
  h.toNat_len.symm ▸ ⟨h.len, h.legal, h.plain⟩

/-- In a quiet state each access reads memory, which the primitives leave as it is. -/
theorem seqBytes_chaining {s : State} (hq : s.quiet) (rx : Reg) (d : Block) (p : Word) (acc acc' : Config.Access)
    (a n : Nat) : seqBytes (s.chaining rx d p) acc a n = seqBytes s acc' a n :=
  (seqBytes_quiet (s := s.chaining rx d p) hq acc a n).trans (seqBytes_quiet hq acc' a n).symm

/-- One FOLD is one present field of step 2 of `s2v`. -/
theorem exec_fold_chaining {s : State} {rx : Reg} {a : Word} {n : Nat} {p : Word} (hq : s.quiet)
    (hkey : s.keyValid = true) (hx : rx.toNat < 8) (hf : ReadableField s a n) (hpc : p.toNat < lastPc.toNat)
    (d : Block) (acc : Config.Access) :
    exec (.fold rx rx a (BitVec.ofNat 32 n)) (s.chaining rx d p) =
      .next (s.chaining rx (foldField s.macKey d (.present (seqBytes s acc a.toNat n))) (p + 16)) := by
  have hpc' : (s.chaining rx d p).pc ≠ lastPc := ne_last_of_lt hpc
  rw [exec_fold hpc' hkey (hf.chaining rx d p), chaining_setB_next, chaining_getB hx, hf.toNat_len,
    seqBytes_chaining hq (acc' := acc)]
  rfl

/-- MACEND is the last two steps of `s2v`. -/
theorem exec_macend_chaining {s : State} {rx : Reg} {a : Word} {n : Nat} {p : Word} (hq : s.quiet)
    (hkey : s.keyValid = true) (hx : rx.toNat < 8) (hf : ReadableField s a n) (hpc : p.toNat < lastPc.toNat)
    (rd : Reg) (d : Block) (acc : Config.Access) :
    exec (.macend rd rx a (BitVec.ofNat 32 n)) (s.chaining rx d p) = .next ((s.chaining rx d p).setB rd
      (Config.CMAC s.macKey (terminal (seqBytes s acc a.toNat n) d))).next := by
  have hpc' : (s.chaining rx d p).pc ≠ lastPc := ne_last_of_lt hpc
  rw [exec_macend hpc' hkey (hf.chaining rx d p), chaining_getB hx, hf.toNat_len, seqBytes_chaining hq (acc' := acc)]
  rfl

/-- The FOLDs of the fields before the last compute step 2 of `s2v` (R170, R179), by induction over the fields: a
present field takes one FOLD, an absent one takes none. -/
theorem runList_foldCommands {s : State} {rx : Reg} (hq : s.quiet) (hkey : s.keyValid = true) (hx : rx.toNat < 8)
    (is : List Instr) (ds : List Desc) (hf : ∀ a n, Desc.present a n ∈ ds → ReadableField s a n) (k : Nat) (d : Block)
    (p : Word) (hp : p.toNat + 16 * ds.length ≤ lastPc.toNat) :
    ∃ p' : Word, p'.toNat ≤ p.toNat + 16 * ds.length ∧
      runList (foldCommands rx ds ++ is) (s.chaining rx d p) =
        runList is (s.chaining rx ((readFields s k ds).foldl (foldField s.macKey) d) p') := by
  induction ds generalizing k d p with
  | nil => exact ⟨p, Nat.le_refl _, rfl⟩
  | cons desc ds ih =>
    have hf' : ∀ a n, Desc.present a n ∈ ds → ReadableField s a n := fun a n h => hf a n (List.mem_cons_of_mem _ h)
    rw [List.length_cons] at hp
    cases desc with
    | absent =>
      obtain ⟨p', hle, hrun⟩ := ih hf' (k + 1) d p (by omega)
      exact ⟨p', by rw [List.length_cons]; omega, hrun⟩
    | present a n =>
      have hlt : p.toNat < lastPc.toNat := by omega
      have hadd := toNat_add_of_lt_last hlt
      obtain ⟨p', hle, hrun⟩ := ih hf' (k + 1)
        (foldField s.macKey d (.present (seqBytes s (.data k) a.toNat n))) (p + 16) (by omega)
      refine ⟨p', by rw [List.length_cons]; omega, ?_⟩
      exact (runList_of_next (exec_fold_chaining hq hkey hx (hf a n List.mem_cons_self) hlt d _) _).trans hrun

/-- The primitives end with `s2v` in RD and the chaining value of step 2 in the register they chain in (R179). -/
theorem runList_s2vPrimitives {s : State} {rd rx : Reg} {a n : Word} {t : Table} (hq : s.quiet) (hx : rx.toNat < 8)
    (hpc : s.pc.toNat + 16 * (t.front.length + 2) ≤ lastPc.toNat) (ht : TableOk s a n t)
    (hp : ∀ r ∈ t.ranges, plainRange s.platform r.1 r.2) :
    ∃ p : Word, runList (s2vPrimitives rd rx t) s = .next
      ((s.chaining rx (s2vChain s.macKey (t.frontFields s)) p).setB rd
        (s2v s.macKey (t.frontFields s) (t.lastBytes s))).next := by
  have hlt : s.pc.toNat < lastPc.toNat := by omega
  have hadd := toNat_add_of_lt_last hlt
  have hmacz : exec (.macz rx) s = .next (s.chaining rx (macZero s.macKey) (s.pc + 16)) :=
    exec_macz (ne_last_of_lt hlt) ht.key rx
  obtain ⟨p, hle, hrun⟩ := runList_foldCommands hq ht.key hx [.macend rd rx t.lastAddr (BitVec.ofNat 32 t.lastLen)]
    t.front (fun d m hd => ht.readableField hp (List.mem_append_left _ hd)) 0 (macZero s.macKey) (s.pc + 16) (by omega)
  have hlast : ReadableField s t.lastAddr t.lastLen := ht.readableField hp (List.mem_append_right _ List.mem_cons_self)
  refine ⟨p, ?_⟩
  rw [s2vPrimitives, runList_of_next hmacz, hrun]
  exact runList_of_next (exec_macend_chaining hq ht.key hx hlast (by omega) rd _ _) []

/-! ### The faults of a descriptor table (R175) -/

/-- A stage with a byte that does not answer raises BUS_ERROR with such a byte (spec/60_exceptions.md R281, R286). -/
theorem access_single_raise {s : State} {a n : Nat} (h : ∃ y, inRange y a n ∧ memOk s.platform y = false) :
    ∃ x, inRange x a n ∧ memOk s.platform x = false ∧
      access s [(a, n)] = .error (.raise .busError (BitVec.ofNat 32 x)) := by
  obtain ⟨y, hy, hbad⟩ := h
  have hmem : y ∈ ([(a, n)].flatMap fun r => addresses r.1 r.2).filter fun x => !memOk s.platform x := by
    simpa [hbad] using mem_addresses.2 hy
  obtain ⟨x, xs, hxs⟩ := List.exists_cons_of_ne_nil (List.ne_nil_of_mem hmem)
  have haccess : access s [(a, n)] = .error (.raise .busError (BitVec.ofNat 32 (pickRefused s x xs))) := by
    simp only [access, accessAddrs, hxs]
  obtain ⟨-, r, hr, z, hz, hm, hinfo⟩ := access_eq_raise haccess
  cases List.mem_singleton.1 hr
  exact ⟨z, hz, hm, hinfo ▸ haccess⟩

/-- The lowest bad descriptor decides (spec/60_exceptions.md R293). -/
theorem readDescs_error {s : State} {a i j k : Nat} {e : Stop} (hj : j < k)
    (hok : ∀ m < j, ∃ d, readDesc s a (i + m) = .ok d) (he : readDesc s a (i + j) = .error e) :
    readDescs s a i k = .error e := by
  induction k generalizing i j with
  | zero => exact absurd hj (Nat.not_lt_zero j)
  | succ k ih =>
    cases j with
    | zero =>
      rw [Nat.add_zero] at he
      simp only [readDescs, he, bind_error]
    | succ j =>
      obtain ⟨d, hd⟩ := hok 0 (Nat.succ_pos j)
      rw [Nat.add_zero] at hd
      have hrest : readDescs s a (i + 1) k = .error e := by
        refine ih (Nat.lt_of_succ_lt_succ hj) (fun m hm => ?_) ?_
        · rw [Nat.add_assoc, Nat.add_comm 1 m]
          exact hok (m + 1) (Nat.succ_lt_succ hm)
        · rwa [Nat.add_assoc, Nat.add_comm 1 j]
      simp only [readDescs, hd, bind_ok, hrest, bind_error]

/-- Without a bad descriptor the table reads as a list of all of them. -/
theorem readDescs_of_readDesc {s : State} {a k : Nat} (h : ∀ m < k, ∃ d, readDesc s a m = .ok d) :
    ∃ ds, readDescs s a 0 k = .ok ds ∧ ds.length = k ∧ ∀ j < k, ∀ d, readDesc s a j = .ok d ↔ ds[j]? = some d := by
  choose f hf using h
  obtain ⟨ds, hlen, hds⟩ : ∃ ds : List Desc, ds.length = k ∧ ∀ j (hj : j < ds.length), readDesc s a j = .ok ds[j] :=
    ⟨List.ofFn fun m : Fin k => f m m.isLt, List.length_ofFn, fun j hj => by rw [List.getElem_ofFn]; exact hf j _⟩
  subst hlen
  refine ⟨ds, readDescs_eq_ok.2 fun j hj => by rw [Nat.zero_add]; exact hds j hj, rfl, fun j hj d => ?_⟩
  rw [hds j hj, List.getElem?_eq_getElem hj, Except.ok.injEq, Option.some.injEq]

/-- An absent last field raises CONTRACT 3 with its index (R178). -/
theorem splitLast_absent {ds : List Desc} (h : ds.getLast? = some .absent) :
    splitLast ds = .error (.raise .contract (lastAbsent (ds.length - 1))) := by
  simp only [splitLast, h]

theorem splitLast_present {ds : List Desc} {d : Word} {n : Nat} (h : ds.getLast? = some (.present d n)) :
    splitLast ds = .ok ⟨ds.dropLast, d, n⟩ := by
  simp only [splitLast, h]

/-- The lowest present field whose range is not legal raises RANGE (R175). -/
theorem needFieldRanges_raise {ds : List Desc} {j : Nat} {d : Word} {len : Nat}
    (hd : ds[j]? = some (.present d len)) (hbad : rangeLegal d.toNat len = false)
    (hlow : ∀ k < j, ∀ d' len', ds[k]? = some (.present d' len') → rangeLegal d'.toNat len' = true) :
    needFieldRanges ds = .error (.raise .range d) := by
  induction ds generalizing j with
  | nil => simp at hd
  | cons desc ds ih =>
    cases j with
    | zero =>
      obtain rfl : desc = .present d len := by simpa using hd
      simp only [needFieldRanges, needRange, hbad, check_false, bind_error]
    | succ j =>
      have hrest := ih (by simpa using hd) fun k hk d' len' h => hlow (k + 1) (by omega) d' len' (by simpa using h)
      cases desc with
      | absent => exact hrest
      | present d' len' =>
        have hfirst : needRange d' len' = .ok () := needRange_eq_ok.2 (hlow 0 (Nat.succ_pos j) d' len' rfl)
        simp only [needFieldRanges, hfirst, bind_ok, hrest]

/-- The checks of R175 on the descriptors. -/
def descChecks (s : State) (a n : Nat) : Except Stop Table := do
  let ds ← readDescs s a 0 n
  let t ← splitLast ds
  needFieldRanges ds
  return t

theorem descChecks_badDescriptor {s : State} {a n j : Nat} {e : Stop} (hj : j < n)
    (hok : ∀ k < j, ∃ d, readDesc s a k = .ok d) (hbad : readDesc s a j = .error e) : descChecks s a n = .error e := by
  have hread : readDescs s a 0 n = .error e :=
    readDescs_error hj (by simpa only [Nat.zero_add] using hok) (by rwa [Nat.zero_add])
  rw [descChecks, hread, bind_error]

theorem descChecks_lastAbsent {s : State} {a n : Nat} (h0 : 0 < n) (hall : ∀ k < n, ∃ d, readDesc s a k = .ok d)
    (habsent : readDesc s a (n - 1) = .ok .absent) :
    descChecks s a n = .error (.raise .contract (lastAbsent (n - 1))) := by
  obtain ⟨ds, hds, rfl, hget⟩ := readDescs_of_readDesc hall
  have hlast : ds.getLast? = some .absent := by
    rw [List.getLast?_eq_getElem?]
    exact (hget _ (Nat.sub_one_lt_of_lt h0) _).1 habsent
  rw [descChecks, hds, bind_ok, splitLast_absent hlast, bind_error]

theorem descChecks_range {s : State} {a n j : Nat} {d : Word} {len : Nat} (hall : ∀ k < n, ∃ d, readDesc s a k = .ok d)
    (hpresent : readDesc s a (n - 1) ≠ .ok .absent) (hj : j < n) (hd : readDesc s a j = .ok (.present d len))
    (hbad : rangeLegal d.toNat len = false)
    (hlow : ∀ k < j, ∀ d' len', readDesc s a k = .ok (.present d' len') → rangeLegal d'.toNat len' = true) :
    descChecks s a n = .error (.raise .range d) := by
  obtain ⟨ds, hds, rfl, hget⟩ := readDescs_of_readDesc hall
  have hend : ds.length - 1 < ds.length := Nat.sub_one_lt_of_lt hj
  have hranges : needFieldRanges ds = .error (.raise .range d) :=
    needFieldRanges_raise ((hget j hj _).1 hd) hbad fun k hk d' len' h =>
      hlow k hk d' len' ((hget k (hk.trans hj) _).2 h)
  obtain ⟨last, hlast⟩ := hall _ hend
  cases last with
  | absent => exact absurd hlast hpresent
  | present d' len' =>
    rw [hget _ hend, ← List.getLast?_eq_getElem?] at hlast
    rw [descChecks, hds, bind_ok, splitLast_present hlast, bind_ok, hranges, bind_error]

section
variable {s : State} {a n : Word}

theorem readTable_countZero (hkey : s.keyValid = true) (h : n.toNat = 0) :
    readTable s a n = .error (.raise .contract countZero) := by
  have hcount : ¬ 1 ≤ n.toNat := by omega
  simp only [readTable, needKey_ok hkey, decide_eq_false hcount, check_false, bind_ok, bind_error]

theorem readTable_countMax (hkey : s.keyValid = true) (h : 128 ≤ n.toNat) :
    readTable s a n = .error (.raise .contract countMax) := by
  have hcount : 1 ≤ n.toNat := by omega
  have hmax : ¬ n.toNat ≤ Config.maxFields := by simp only [Config.maxFields]; omega
  simp only [readTable, needKey_ok hkey, decide_eq_true hcount, decide_eq_false hmax, check_true, check_false, bind_ok,
    bind_error]

/-- With a key and an admitted field count, the checks of R175 go on at the alignment of the table. -/
theorem readTable_of_count (hkey : s.keyValid = true) (h1 : 1 ≤ n.toNat) (h127 : n.toNat ≤ 127) :
    readTable s a n = (do
      check (decide (a.toNat % 8 = 0)) .misaligned a
      needRange a (8 * n.toNat)
      access s [(a.toNat, 8 * n.toNat)]
      descChecks s a.toNat n.toNat) := by
  have hmax : n.toNat ≤ Config.maxFields := h127
  simp only [readTable, descChecks, needKey_ok hkey, decide_eq_true h1, decide_eq_true hmax, check_true, bind_ok]

theorem exec_table_raise {rd : Reg} {b : Word} {i : Instr} {code : FaultCode} {info : Word}
    (hi : i = .s2v rd a n ∨ i = .sealAead rd a b n ∨ i = .openAead rd a b n)
    (h : readTable s a n = .error (.raise code info)) : exec i s = .next (raise s code info) := by
  rcases hi with rfl | rfl | rfl
  · simp only [exec, execS2v, h, bind_error, conclude_error, stop_raise]
  · simp only [exec, execSealAead, sealPlan, h, bind_error, stop_raise]
  · simp only [exec, execOpenAead, openPlan, h, bind_error, stop_raise]

end

end Sys2Proof.Machine

namespace Sys2Proof.Proofs
open Sys2Proof.Machine

/-- Settles O34: the checks of each command pass, and RD takes the value of its rule. -/
theorem macCommandsComplete : Obligations.MacCommandsComplete := by
  refine fun s rd rs1 a n hpc hkey => ⟨?_, fun hlen hlegal hplain => ?_, fun t ht hp => exec_s2v hpc ht hp rd⟩
  · rw [exec_macz hpc hkey, macZero_eq]
  · have hf : ReadableField s a n.toNat := ⟨hlen, hlegal, hplain⟩
    exact ⟨exec_mac hpc hkey hf rd, exec_fold hpc hkey hf rd rs1, exec_macend hpc hkey hf rd rs1⟩

/-- Settles O39: the primitives chain step 2 of `s2v` in `rx`, and MACEND leaves in RD what S2V does. -/
theorem s2vEqualsPrimitives : Obligations.S2vEqualsPrimitives := by
  intro s rd rx a n t hq hrd hrx hpc ht hp
  obtain ⟨p, hrun⟩ := runList_s2vPrimitives (rd := rd) hq hrx hpc ht hp
  refine ⟨_, _, exec_s2v (ne_last_of_lt (by omega)) ht hp rd, hrun, ?_, fun q hq => ?_, fun q hqd hqx => ?_, rfl, rfl⟩
  · exact (getB_setB_same _ rd _ hrd).trans (getB_setB_same _ rd _ hrd).symm
  · exact getB_setB_other s rd q _ hq
  · exact (getB_setB_other _ rd q _ hqd).trans (chaining_getB_other hqx _ _ _)

/-- Settles O40: each clause is the first check of the table that does not pass. -/
theorem tableFaults : Obligations.TableFaults := by
  intro s rd a b n i hkey hi
  have raises {code info} : readTable s a n = .error (.raise code info) → exec i s = .next (raise s code info) :=
    exec_table_raise hi
  refine ⟨fun h => raises (readTable_countZero hkey h), fun h => raises (readTable_countMax hkey h), fun h1 h127 => ?_⟩
  have hcount := readTable_of_count (a := a) hkey h1 h127
  refine ⟨fun ha => raises ?_, fun ha => ⟨fun hl => raises ?_, fun hl => ⟨fun hbus => ?_, fun hp => ?_⟩⟩⟩
  · rw [hcount, decide_eq_false ha, check_false, bind_error]
  · rw [hcount, decide_eq_true ha, check_true, bind_ok, needRange_raise (by omega) hl, bind_error]
  · obtain ⟨x, hx, hbad, haccess⟩ := access_single_raise hbus
    refine ⟨x, hx, hbad, raises ?_⟩
    rw [hcount, decide_eq_true ha, check_true, bind_ok, needRange_ok hl, bind_ok, haccess, bind_error]
  · have haccess : access s [(a.toNat, 8 * n.toNat)] = .ok () := access_single_eq_ok.2 hp
    have hdescs : readTable s a n = descChecks s a.toNat n.toNat := by
      rw [hcount, decide_eq_true ha, check_true, bind_ok, needRange_ok hl, bind_ok, haccess, bind_ok]
    exact ⟨fun j hj hok hbad => raises (hdescs.trans (descChecks_badDescriptor hj hok hbad)), fun hall =>
      ⟨fun habsent => raises (hdescs.trans (descChecks_lastAbsent h1 hall habsent)),
        fun hpresent j hj d len hd hbad hlow =>
          raises (hdescs.trans (descChecks_range hall hpresent hj hd hbad hlow))⟩⟩

end Sys2Proof.Proofs
end

section
/-! PROOFS. Counter mode (spec/44_counter.md): the bits and bytes of `ctr`, a masked counter that never carries out of
its low word, and the four statements about the counter settled from these laws. -/

namespace Sys2Proof.Machine

/-! ### The counter mask (R200) -/

/-- The mask clears bits 63 and 31 of the value and keeps every other bit. -/
theorem ctr_getLsbD (v : Block) (k : Nat) :
    (ctr v).getLsbD k = (v.getLsbD k && !decide (k = 63 ∨ k = 31)) := by
  have hmask : (1 <<< 63 : Block) ||| (1 <<< 31 : Block) = BitVec.twoPow 128 63 ||| BitVec.twoPow 128 31 := by decide
  have hbit (m : Nat) (hm : m < 128) : (BitVec.twoPow 128 m).getLsbD k = decide (k = m) := by
    simp only [BitVec.getLsbD_twoPow, hm, decide_true, Bool.true_and, eq_comm]
  rw [ctr, hmask, BitVec.getLsbD_and, BitVec.getLsbD_not, BitVec.getLsbD_or, hbit 63 (by decide), hbit 31 (by decide),
    Bool.decide_or]
  rcases Nat.lt_or_ge k 128 with hk | hk
  · rw [decide_eq_true hk, Bool.true_and]
  · rw [BitVec.getLsbD_of_ge v k hk, Bool.false_and, Bool.false_and]

/-- Bit 63 is bit 7 of byte 8, and bit 31 is bit 7 of byte 12 (R10). -/
theorem blockByte_ctr (v : Block) {i : Nat} (hi : i < 16) :
    blockByte (ctr v) i = if i = 8 ∨ i = 12 then blockByte v i &&& 0x7F else blockByte v i := by
  have hmask : ∀ j < 8, (0x7F : Byte).getLsbD j = !decide (j = 7) := by decide
  apply BitVec.eq_of_getLsbD_eq
  intro j hj
  rw [blockByte_getLsbD _ _ _ hj, ctr_getLsbD, ← blockByte_getLsbD _ _ _ hj]
  split
  · next h =>
    have hpos : (8 * (15 - i) + j = 63 ∨ 8 * (15 - i) + j = 31) ↔ j = 7 := by omega
    rw [BitVec.getLsbD_and, hmask j hj, decide_eq_decide.2 hpos]
  · next h =>
    have hpos : ¬ (8 * (15 - i) + j = 63 ∨ 8 * (15 - i) + j = 31) := by omega
    rw [decide_eq_false hpos, Bool.not_false, Bool.and_true]

/-- CTRMASK ends below the last command address with the masked block in RD (R203). -/
theorem exec_ctrmask {s : State} (h : s.pc ≠ lastPc) (rd rs1 : Reg) :
    exec (.ctrmask rd rs1) s = .next (s.setB rd (ctr (s.getB rs1))).next :=
  complete_of_ne_last h

/-! ### Counting from a masked counter (R205, R206) -/

theorem ctr_lowWord_lt (v : Block) : ((ctr v).extractLsb' 0 32).toNat < 2 ^ 31 := by
  have htop : ((ctr v).extractLsb' 0 32).msb = false := by
    rw [BitVec.msb_eq_getLsbD_last, BitVec.getLsbD_extractLsb', ctr_getLsbD]
    simp
  have := BitVec.msb_eq_false_iff_two_mul_lt.1 htop
  omega

/-- Counting within the low word leaves the words above it. -/
theorem add_highWords {q : Block} {j : Nat} (h : (q.extractLsb' 0 32).toNat + j < 2 ^ 32) :
    (q + BitVec.ofNat 128 j).extractLsb' 32 96 = q.extractLsb' 32 96 := by
  have hq := q.isLt
  rw [BitVec.extractLsb'_toNat, Nat.shiftRight_zero] at h
  apply BitVec.eq_of_toNat_eq
  simp only [BitVec.extractLsb'_toNat, BitVec.toNat_add, BitVec.toNat_ofNat, Nat.shiftRight_eq_div_pow]
  omega

/-! ### Counter mode (R202, R204) -/

/-- The second pass XORs the keystream of the first one again (R207). -/
theorem ctrxor_ctrxor (k : List Byte) (q : Block) (p : List Byte) : ctrxor k q (ctrxor k q p) = p := by
  apply List.ext_getElem ((ctrxor_length ..).trans (ctrxor_length ..))
  intro i hi hip
  rw [ctrxor_getElem, ctrxor_getElem, BitVec.xor_assoc, BitVec.xor_self, BitVec.xor_zero]

end Sys2Proof.Machine

namespace Sys2Proof.Proofs
open Sys2Proof.Machine

/-- Settles O23: the value is the masked block, whose bytes are those of the source with two top bits cleared. -/
theorem ctrmaskCompletes : Obligations.CtrmaskCompletes :=
  fun s rd rs1 h => ⟨ctr (s.getB rs1), exec_ctrmask h rd rs1, fun _ hi => blockByte_ctr _ hi⟩

/-- Settles O35: the plan passes its checks, and the bytes stored are those of `ctrxor` on the bytes read. -/
theorem ctrxorCompletes : Obligations.CtrxorCompletes := by
  intro s rs1 a b n hw hpc hkey hmax ha hb hdisj hpa hpb
  have hlen : (ctrxor s.encKey (s.getB rs1) (seqBytes s (.data 0) a.toNat n.toNat)).length = n.toNat := by
    rw [ctrxor_length, seqBytes_length]
  have hplan := (ctrxorPlan_eq_ok (r := rs1)).2 ⟨hkey, hmax, ha, hb, hdisj, hpa, rfl⟩
  simp only [exec, execCtrxor, hplan]
  obtain ⟨t, hnext, hframe, hmarks, hin, hout⟩ := storeThen_id hw hpc (hlen.symm ▸ hpb)
  rw [hlen] at hmarks hout
  refine ⟨t, hnext, hframe, hmarks, fun i hi => ?_, hout⟩
  rw [hin i (by rwa [hlen]), ctrxor_getElem, seqBytes_getElem]

/-- Settles O36: XOR with one keystream is its own inverse. -/
theorem ctrxorInvolution : Obligations.CtrxorInvolution := ctrxor_ctrxor

/-- Settles O37: the low word starts below `2^31` and counts less than `2^20` further, so it stays below `2^32`. -/
theorem maskedCounterNeverCarries : Obligations.MaskedCounterNeverCarries := by
  refine ⟨by decide, fun v j hj => ?_⟩
  have hlow : ((ctr v).extractLsb' 0 32).toNat + j < 2 ^ 32 := by
    have := ctr_lowWord_lt v
    omega
  exact ⟨(ctr_getLsbD v 63).trans (Bool.and_false _), (ctr_getLsbD v 31).trans (Bool.and_false _), hlow,
    add_highWords hlow⟩

end Sys2Proof.Proofs
end

section
/-! PROOFS. The AEAD envelope (spec/45_aead.md): equality of blocks, the key commands, the length faults, and what SEAL
and OPEN do on a table whose checks pass; the nine statements about them settled from these laws. -/

namespace Sys2Proof.Machine

/-! ### CTEQ (R221, R224) -/

theorem ctEq_eq_decide (v w : Block) : ctEq v w = decide (v = w) :=
  Bool.eq_iff_iff.2 (ctEq_eq_true.trans decide_eq_true_iff.symm)

theorem exec_cteq {s : State} (h : s.pc ≠ lastPc) (rs1 rs2 : Reg) :
    exec (.cteq rs1 rs2) s = .next { s with eq := decide (s.getB rs1 = s.getB rs2) }.next := by
  rw [← ctEq_eq_decide]
  exact complete_of_ne_last h

/-! ### The key commands (R222, R223) -/

theorem seqBytes_append (s : State) (acc : Config.Access) (a m n : Nat) :
    seqBytes s acc a (m + n) = seqBytes s acc a m ++ seqBytes s acc (a + m) n := by
  rw [seqBytes, addresses, ← List.range'_append_1, List.map_append]
  rfl

theorem keyLengthOk_eq_true {n : Nat} : keyLengthOk n = true ↔ ∃ h ∈ Config.keySizes, n = 2 * h := by
  simp only [keyLengthOk, List.any_eq_true, beq_iff_eq]

/-- A key of any length but 32, 48 and 64 is refused. -/
theorem keyLengthOk_eq_false {n : Nat} (h32 : n ≠ 32) (h48 : n ≠ 48) (h64 : n ≠ 64) : keyLengthOk n = false := by
  refine Bool.eq_false_iff.2 fun hok => ?_
  obtain ⟨h, hmem, rfl⟩ := keyLengthOk_eq_true.1 hok
  simp only [Config.keySizes, List.mem_cons, List.not_mem_nil, or_false] at hmem
  omega

/-- KEYLD ends below the last command address with the two halves of the bytes read as the keys. -/
theorem exec_keyld {s : State} {a n : Word} {h : Nat} (hpc : s.pc ≠ lastPc) (hh : h ∈ Config.keySizes)
    (hn : n.toNat = 2 * h) (hl : a.toNat + n.toNat ≤ Config.addrSpace) (hp : plainRange s.platform a.toNat n.toNat) :
    exec (.keyld a n) s = .next { s with
      macKey := seqBytes s (.data 0) a.toNat h, encKey := seqBytes s (.data 0) (a.toNat + h) h, klen := h
      keyValid := true }.next := by
  have hread : readOperand s a n.toNat =
      .ok (seqBytes s (.data 0) a.toNat h ++ seqBytes s (.data 0) (a.toNat + h) h) := by
    rw [← seqBytes_append, ← Nat.two_mul, ← hn]
    exact readOperand_eq_ok.2 ⟨rangeLegal_iff.2 (.inr hl), hp, rfl⟩
  have hhalf : n.toNat / 2 = h := by omega
  simp only [exec, execKeyld, keyLengthOk_eq_true.2 ⟨h, hh, hn⟩, check_true, hread, bind_ok, pure_ok, conclude_ok, hhalf,
    List.take_left' (seqBytes_length ..), List.drop_left' (seqBytes_length ..)]
  exact complete_of_ne_last hpc

theorem exec_keyclr {s : State} (h : s.pc ≠ lastPc) :
    exec .keyclr s = .next { s with macKey := [], encKey := [], klen := 0, keyValid := false }.next :=
  complete_of_ne_last h

/-! ### The length faults (spec/60_exceptions.md R284) -/

theorem needLen_raise {n : Word} (h : Config.maxLen < n.toNat) : needLen n = .error (.raise .contract lenMax) := by
  rw [needLen, decide_eq_false (Nat.not_le.2 h), check_false]

/-- MAC, FOLD and MACEND share their checks, of which the length comes right after the key (R172-R174). -/
theorem conclude_lenMax {s : State} {n : Word} (hkey : s.keyValid = true) (h : Config.maxLen < n.toNat) (a : Word)
    (rd : Reg) (f : List Byte → Block) :
    (conclude s do
      needKey s
      needLen n
      let m ← readOperand s a n.toNat
      return s.setB rd (f m)) = .next (raise s .contract lenMax) := by
  simp only [needKey_ok hkey, needLen_raise h, bind_ok, bind_error, conclude_error, stop_raise]

theorem exec_keyld_invalidKey {s : State} {n : Word} (h : keyLengthOk n.toNat = false) (a : Word) :
    exec (.keyld a n) s = .next (raise s .invalidKey n) := by
  simp only [exec, execKeyld, h, check_false, bind_error, conclude_error, stop_raise]

theorem exec_padxor_shortOnly {s : State} {n : Word} (h : 16 ≤ n.toNat) (rd rs1 : Reg) (a : Word) :
    exec (.padxor rd rs1 a n) s = .next (raise s .contract shortOnly) := by
  have hlong : ¬ n.toNat ≤ 15 := by omega
  simp only [exec, execPadxor, decide_eq_false hlong, check_false, bind_error, conclude_error, stop_raise]

theorem exec_xorend_longOnly {s : State} {n : Word} (h : n.toNat < 16) (rs1 : Reg) (a b : Word) :
    exec (.xorend rs1 a b n) s = .next (raise s .contract longOnly) := by
  simp only [exec, execXorend, xorendPlan, decide_eq_false (Nat.not_le.2 h), check_false, bind_error, stop_raise]

theorem exec_xorend_lenMax {s : State} {n : Word} (h : Config.maxLen < n.toNat) (rs1 : Reg) (a b : Word) :
    exec (.xorend rs1 a b n) s = .next (raise s .contract lenMax) := by
  have h16 : 16 ≤ n.toNat := by simp only [Config.maxLen] at h; omega
  simp only [exec, execXorend, xorendPlan, decide_eq_true h16, check_true, needLen_raise h, bind_ok, bind_error,
    stop_raise]

theorem exec_ctrxor_lenMax {s : State} {n : Word} (hkey : s.keyValid = true) (h : Config.maxLen < n.toNat) (rs1 : Reg)
    (a b : Word) : exec (.ctrxor rs1 a b n) s = .next (raise s .contract lenMax) := by
  simp only [exec, execCtrxor, ctrxorPlan, needKey_ok hkey, needLen_raise h, bind_ok, bind_error, stop_raise]

/-! ### The bytes of the envelope (R225, R226, R231) -/

/-- The first 16 bytes SEAL writes are those of the synthetic value. -/
theorem sealBytes_getElem_tag (mk ek : List Byte) (front : List Field) (p : List Byte) {i : Nat} (hi : i < 16)
    (h : i < (sealBytes mk ek front p).length) :
    (sealBytes mk ek front p)[i] = blockByte (s2v mk front p) i := by
  simp only [sealBytes]
  rw [List.getElem_append_left (by rwa [blockBytes_length]), blockBytes_getElem]

/-- The bytes after them are the plaintext under the keystream of the masked synthetic value. -/
theorem sealBytes_getElem_body (mk ek : List Byte) (front : List Field) (p : List Byte) {i : Nat} (hi : i < p.length)
    (h : 16 + i < (sealBytes mk ek front p).length) :
    (sealBytes mk ek front p)[16 + i] =
      p[i] ^^^ blockByte (Config.E ek (ctr (s2v mk front p) + BitVec.ofNat 128 (i / 16))) (i % 16) := by
  simp only [sealBytes]
  rw [List.getElem_append_right (by rw [blockBytes_length]; omega), ctrxor_getElem]
  simp only [blockBytes_length, Nat.add_sub_cancel_left]

theorem candidate_length (ek x : List Byte) : (candidate ek x).length = x.length - 16 := by
  rw [candidate, ctrxor_length, List.length_drop]

theorem candidate_getElem (ek x : List Byte) {i : Nat} (hi : 16 + i < x.length) (h : i < (candidate ek x).length) :
    (candidate ek x)[i] =
      x[16 + i] ^^^ blockByte (Config.E ek (ctr (tagOf x) + BitVec.ofNat 128 (i / 16))) (i % 16) := by
  simp only [candidate, ctrxor_getElem, List.getElem_drop]

/-- What SEAL wrote decrypts to the plaintext: the tag gives the same counter, and counter mode is its own inverse. -/
theorem candidate_sealBytes (mk ek : List Byte) (front : List Field) (p : List Byte) :
    candidate ek (sealBytes mk ek front p) = p := by
  rw [candidate, tagOf_sealBytes, drop_sealBytes, ctrxor_ctrxor]

theorem openTag_sealBytes (mk ek : List Byte) (front : List Field) (p : List Byte) :
    openTag mk ek front (sealBytes mk ek front p) = tagOf (sealBytes mk ek front p) := by
  rw [openTag, candidate_sealBytes, tagOf_sealBytes]

@[simp] theorem lastBytes_getElem (s : State) (t : Table) (i : Nat) (h : i < (t.lastBytes s).length) :
    (t.lastBytes s)[i] = seqByte s (.data t.front.length) (t.lastAddr.toNat + i) :=
  seqBytes_getElem ..

/-- In a quiet state the last field holds `bs` where memory does. -/
theorem lastBytes_eq_of_read {s : State} (hq : s.quiet) {t : Table} {bs : List Byte} (hlen : t.lastLen = bs.length)
    (h : ∀ i (hi : i < bs.length), s.mem.read (t.lastAddr.toNat + i) = bs[i]) : t.lastBytes s = bs := by
  refine List.ext_getElem (by rw [lastBytes_length, hlen]) fun i _ hi => ?_
  rw [lastBytes_getElem, seqByte_quiet hq, h i hi]

/-- In a quiet state the second pass of OPEN reads the ciphertext of the first (R227). -/
theorem again_eq_drop_lastBytes {s : State} (hq : s.quiet) {t : Table} (h : 16 ≤ t.lastLen) :
    seqBytes s .again (t.lastAddr.toNat + 16) (t.lastLen - 16) = (t.lastBytes s).drop 16 := by
  have hsplit : t.lastLen = 16 + (t.lastLen - 16) := by omega
  rw [Table.lastBytes, hsplit, seqBytes_append, List.drop_left' (seqBytes_length ..), Nat.add_sub_cancel_left,
    seqBytes_quiet hq, seqBytes_quiet hq]

/-! ### SEAL and OPEN on a table whose checks pass (R225, R226) -/

/-- SEAL and OPEN pass every check up to the reads of the fields, for a destination of `len` bytes. -/
structure EnvelopeOk (s : State) (a b n : Word) (t : Table) (len : Nat) : Prop where
  table : TableOk s a n t
  legal : rangeLegal b.toNat len = true
  disjoint : ∀ r ∈ (a.toNat, 8 * n.toNat) :: t.ranges, ∀ x, inRange x b.toNat len → ¬ inRange x r.1 r.2
  plain : ∀ r ∈ t.ranges, plainRange s.platform r.1 r.2

/-- The synthetic value of the fields of a table (R225). -/
def Table.synthetic (s : State) (t : Table) : Block := s2v s.macKey (t.frontFields s) (t.lastBytes s)

/-- What SEAL writes for a table (R225). -/
def Table.sealed (s : State) (t : Table) : List Byte :=
  sealBytes s.macKey s.encKey (t.frontFields s) (t.lastBytes s)

theorem sealed_length (s : State) (t : Table) : (t.sealed s).length = 16 + t.lastLen := by
  rw [Table.sealed, sealBytes_length, lastBytes_length]

/-- The tag check of OPEN passes (R226). -/
abbrev Table.Verifies (s : State) (t : Table) : Prop :=
  openTag s.macKey s.encKey (t.frontFields s) (t.lastBytes s) = tagOf (t.lastBytes s)

theorem exec_seal_eq_storeThen {s : State} {a b n : Word} {t : Table} (h : EnvelopeOk s a b n t (16 + t.lastLen))
    (rd : Reg) :
    exec (.sealAead rd a b n) s = storeThen s b.toNat (t.sealed s) fun u => u.setB rd (t.synthetic s) := by
  have hplan := sealPlan_eq_ok.2 ⟨t, h.table, h.legal, h.disjoint, h.plain, rfl⟩
  simp only [exec, execSealAead, hplan]
  rfl

/-- A SEAL that leaves the run on passed its checks and made its whole write. -/
theorem exec_seal_of_busy {s v : State} {rd : Reg} {a b n : Word} {t : Table} (ht : TableOk s a n t)
    (h : exec (.sealAead rd a b n) s = .next v) (hb : v.busy = true) :
    v = ((memWrite s b.toNat (t.sealed s)).setB rd (t.synthetic s)).next := by
  have not_raised {u code info} : v ≠ raise u code info := by
    rintro rfl
    cases hb
  cases hplan : sealPlan s a b n with
  | error e =>
    simp only [exec, execSealAead, hplan] at h
    obtain ⟨_, _, -, hv⟩ := stop_eq_next.1 h
    exact absurd hv not_raised
  | ok e =>
    obtain ⟨t', ht', hl, hd, hp, -⟩ := sealPlan_eq_ok.1 hplan
    cases (readTable_eq_ok.2 ht).symm.trans (readTable_eq_ok.2 ht')
    rw [exec_seal_eq_storeThen ⟨ht, hl, hd, hp⟩] at h
    rcases storeThen_cases h with ⟨-, hc⟩ | ⟨_, -, -, hv⟩
    · rcases complete_cases hc with ⟨-, hv⟩ | ⟨-, hv⟩
      · exact hv
      · exact absurd hv not_raised
    · exact absurd hv not_raised

/-- The synthetic value such a SEAL leaves in RD. -/
theorem getB_of_seal_busy {s v : State} {rd : Reg} {a b n : Word} {t : Table} (hrd : rd.toNat < 8)
    (ht : TableOk s a n t) (h : exec (.sealAead rd a b n) s = .next v) (hb : v.busy = true) :
    v.getB rd = t.synthetic s := by
  rw [exec_seal_of_busy ht h hb]
  exact getB_setB_same _ rd _ hrd

/-- The bytes such a SEAL leaves at its destination. -/
theorem read_of_seal_busy {s v : State} {rd : Reg} {a b n : Word} {t : Table} (hw : s.mem.wf) (ht : TableOk s a n t)
    (h : exec (.sealAead rd a b n) s = .next v) (hb : v.busy = true) (i : Nat) (hi : i < (t.sealed s).length) :
    v.mem.read (b.toNat + i) = (t.sealed s)[i] := by
  rw [exec_seal_of_busy ht h hb, next_mem, setB_mem, memWrite_mem_inside hw _ _ i hi]

/-- In a quiet state an OPEN whose tag verifies writes the candidate plaintext, which its second pass reads again. -/
theorem exec_open_eq_storeThen {s : State} {a b n : Word} {t : Table} (hq : s.quiet)
    (h : EnvelopeOk s a b n t (t.lastLen - 16)) (h16 : 16 ≤ t.lastLen) (hv : t.Verifies s) (rd : Reg) :
    exec (.openAead rd a b n) s =
      storeThen s b.toNat (candidate s.encKey (t.lastBytes s)) fun u => u.setB rd (tagOf (t.lastBytes s)) := by
  have hplan := openPlan_eq_ok.2 ⟨t, h.table, h.legal, h.disjoint, h.plain, h16, hv, rfl⟩
  rw [again_eq_drop_lastBytes hq h16] at hplan
  simp only [exec, execOpenAead, hplan]
  rfl

/-- The two checks of OPEN that raise AUTH_FAILED, in their order (R226). -/
def authChecks (s : State) (t : Table) : Except Stop Unit := do
  check (decide (16 ≤ t.lastLen)) .authFailed 1
  check (ctEq (openTag s.macKey s.encKey (t.frontFields s) (t.lastBytes s)) (tagOf (t.lastBytes s))) .authFailed 0

theorem authChecks_short {s : State} {t : Table} (h : t.lastLen < 16) :
    authChecks s t = .error (.raise .authFailed 1) := by
  rw [authChecks, decide_eq_false (Nat.not_le.2 h), check_false, bind_error]

theorem authChecks_mismatch {s : State} {t : Table} (h16 : 16 ≤ t.lastLen) (h : ¬ t.Verifies s) :
    authChecks s t = .error (.raise .authFailed 0) := by
  rw [authChecks, decide_eq_true h16, check_true, bind_ok, ctEq_eq_decide, decide_eq_false h, check_false]

theorem exec_open_raise {s : State} {a b n : Word} {t : Table} {code : FaultCode} {info : Word}
    (h : EnvelopeOk s a b n t (t.lastLen - 16)) (he : authChecks s t = .error (.raise code info)) (rd : Reg) :
    exec (.openAead rd a b n) s = .next (raise s code info) := by
  have hread : readTable s a n = .ok t := readTable_eq_ok.2 h.table
  have hrange : needRange b (t.lastLen - 16) = .ok () := needRange_eq_ok.2 h.legal
  have hdisjoint : needDisjoint t a n b (t.lastLen - 16) = .ok () := needDisjoint_eq_ok.2 h.disjoint
  have haccess : access s t.ranges = .ok () := access_eq_ok.2 h.plain
  have hplan : openPlan s a b n = .error (.raise code info) := by
    simp only [authChecks] at he
    simp only [openPlan, hread, hrange, hdisjoint, haccess, bind_ok, ← bind_assoc, he, bind_error]
  simp only [exec, execOpenAead, hplan, stop_raise]

end Sys2Proof.Machine

namespace Sys2Proof.Proofs
open Sys2Proof.Machine

/-- Settles O25: the bytes of an accepted key read as its two halves, and KEYCLR has no check. -/
theorem keyCommandsComplete : Obligations.KeyCommandsComplete :=
  fun _ _ _ hpc => ⟨fun _ hh hn hl hp => exec_keyld hpc hh hn hl hp, exec_keyclr hpc⟩

/-- Settles O41: the checks pass and the write completes; its bytes are the tag, then the masked plaintext. -/
theorem sealCompletes : Obligations.SealCompletes := by
  intro s rd a b n t v hw hpc ht hp hl hd hdst hv
  have hlen : (t.sealed s).length = 16 + t.lastLen := sealed_length s t
  have hlast : (t.lastBytes s).length = t.lastLen := lastBytes_length s t
  obtain ⟨u, hu, hframe, hmarks, hin, hout⟩ :=
    storeThen_setB (rd := rd) (v := t.synthetic s) hw hpc (hlen.symm ▸ hdst)
  rw [hlen] at hmarks hout
  subst hv
  refine ⟨u, (exec_seal_eq_storeThen ⟨ht, rangeLegal_iff.2 (.inr hl), hd, hp⟩ rd).trans hu, hframe, hmarks,
    fun i hi => ?_, fun i hi => ?_, hout⟩
  · exact (hin i (by omega)).trans (sealBytes_getElem_tag _ _ _ _ hi _)
  · rw [Nat.add_assoc, hin (16 + i) (by omega)]
    refine (sealBytes_getElem_body _ _ _ _ (hlast.symm ▸ hi) _).trans ?_
    rw [lastBytes_getElem]

/-- Settles O42: the tag verifies, so the write is made; its bytes are those of the candidate plaintext. -/
theorem openCompletes : Obligations.OpenCompletes := by
  intro s rd a b n t hw hq hpc ht hp h16 hl hd hdst hv
  have hlast : (t.lastBytes s).length = t.lastLen := lastBytes_length s t
  have hlen : (candidate s.encKey (t.lastBytes s)).length = t.lastLen - 16 := by rw [candidate_length, hlast]
  obtain ⟨u, hu, hframe, hmarks, hin, hout⟩ :=
    storeThen_setB (rd := rd) (v := tagOf (t.lastBytes s)) hw hpc (hlen.symm ▸ hdst)
  rw [hlen] at hmarks hout
  refine ⟨u, (exec_open_eq_storeThen hq ⟨ht, hl, hd, hp⟩ h16 hv rd).trans hu, hframe, hmarks, fun i hi => ?_, hout⟩
  rw [hin i (by omega), candidate_getElem _ _ (by omega), lastBytes_getElem, seqByte_quiet hq, Nat.add_assoc]

/-- Settles O43: every check before passes, and the length or the tag check raises. -/
theorem openRejects : Obligations.OpenRejects := by
  intro s rd a b n t ht hp hl hd
  have hok : EnvelopeOk s a b n t (t.lastLen - 16) := ⟨ht, hl, hd, hp⟩
  exact ⟨fun hshort => exec_open_raise hok (authChecks_short hshort) rd,
    fun h16 hv => exec_open_raise hok (authChecks_mismatch h16 hv) rd⟩

/-- Settles O44: OPEN writes in its destination range alone, and it has one only where the tag verifies. -/
theorem noPlaintextBeforeVerification : Obligations.NoPlaintextBeforeVerification := by
  intro s u rd a b n x h hno
  refine exec_mem_outside h fun dst len hd => ?_
  obtain ⟨t, ht, -, -, h16, hv⟩ := destOf_open hd
  exact absurd hv (hno t ht h16)

/-- Settles O45: OPEN's last field reads as what SEAL wrote, whose tag verifies and whose candidate plaintext is the
bytes that SEAL read. -/
theorem sealThenOpen : Obligations.SealThenOpen := by
  intro s v u rd rd' a b n a' b' n' t t' hw hq _ hrd ht hseal hvb huw huq hpc hrd' hmk hek ht' hfront hlen' hbytes hp'
    hl' hd' hdst'
  have hlen : (t.sealed s).length = 16 + t.lastLen := sealed_length s t
  have hbody : t'.lastLen - 16 = t.lastLen := by omega
  have hx : t'.lastBytes u = t.sealed s :=
    lastBytes_eq_of_read huq (hlen'.trans hlen.symm) fun i hi =>
      (hbytes i (hlen ▸ hi)).trans (read_of_seal_busy hw ht hseal hvb i hi)
  have hv : t'.Verifies u := by
    rw [Table.Verifies, hx, hmk, hek, hfront]
    exact openTag_sealBytes ..
  have hcand : candidate u.encKey (t'.lastBytes u) = t.lastBytes s := by
    rw [hx, hek]
    exact candidate_sealBytes ..
  have hlast : (t.lastBytes s).length = t.lastLen := lastBytes_length s t
  obtain ⟨w, hnext, hframe, -, hin, -⟩ :=
    storeThen_setB (rd := rd') (v := tagOf (t'.lastBytes u)) huw hpc (hlast.symm ▸ hdst')
  have hopen := exec_open_eq_storeThen huq ⟨ht', hbody.symm ▸ hl', hbody.symm ▸ hd', hp'⟩ (by omega) hv rd'
  rw [hcand] at hopen
  refine ⟨w, hopen.trans hnext, by rw [hframe]; rfl, by rw [hframe]; rfl, ?_, fun i hi => ?_⟩
  · rw [getB_of_seal_busy hrd ht hseal hvb, hframe]
    exact (getB_setB_same _ rd' _ hrd').trans ((congrArg tagOf hx).trans (tagOf_sealBytes ..))
  · rw [hin i (by omega), lastBytes_getElem, seqByte_quiet hq]

/-- Settles O46: both leave the same synthetic value in RD and the same bytes of `sealBytes` at their destinations. -/
theorem sealDeterministic : Obligations.SealDeterministic := by
  intro s u s' u' rd rd' a b n a' b' n' t t' hw hw' _ _ hrd hrd' ht ht' hmk hek hfront hlast hu hub hu' hub'
  have htag : t'.synthetic s' = t.synthetic s := by rw [Table.synthetic, hmk, hfront, hlast, Table.synthetic]
  have hout : t'.sealed s' = t.sealed s := by rw [Table.sealed, hmk, hek, hfront, hlast, Table.sealed]
  refine ⟨?_, fun i hi => ?_⟩
  · rw [getB_of_seal_busy hrd ht hu hub, getB_of_seal_busy hrd' ht' hu' hub', htag]
  · have hi' : i < (t.sealed s).length := by rwa [sealed_length]
    rw [read_of_seal_busy hw ht hu hub i hi', read_of_seal_busy hw' ht' hu' hub' i (hout.symm ▸ hi')]
    simp only [hout]

/-- Settles O24: all differences are zero exactly where the blocks are equal. -/
theorem cteqCompletes : Obligations.CteqCompletes := fun _ rs1 rs2 h => exec_cteq h rs1 rs2

/-- Settles O47: each clause is the first check that does not pass. -/
theorem lengthFaults : Obligations.LengthFaults := by
  intro s rd rs1 a b n
  refine ⟨fun h32 h48 h64 => exec_keyld_invalidKey (keyLengthOk_eq_false h32 h48 h64) a,
    fun h16 => exec_padxor_shortOnly h16 rd rs1 a, fun h16 => exec_xorend_longOnly h16 rs1 a b,
    fun hmax => exec_xorend_lenMax hmax rs1 a b, fun hmax hkey => ⟨?_, ?_, ?_, exec_ctrxor_lenMax hkey hmax rs1 a b⟩⟩
  · exact conclude_lenMax hkey hmax a rd (Config.CMAC s.macKey)
  · exact conclude_lenMax hkey hmax a rd fun m => dbl (s.getB rs1) ^^^ Config.CMAC s.macKey m
  · exact conclude_lenMax hkey hmax a rd fun m => Config.CMAC s.macKey (terminal m (s.getB rs1))

end Sys2Proof.Proofs
end

section
/-! PROOFS. The sequencer and the commands that move data (spec/46_sequencer_data.md): how a run ends and when, what a
cycle runs, and HALT, NOP, BLD, BST, BZERO, BMOV and BXOR; the six statements about them settled from these laws. -/

namespace Sys2Proof.Machine

/-! ### The ends of a run (R252, R290, R321) -/

/-- A cycle that ends a run is that of a HALT, or one that takes a fault. -/
theorem sequencerStep_ends {s t : State} (hb : s.busy = true) (ht : t.busy = false) (h : sequencerStep s = .next t) :
    t = { s with busy := false, done := true } ∨
      (t.done = s.done ∧ t.err = true ∧ t.errPc = s.pc ∧ t.pc = s.pc) := by
  rcases sequencerStep_cases h with ⟨c, info, rfl⟩ | ⟨i, hi⟩
  · exact .inr ⟨rfl, rfl, rfl, rfl⟩
  rcases exec_effect hi with ⟨-, rfl⟩ | ⟨-, u, hu, ⟨-, rfl⟩ | ⟨c, info, rfl⟩⟩
  · exact .inl rfl
  · rw [next_busy, hu.busy, hb] at ht
    cases ht
  · obtain ⟨hdone, -⟩ := hu.control
    exact .inr ⟨hdone, rfl, hu.pc, hu.pc⟩

/-- A write of the window that ends a run is a soft reset (spec/10_state.md R34). -/
theorem mmioWrite_ends {s : State} {off : Nat} {v : Word} (hb : s.busy = true) (ht : (mmioWrite s off v).busy = false) :
    off = 0x08 ∧ v.getLsbD 1 = true ∧ mmioWrite s off v = softReset s := by
  have idle : (mmioWrite s off v).busy ≠ true := by rw [ht]; decide
  rcases mmioWrite_cases s off v with ⟨ho, he⟩ | ⟨-, he⟩ | ⟨-, he⟩ | he <;> rw [he] at idle ⊢
  · rcases writeCtrl_cases s v with ⟨h1, he⟩ | ⟨-, -, h0, -⟩ | ⟨-, -, he⟩
    · exact ⟨ho, h1, he⟩
    · rw [hb] at h0; cases h0
    · rw [he] at idle; exact absurd hb idle
  · exact absurd hb idle
  · rw [writeCmdPtr_eq] at idle; exact absurd hb idle
  · exact absurd hb idle

/-- An event of the host that ends a run is a soft reset: no other access of the host writes BUSY = 0. -/
theorem hostStep_ends {e : Event} {s t : State} (hb : s.busy = true) (ht : t.busy = false)
    (h : hostStep e s = .next t) :
    t = softReset s ∧ ∃ addr width v, e = .mmioWrite addr width v ∧ mmioOffset s.platform addr width = some 0x08 ∧
      v.getLsbD 1 = true := by
  have idle : t.busy ≠ true := by rw [ht]; decide
  rcases hostStepWith_cases h with
    rfl | ⟨w, rfl⟩ | ⟨addr, width, off, v, rfl, ho, rfl⟩ | ⟨a, -, ⟨v, -, rfl⟩ | ⟨-, rfl⟩ | ⟨-, rfl⟩⟩
  · exact absurd hb idle
  · exact absurd hb idle
  · obtain ⟨rfl, h1, he⟩ := mmioWrite_ends hb ht
    exact ⟨he, addr, width, v, rfl, ho, h1⟩
  · exact absurd hb idle
  · rw [hostClean_frame] at idle; exact absurd hb idle
  · rw [hostInvalidate_frame] at idle; exact absurd hb idle

theorem softReset_flags (s : State) :
    (softReset s).done = false ∧ (softReset s).err = false ∧ (softReset s).ie = false := by
  rcases softReset_cases s with h | ⟨_, _, _, -, -, -, h⟩ <;> rw [h] <;> exact ⟨rfl, rfl, rfl⟩

/-! ### Every run ends (R252) -/

/-- With no event of the host and no region outside the spec, a turn of a run gives a next state, again with neither. -/
theorem step_undisturbed {s : State} (hb : s.busy = true) (ha : s.agenda = []) (hp : s.platform.plain) :
    ∃ t, step s = .next t ∧ t.agenda = [] ∧ t.platform.plain := by
  obtain ⟨t, ht⟩ := sequencerStep_next (s := s.tick) hp
  have hs := sequencerStep_sameRun ht
  refine ⟨t, ?_, hs.agenda.trans ha, hs.platform ▸ hp⟩
  rw [step_of_sequencerTurn (sequencerTurn_alone hb (.inl ha)), ht]

/-- A turn of a run leaves fewer turns to come, whether it ends the run or not. -/
theorem turnsLeft_step {s t : State} (ha : s.pcAligned) (hb : s.busy = true) (h : step s = .next t) :
    turnsLeft t < turnsLeft s := by
  cases hbt : t.busy with
  | true => exact (step_progress ha hb hbt h).2
  | false =>
    rw [show turnsLeft t = 0 by simp [turnsLeft, hbt]]
    exact turnsLeft_pos hb

theorem run_succ {k : Nat} {s t : State} (h : step s = .next t) :
    Host.Core.run Sys2Proof.core (k + 1) s = Host.Core.run Sys2Proof.core k t := by
  have h : Sys2Proof.core.step s = .next t := h
  simp only [Host.Core.run, h]

/-- An undisturbed run ends within the turns that are left. -/
theorem run_ends {n : Nat} {s : State} (hs : s.Inv) (ha : s.agenda = []) (hp : s.platform.plain)
    (hn : turnsLeft s ≤ n) : ∃ k ≤ n, ∃ t, Host.Core.run Sys2Proof.core k s = .next t ∧ t.busy = false := by
  induction n generalizing s with
  | zero =>
    refine ⟨0, Nat.le_refl 0, s, rfl, Bool.eq_false_iff.2 fun hb => ?_⟩
    exact absurd (turnsLeft_pos hb) (Nat.not_lt.2 hn)
  | succ n ih =>
    cases hb : s.busy with
    | false => exact ⟨0, Nat.zero_le _, s, rfl, hb⟩
    | true =>
      obtain ⟨t, ht, hat, hpt⟩ := step_undisturbed hb ha hp
      have hinv : t.Inv := step_inv hs ht
      obtain ⟨haligned, -⟩ := hs
      have hlt : turnsLeft t < turnsLeft s := turnsLeft_step haligned hb ht
      obtain ⟨k, hk, u, hu, hbu⟩ := ih hinv hat hpt (by omega)
      exact ⟨k + 1, Nat.succ_le_succ hk, u, (run_succ ht).trans hu, hbu⟩

/-! ### What a cycle runs (R251) -/

theorem sequencerStep_of_decode {s : State} {bs rest : List Byte} {i : Instr} (hf : fetch s = .ok bs)
    (hd : decode bs = .ok (i, rest)) : sequencerStep s = exec i s := by
  simp only [sequencerStep, hf, hd]

/-! ### BLD and BST (R262, R263) -/

/-- BLD ends below the last command address with the block of the bytes read in RD. -/
theorem exec_bld {s : State} {a : Word} (hpc : s.pc ≠ lastPc) (hl : rangeLegal a.toNat 16 = true)
    (hp : plainRange s.platform a.toNat 16) (rd : Reg) :
    exec (.bld rd a) s = .next (s.setB rd (blockOfBytes (seqBytes s (.data 0) a.toNat 16))).next := by
  have hread : readOperand s a 16 = .ok (seqBytes s (.data 0) a.toNat 16) := readOperand_eq_ok.2 ⟨hl, hp, rfl⟩
  simp only [exec, execBld, hread, bind_ok, pure_ok, conclude_ok]
  exact complete_of_ne_last hpc

/-- BST of a legal range is the write of the register's bytes. -/
theorem exec_bst {s : State} {a : Word} (hl : rangeLegal a.toNat 16 = true) (rs1 : Reg) :
    exec (.bst rs1 a) s = storeThen s a.toNat (blockBytes (s.getB rs1)) id := by
  simp only [exec, execBst, bstPlan_eq_ok.2 ⟨hl, rfl⟩]

end Sys2Proof.Machine

namespace Sys2Proof.Proofs
open Sys2Proof.Machine

/-- Settles O18: the turns that are left bound the run, and with no event to come they are at most one for each command
address. -/
theorem everyRunEnds : Obligations.EveryRunEnds := by
  intro s hs ha hp
  refine run_ends hs ha hp ?_
  rw [turnsLeft, ha, List.length_nil]
  split
  · omega
  · exact Nat.zero_le _

/-- Settles O19: DONE and ERR are 0 during the run, and each agent that can end it sets its own flag or none. -/
theorem runEndsOneWay : Obligations.RunEndsOneWay := by
  intro s t hs hb h ht
  obtain ⟨-, -, ⟨-, hrun, hcode, -⟩, -⟩ := hs
  obtain ⟨hdone, herr⟩ := hrun hb
  rcases step_cases h with ⟨u, hu, hq⟩ | ⟨-, hidle, -⟩ | ⟨e, rest, ha, -, he⟩
  · obtain ⟨-, es, rfl⟩ := sequencerTurn_frame hu
    rcases sequencerStep_ends (s := { s with agenda := es, raced := _ }.tick) hb ht hq with rfl | ⟨hd, hfault⟩
    · exact .inl ⟨rfl, herr, hcode herr, rfl⟩
    · exact .inr (.inl ⟨hd.trans hdone, hfault⟩)
  · rw [hb] at hidle; cases hidle
  · obtain ⟨rfl, addr, width, v, rfl, ho, hv⟩ := hostStep_ends (s := s.took rest) hb ht he
    obtain ⟨hd, he, hie⟩ := softReset_flags (s.took rest)
    exact .inr (.inr ⟨hd, he, hie, addr, width, v, rest, ha, ho, hv⟩)

/-- Settles O28: the bytes of the block loaded are those read. -/
theorem bldCompletes : Obligations.BldCompletes := by
  intro s rd a hpc hl hp
  refine ⟨_, exec_bld hpc (rangeLegal_iff.2 (.inr hl)) hp rd, fun i hi => ?_⟩
  rw [blockByte_blockOfBytes _ (seqBytes_length ..) i hi, seqBytes_getElem]

/-- Settles O29: the write completes, and its bytes are those of the register. -/
theorem bstCompletes : Obligations.BstCompletes := by
  intro s rs1 a hw hpc hl hp
  have hlen : (blockBytes (s.getB rs1)).length = 16 := blockBytes_length _
  obtain ⟨t, ht, hframe, hmarks, hin, hout⟩ := storeThen_id hw hpc (hlen.symm ▸ hp)
  rw [hlen] at hmarks hout
  refine ⟨t, (exec_bst (rangeLegal_iff.2 (.inr hl)) rs1).trans ht, hframe, hmarks, fun i hi => ?_, hout⟩
  rw [hin i (hlen.symm ▸ hi), blockBytes_getElem]

/-- Settles O7: the cycle runs the command it fetched; each clause is a case of whose turn it is. -/
theorem stepRunsCommand : Obligations.StepRunsCommand := by
  refine ⟨fun s u bs rest i hu hf hd => ?_, fun s => ⟨sequencerTurn_idle, fun hb ha => ?_, fun es hb ha => ?_,
    fun es hb ha => sequencerTurn_seqTurn hb ha, fun e es ha h1 h2 => sequencerTurn_of_event ha h1 h2⟩⟩
  · exact (step_of_sequencerTurn hu).trans (sequencerStep_of_decode hf hd)
  · exact sequencerTurn_alone hb (.inl ha)
  · exact sequencerTurn_alone hb (.inr ⟨es, ha⟩)

/-- Settles O20: none of these commands has a check, and writing a register leaves CMD_PTR. -/
theorem controlAndMoveComplete : Obligations.ControlAndMoveComplete := by
  intro s rd rs1 rs2
  have completes : ∀ v, s.pc ≠ lastPc → complete (s.setB rd v) = .next (s.setB rd v).next :=
    fun v h => complete_of_ne_last h
  exact ⟨rfl, fun h => ⟨complete_of_ne_last h, completes _ h, completes _ h, completes _ h⟩,
    fun v h => getB_setB_same s rd v h, fun v q h => getB_setB_other s rd q v h⟩

end Sys2Proof.Proofs
end

section
/-! PROOFS. The laws behind the statements about exceptions (spec/60_exceptions.md): what wakes an idle block, how a
command ends, what it does at the last address, and BUS_ERROR at reads and at data writes. -/

namespace Sys2Proof.Machine

/-! ### What wakes an idle block (R306) -/

/-- A write of the window that starts a run is a GO (spec/10_state.md R34). -/
theorem mmioWrite_wakes {s : State} {off : Nat} {v : Word} (hb : s.busy = false)
    (ht : (mmioWrite s off v).busy = true) : off = 0x08 ∧ v.getLsbD 0 = true ∧ v.getLsbD 1 = false := by
  have idle : s.busy ≠ true := by rw [hb]; decide
  rcases mmioWrite_cases s off v with ⟨ho, he⟩ | ⟨-, he⟩ | ⟨-, he⟩ | he <;> rw [he] at ht
  · rcases writeCtrl_cases s v with ⟨-, he⟩ | ⟨h1, h0, -, -⟩ | ⟨-, -, he⟩
    · rw [he, (softReset_sameRun s).2] at ht
      cases ht
    · exact ⟨ho, h0, h1⟩
    · rw [he] at ht
      exact absurd ht idle
  · exact absurd ht idle
  · rw [writeCmdPtr_eq] at ht
    exact absurd ht idle
  · exact absurd ht idle

/-- An event of the host that starts a run is such a write: no other access of the host writes BUSY. -/
theorem hostStep_wakes {e : Event} {s t : State} (hb : s.busy = false) (ht : t.busy = true)
    (h : hostStep e s = .next t) :
    ∃ addr width v, e = .mmioWrite addr width v ∧ mmioOffset s.platform addr width = some 0x08 ∧
      v.getLsbD 0 = true ∧ v.getLsbD 1 = false := by
  have idle : s.busy ≠ true := by rw [hb]; decide
  rcases hostStepWith_cases h with
    rfl | ⟨w, rfl⟩ | ⟨addr, width, off, v, rfl, ho, rfl⟩ | ⟨a, -, ⟨v, -, rfl⟩ | ⟨-, rfl⟩ | ⟨-, rfl⟩⟩
  · exact absurd ht idle
  · exact absurd ht idle
  · obtain ⟨rfl, h0, h1⟩ := mmioWrite_wakes hb ht
    exact ⟨addr, width, v, rfl, ho, h0, h1⟩
  · exact absurd ht idle
  · rw [hostClean_frame] at ht
    exact absurd ht idle
  · rw [hostInvalidate_frame] at ht
    exact absurd ht idle

theorem step_idle {s : State} (hb : s.busy = false) (ha : s.agenda = []) : step s = .next s := by
  simp only [step, turn, turnWith, sequencerTurn_idle hb, ha]

/-! ### How a command ends (R285, R290) -/

/-- The effect of a command leaves the run control, the fault record among it. -/
theorem Effect.runControl {i : Instr} {s u : State} (h : Effect i s u) :
    u.pc = s.pc ∧ u.busy = s.busy ∧ u.done = s.done ∧ u.err = s.err ∧ u.errcode = s.errcode ∧ u.errPc = s.errPc ∧
      u.errInfo = s.errInfo ∧ u.ie = s.ie := by
  rw [h.frame]
  exact ⟨rfl, rfl, rfl, rfl, rfl, rfl, rfl, rfl⟩

/-- A completion leaves an effect that changed no run control, and advances CMD_PTR or raises PC_OVERFLOW. -/
theorem Effect.completion {i : Instr} {s u t : State} (h : Effect i s u) (hc : complete u = .next t) :
    ∃ u : State, u.pc = s.pc ∧ u.busy = s.busy ∧ u.done = s.done ∧ u.err = s.err ∧ u.errcode = s.errcode ∧
      u.errPc = s.errPc ∧ u.errInfo = s.errInfo ∧ u.ie = s.ie ∧
      ((s.pc ≠ lastPc ∧ t = u.next) ∨ (s.pc = lastPc ∧ t = raise u .pcOverflow lastPc)) := by
  obtain ⟨hpc, hbusy, hdone, herr, hcode, herrPc, hinfo, hie⟩ := h.runControl
  refine ⟨u, hpc, hbusy, hdone, herr, hcode, herrPc, hinfo, hie, ?_⟩
  rw [← hpc]
  refine (complete_cases hc).imp_right ?_
  rintro ⟨hl, rfl⟩
  exact ⟨hl, by rw [hl]⟩

/-! ### A command at the last address (R285) -/

/-- `s` with CMD_PTR at another address. -/
def State.atPc (s : State) (p : Word) : State := { s with pc := p }

/-- Where `o` is a completion at address 0, `o'` is the completion with the same effects at the last address. -/
def CompletesAtLast (o o' : Outcome) : Prop :=
  ∀ u, o = .next u → u.pc = 16 → o' = .next (raise (u.atPc lastPc) .pcOverflow lastPc)

theorem completesAtLast_complete (s : State) : CompletesAtLast (complete (s.atPc 0)) (complete (s.atPc lastPc)) := by
  have hfirst : (s.atPc 0).pc ≠ lastPc := show (0 : Word) ≠ lastPc by decide
  rintro u hu -
  rw [complete_of_ne_last hfirst] at hu
  injection hu with hu
  subst hu
  exact complete_of_last rfl

/-- A command that stops does not complete: a fault leaves CMD_PTR. -/
theorem completesAtLast_stop (s : State) (e : Stop) (o : Outcome) : CompletesAtLast (stop (s.atPc 0) e) o := by
  intro u hu hpc
  obtain ⟨c, info, -, rfl⟩ := stop_eq_next.1 hu
  exact absurd hpc (show (0 : Word) ≠ 16 by decide)

/-- A command that stores nothing, whose checks and effects do not depend on CMD_PTR. -/
theorem completesAtLast_conclude (s : State) {α : Type} (r : Except Stop α) (f : α → State) :
    CompletesAtLast (conclude (s.atPc 0) (r >>= fun x => .ok ((f x).atPc 0)))
      (conclude (s.atPc lastPc) (r >>= fun x => .ok ((f x).atPc lastPc))) := by
  cases r with
  | ok x => exact completesAtLast_complete (f x)
  | error e => exact completesAtLast_stop s e _

/-- What MAC, FOLD and MACEND share: a value computed from the field in RD. -/
theorem completesAtLast_field (s : State) (a n : Word) (rd : Reg) (f : List Byte → Block) :
    CompletesAtLast
      (conclude (s.atPc 0) do
        needKey s
        needLen n
        let m ← readOperand s a n.toNat
        return (s.atPc 0).setB rd (f m))
      (conclude (s.atPc lastPc) do
        needKey s
        needLen n
        let m ← readOperand s a n.toNat
        return (s.atPc lastPc).setB rd (f m)) := by
  simp only [← bind_assoc]
  exact completesAtLast_conclude s ((needKey s >>= fun _ => needLen n) >>= fun _ => readOperand s a n.toNat)
    fun m => s.setB rd (f m)

/-- The write stage of a command whose registers do not depend on CMD_PTR. -/
theorem completesAtLast_storeThen (s : State) (dst : Nat) (bs : List Byte) {after : State → State}
    (h : ∀ t p, after (t.atPc p) = (after t).atPc p) :
    CompletesAtLast (storeThen (s.atPc 0) dst bs after) (storeThen (s.atPc lastPc) dst bs after) := by
  have haccess : access (s.atPc lastPc) [(dst, bs.length)] = access (s.atPc 0) [(dst, bs.length)] := rfl
  have hwrite : ∀ p, after (memWrite (s.atPc p) dst bs) = (after (memWrite s dst bs)).atPc p :=
    fun p => h (memWrite s dst bs) p
  unfold storeThen
  rw [haccess, hwrite, hwrite]
  split
  · exact completesAtLast_complete _
  · exact completesAtLast_stop (scramble s dst bs.length) _ _

theorem readDescs_atPc (s : State) (p : Word) (a i k : Nat) : readDescs (s.atPc p) a i k = readDescs s a i k := by
  induction k generalizing i with
  | zero => rfl
  | succ k ih => simp only [readDescs, ih, readDesc_congr (s := s.atPc p) (t := s) rfl rfl rfl]

theorem readTable_atPc (s : State) (p : Word) (a n : Word) : readTable (s.atPc p) a n = readTable s a n := by
  simp only [readTable, readDescs_atPc]
  rfl

theorem frontFields_atPc (s : State) (p : Word) (t : Table) : t.frontFields (s.atPc p) = t.frontFields s :=
  readFields_congr (s := s.atPc p) (t := s) rfl rfl rfl 0 t.front

theorem sealPlan_atPc (s : State) (p : Word) (a b n : Word) : sealPlan (s.atPc p) a b n = sealPlan s a b n := by
  simp only [sealPlan, readTable_atPc, frontFields_atPc]
  rfl

theorem openPlan_atPc (s : State) (p : Word) (a b n : Word) : openPlan (s.atPc p) a b n = openPlan s a b n := by
  simp only [openPlan, readTable_atPc, frontFields_atPc]
  rfl

/-- A command other than HALT that completes at address 0 has the same effects at the last address. -/
theorem exec_completesAtLast {i : Instr} (hi : i ≠ .halt) (s : State) :
    CompletesAtLast (exec i (s.atPc 0)) (exec i (s.atPc lastPc)) := by
  -- a command without a check, which writes a register
  have reg : ∀ (rd : Reg) (v : Block),
      CompletesAtLast (complete ((s.atPc 0).setB rd v)) (complete ((s.atPc lastPc).setB rd v)) :=
    fun rd v => completesAtLast_complete (s.setB rd v)
  -- a storing command which writes no register
  have store : ∀ (plan : Except Stop (List Byte)) (dst : Nat), CompletesAtLast
      (match plan with | .ok bs => storeThen (s.atPc 0) dst bs id | .error e => stop (s.atPc 0) e)
      (match plan with | .ok bs => storeThen (s.atPc lastPc) dst bs id | .error e => stop (s.atPc lastPc) e) := by
    intro plan dst
    cases plan with
    | ok bs => exact completesAtLast_storeThen s dst bs fun _ _ => rfl
    | error e => exact completesAtLast_stop s e _
  cases i with
  | halt => exact absurd rfl hi
  | nop => exact completesAtLast_complete s
  | keyclr => exact completesAtLast_complete { s with macKey := [], encKey := [], klen := 0, keyValid := false }
  | cteq rs1 rs2 => exact completesAtLast_complete { s with eq := ctEq (s.getB rs1) (s.getB rs2) }
  | bzero rd => exact reg rd _
  | bmov rd rs1 => exact reg rd _
  | bxor rd rs1 rs2 => exact reg rd _
  | dbl rd rs1 => exact reg rd _
  | ctrmask rd rs1 => exact reg rd _
  | bld rd a => exact completesAtLast_conclude s (readOperand s a 16) fun bs => s.setB rd (blockOfBytes bs)
  | keyld a n =>
    simp only [exec, execKeyld, ← bind_assoc]
    exact completesAtLast_conclude s (check (keyLengthOk n.toNat) .invalidKey n >>= fun _ => readOperand s a n.toNat)
      fun key => { s with
        macKey := key.take (n.toNat / 2), encKey := key.drop (n.toNat / 2), klen := n.toNat / 2, keyValid := true }
  | padxor rd rs1 a n =>
    simp only [exec, execPadxor, ← bind_assoc]
    exact completesAtLast_conclude s
      (check (decide (n.toNat ≤ 15)) .contract shortOnly >>= fun _ => readOperand s a n.toNat)
      fun x => s.setB rd (pad x ^^^ dbl (s.getB rs1))
  | macz rd => exact completesAtLast_conclude s (needKey s) fun _ => s.setB rd (macZero s.macKey)
  | mac rd a n => exact completesAtLast_field s a n rd (Config.CMAC s.macKey)
  | fold rd rs1 a n => exact completesAtLast_field s a n rd fun m => dbl (s.getB rs1) ^^^ Config.CMAC s.macKey m
  | macend rd rs1 a n =>
    exact completesAtLast_field s a n rd fun x => Config.CMAC s.macKey (terminal x (s.getB rs1))
  | s2v rd a n =>
    simp only [exec, execS2v, readTable_atPc, frontFields_atPc]
    cases readTable s a n with
    | ok t =>
      exact completesAtLast_conclude s (access s t.ranges)
        fun _ => s.setB rd (s2v s.macKey (t.frontFields s) (t.lastBytes s))
    | error e => exact completesAtLast_stop s e _
  | bst rs1 a => exact store (bstPlan s rs1 a) a.toNat
  | xorend rs1 a b n => exact store (xorendPlan s rs1 a b n) b.toNat
  | ctrxor rs1 a b n => exact store (ctrxorPlan s rs1 a b n) b.toNat
  | sealAead rd a b n =>
    simp only [exec, execSealAead, sealPlan_atPc]
    split
    · exact completesAtLast_storeThen s _ _ fun _ _ => rfl
    · exact completesAtLast_stop s _ _
  | openAead rd a b n =>
    simp only [exec, execOpenAead, openPlan_atPc]
    split
    · exact completesAtLast_storeThen s _ _ fun _ _ => rfl
    · exact completesAtLast_stop s _ _

/-! ### BUS_ERROR of a read (R280, R286) -/

/-- A stage over several ranges with a byte that does not answer raises BUS_ERROR with such a byte (R281, R286). -/
theorem access_raise {s : State} {rs : List (Nat × Nat)}
    (h : ∃ r ∈ rs, ∃ y, inRange y r.1 r.2 ∧ memOk s.platform y = false) :
    ∃ r ∈ rs, ∃ x, inRange x r.1 r.2 ∧ memOk s.platform x = false ∧
      access s rs = .error (.raise .busError (BitVec.ofNat 32 x)) := by
  obtain ⟨r, hr, y, hy, hbad⟩ := h
  have hmem : y ∈ (rs.flatMap fun r => addresses r.1 r.2).filter fun x => !memOk s.platform x :=
    List.mem_filter.2 ⟨List.mem_flatMap.2 ⟨r, hr, mem_addresses.2 hy⟩, by rw [hbad]; rfl⟩
  obtain ⟨x, xs, hxs⟩ := List.exists_cons_of_ne_nil (List.ne_nil_of_mem hmem)
  have haccess : access s rs = .error (.raise .busError (BitVec.ofNat 32 (pickRefused s x xs))) := by
    simp only [access, accessAddrs, hxs]
  obtain ⟨-, r, hr, z, hz, hm, hinfo⟩ := access_eq_raise haccess
  exact ⟨r, hr, z, hz, hm, hinfo ▸ haccess⟩

/-- The cycle takes a fault of its fetch (R251). -/
theorem sequencerStep_fetch_raise {s : State} {code : FaultCode} {info : Word}
    (h : access s [(s.pc.toNat, 16)] = .error (.raise code info)) : sequencerStep s = .next (raise s code info) := by
  simp only [sequencerStep, fetch, h, stop_raise]

theorem readOperand_access_raise {s : State} {a : Word} {n : Nat} {code : FaultCode} {info : Word}
    (hl : a.toNat + n ≤ Config.addrSpace) (h : access s [(a.toNat, n)] = .error (.raise code info)) :
    readOperand s a n = .error (.raise code info) := by
  simp only [readOperand, needRange_ok hl, h, bind_ok, bind_error]

/-- MAC, FOLD and MACEND share their checks, of which the read of the field is the last (R172-R174). -/
theorem conclude_field_raise {s : State} {a n : Word} {code : FaultCode} {info : Word} (hkey : s.keyValid = true)
    (hmax : n.toNat ≤ Config.maxLen) (h : readOperand s a n.toNat = .error (.raise code info)) (rd : Reg)
    (f : List Byte → Block) :
    (conclude s do
      needKey s
      needLen n
      let m ← readOperand s a n.toNat
      return s.setB rd (f m)) = .next (raise s code info) := by
  simp only [needKey_ok hkey, needLen_ok hmax, h, bind_ok, bind_error, conclude_error, stop_raise]

/-- After the checks of the ranges XOREND and CTRXOR read their source (R154, R204). -/
theorem exec_pair_raise {s : State} {rs1 : Reg} {a b n : Word} {i : Instr} {code : FaultCode} {info : Word}
    (hi : i = .xorend rs1 a b n ∧ 16 ≤ n.toNat ∨ i = .ctrxor rs1 a b n ∧ s.keyValid = true)
    (hmax : n.toNat ≤ Config.maxLen) (ha : a.toNat + n.toNat ≤ Config.addrSpace)
    (hb : b.toNat + n.toNat ≤ Config.addrSpace)
    (hd : b = a ∨ ∀ x, inRange x b.toNat n.toNat → ¬ inRange x a.toNat n.toNat)
    (h : access s [(a.toNat, n.toNat)] = .error (.raise code info)) : exec i s = .next (raise s code info) := by
  have hdisjoint : needInPlaceOrDisjoint a b n.toNat = .ok () := needInPlaceOrDisjoint_eq_ok.2 hd
  rcases hi with ⟨rfl, h16⟩ | ⟨rfl, hkey⟩
  · simp only [exec, execXorend, xorendPlan, decide_eq_true h16, check_true, needLen_ok hmax, needRange_ok ha,
      needRange_ok hb, hdisjoint, h, bind_ok, bind_error, stop_raise]
  · simp only [exec, execCtrxor, ctrxorPlan, needKey_ok hkey, needLen_ok hmax, needRange_ok ha, needRange_ok hb,
      hdisjoint, h, bind_ok, bind_error, stop_raise]

theorem exec_s2v_access_raise {s : State} {rd : Reg} {a n : Word} {t : Table} {code : FaultCode} {info : Word}
    (ht : TableOk s a n t) (h : access s t.ranges = .error (.raise code info)) :
    exec (.s2v rd a n) s = .next (raise s code info) := by
  simp only [exec, execS2v, readTable_eq_ok.2 ht, h, bind_ok, bind_error, conclude_error, stop_raise]

/-- After the checks of their destination SEAL and OPEN read the fields (R225, R226). -/
theorem exec_envelope_access_raise {s : State} {rd : Reg} {a b n : Word} {t : Table} {len : Nat} {i : Instr}
    {code : FaultCode} {info : Word} (ht : TableOk s a n t)
    (hi : i = .sealAead rd a b n ∧ len = 16 + t.lastLen ∨ i = .openAead rd a b n ∧ len = t.lastLen - 16)
    (hl : rangeLegal b.toNat len = true)
    (hd : ∀ r ∈ (a.toNat, 8 * n.toNat) :: t.ranges, ∀ x, inRange x b.toNat len → ¬ inRange x r.1 r.2)
    (h : access s t.ranges = .error (.raise code info)) : exec i s = .next (raise s code info) := by
  have hread : readTable s a n = .ok t := readTable_eq_ok.2 ht
  have hrange : needRange b len = .ok () := needRange_eq_ok.2 hl
  have hdisjoint : needDisjoint t a n b len = .ok () := needDisjoint_eq_ok.2 hd
  rcases hi with ⟨rfl, rfl⟩ | ⟨rfl, rfl⟩
  · simp only [exec, execSealAead, sealPlan, hread, hrange, hdisjoint, h, bind_ok, bind_error, stop_raise]
  · simp only [exec, execOpenAead, openPlan, hread, hrange, hdisjoint, h, bind_ok, bind_error, stop_raise]

/-! ### BUS_ERROR of a data write (R291) -/

theorem map_eq_ok {α β : Type} {r : Except Stop α} {f : α → β} {y : β} :
    r.map f = .ok y ↔ ∃ x, r = .ok x ∧ f x = y := by
  cases r <;> simp [Except.map]

/-- A command that has a destination range reaches its data write, of as many bytes. -/
theorem exec_of_destOf {i : Instr} {s : State} {dst len : Nat} (h : destOf i s = some (dst, len)) :
    ∃ bs after, bs.length = len ∧ exec i s = storeThen s dst bs after := by
  -- a plan that gives a range gave the bytes
  have planned : ∀ (d : Nat) (r : Except Stop (List Byte)),
      (match r with | .ok bs => some (d, bs.length) | .error _ => none) = some (dst, len) →
      ∃ bs, r = .ok bs ∧ d = dst ∧ bs.length = len := by
    intro d r hr
    cases r with
    | ok bs => cases hr; exact ⟨bs, rfl, rfl, rfl⟩
    | error e => cases hr
  cases i with
  | bst rs1 a =>
    obtain ⟨bs, hp, rfl, rfl⟩ := planned a.toNat (bstPlan s rs1 a) h
    exact ⟨bs, id, rfl, by simp only [exec, execBst, hp]⟩
  | xorend rs1 a b n =>
    obtain ⟨bs, hp, rfl, rfl⟩ := planned b.toNat (xorendPlan s rs1 a b n) h
    exact ⟨bs, id, rfl, by simp only [exec, execXorend, hp]⟩
  | ctrxor rs1 a b n =>
    obtain ⟨bs, hp, rfl, rfl⟩ := planned b.toNat (ctrxorPlan s rs1 a b n) h
    exact ⟨bs, id, rfl, by simp only [exec, execCtrxor, hp]⟩
  | sealAead rd a b n =>
    obtain ⟨bs, hp, rfl, rfl⟩ := planned b.toNat ((sealPlan s a b n).map Envelope.out) h
    obtain ⟨e, he, rfl⟩ := map_eq_ok.1 hp
    exact ⟨e.out, fun t => t.setB rd e.tag, rfl, by simp only [exec, execSealAead, he]⟩
  | openAead rd a b n =>
    obtain ⟨bs, hp, rfl, rfl⟩ := planned b.toNat ((openPlan s a b n).map Envelope.out) h
    obtain ⟨e, he, rfl⟩ := map_eq_ok.1 hp
    exact ⟨e.out, fun t => t.setB rd e.tag, rfl, by simp only [exec, execOpenAead, he]⟩
  | _ => cases h

theorem storeThen_raise {s : State} {dst : Nat} {bs : List Byte} {code : FaultCode} {info : Word}
    (h : access s [(dst, bs.length)] = .error (.raise code info)) (after : State → State) :
    storeThen s dst bs after = .next (raise (scramble s dst bs.length) code info) := by
  simp only [storeThen, h, stop_raise]

end Sys2Proof.Machine

namespace Sys2Proof.Proofs
open Sys2Proof.Machine

/-- Settles O17: fault entry writes these fields alone, and each code lies in the range of R280. -/
theorem faultEntry : Obligations.FaultEntry := by
  intro s code info
  obtain ⟨hlow, hhigh⟩ := faultCode_range code
  exact ⟨rfl, rfl, rfl, rfl, rfl, rfl, hlow, hhigh, rfl, rfl, rfl, rfl, rfl, rfl, rfl, rfl, rfl, rfl, rfl⟩

/-- Settles O9: an idle block takes no turn, and of the events of the host only a GO writes BUSY = 1. -/
theorem onlyGoWakes : Obligations.OnlyGoWakes := by
  refine ⟨fun s hb ha => step_idle hb ha, fun s t hb h ht => ?_⟩
  rcases step_cases h with ⟨u, hu, -⟩ | ⟨-, -, rfl⟩ | ⟨e, rest, ha, -, he⟩
  · rw [sequencerTurn_idle hb] at hu
    cases hu
  · rw [hb] at ht
    cases ht
  · obtain ⟨addr, width, v, rfl, ho, h0, h1⟩ := hostStep_wakes (s := s.took rest) hb ht he
    exact ⟨addr, width, v, rest, ha, ho, h0, h1⟩

/-- Settles O15: each way in which `exec` gives a next state is one of these ends. -/
theorem commandOutcomes : Obligations.CommandOutcomes := by
  intro i s t h
  rcases exec_cases h with hhalt | ⟨u, hu, hc⟩ | hfault | ⟨dst, bs, after, hs, hd, ha, hst⟩
  · exact .inl hhalt
  · exact .inr (.inl ((Effect.change u hu).completion hc))
  · exact .inr (.inr (.inl hfault))
  · rcases storeThen_cases hst with ⟨-, hc⟩ | ⟨x, hx, hm, ht⟩
    · exact .inr (.inl ((Effect.store dst bs after hs (destOf_legal hd) ha).completion hc))
    · exact .inr (.inr (.inr ⟨dst, bs.length, x, hd, hx, hm, ht⟩))

/-- Settles O16: no check and no effect of a command reads CMD_PTR, and one that completes at address 0 ends there with
CMD_PTR 16. -/
theorem pcOverflowKeepsEffects : Obligations.PcOverflowKeepsEffects := by
  intro i s u hpc hi hu hu16
  have hs : s = s.atPc lastPc := by rw [← hpc]; rfl
  rw [hs]
  exact exec_completesAtLast hi s u hu hu16

/-- Settles O50: in each group every earlier check passes, and the stage that reads raises. -/
theorem readBusErrors : Obligations.ReadBusErrors := by
  refine ⟨fun s u hu hbus => ?_, fun s rd rs1 a b n i len hi hl hbus => ?_, fun s rd a b n t i ht hi hbus => ?_⟩
  · rw [step_of_sequencerTurn hu]
    obtain ⟨-, es, rfl⟩ := sequencerTurn_frame hu
    obtain ⟨x, hx, hbad, haccess⟩ := access_single_raise (s := { s with agenda := es, raced := _ }.tick) hbus
    exact ⟨x, hx, hbad, sequencerStep_fetch_raise haccess⟩
  · obtain ⟨x, hx, hbad, haccess⟩ := access_single_raise hbus
    have hread := readOperand_access_raise hl haccess
    refine ⟨x, hx, hbad, ?_⟩
    rcases hi with ⟨rfl, rfl⟩ | ⟨rfl, rfl, hk⟩ | ⟨rfl, rfl, h15⟩ | ⟨rfl | rfl | rfl, rfl, hmax, hkey⟩ |
      ⟨hi, rfl, hmax, hb, hd⟩
    · simp only [exec, execBld, hread, bind_error, conclude_error, stop_raise]
    · simp only [exec, execKeyld, keyLengthOk_sizes hk, check_true, bind_ok, hread, bind_error, conclude_error,
        stop_raise]
    · simp only [exec, execPadxor, decide_eq_true h15, check_true, bind_ok, hread, bind_error, conclude_error,
        stop_raise]
    · exact conclude_field_raise hkey hmax hread rd (Config.CMAC s.macKey)
    · exact conclude_field_raise hkey hmax hread rd fun m => dbl (s.getB rs1) ^^^ Config.CMAC s.macKey m
    · exact conclude_field_raise hkey hmax hread rd fun m => Config.CMAC s.macKey (terminal m (s.getB rs1))
    · exact exec_pair_raise hi hmax hl hb hd haccess
  · obtain ⟨r, hr, x, hx, hbad, haccess⟩ := access_raise hbus
    refine ⟨r, hr, x, hx, hbad, ?_⟩
    rcases hi with rfl | ⟨len, hi, hl, hd⟩
    · exact exec_s2v_access_raise ht haccess
    · exact exec_envelope_access_raise ht hi hl hd haccess

/-- Settles O51: the command reaches its data write, whose stage raises. -/
theorem dataWriteBusError : Obligations.DataWriteBusError := by
  intro i s dst len hd hbus
  refine ⟨?_, fun hw x hx => scramble_mem_inside hw hx⟩
  obtain ⟨x, hx, hbad, haccess⟩ := access_single_raise hbus
  obtain ⟨bs, after, rfl, hexec⟩ := exec_of_destOf hd
  exact ⟨x, hx, hbad, hexec.trans (storeThen_raise haccess after)⟩

end Sys2Proof.Proofs
end

section
/-! PROOFS. The laws behind the statements about reset (spec/70_reset_and_hazards.md): what a soft reset writes, what it
does to memory, and which range an abandoned command may have begun to write. -/

namespace Sys2Proof.Machine

/-! ### The reset values (R320) -/

theorem getB_reset (r : Reg) : State.reset.getB r = 0 := by
  show (List.replicate 8 (0 : Block)).getD r.toNat 0 = 0
  rw [List.getD_eq_getElem?_getD, List.getElem?_getD_replicate_default_eq]

/-! ### What a soft reset writes (R321) -/

/-- SRST discards the rest of the write of CTRL (spec/10_state.md R34). -/
theorem writeCtrl_srst {s : State} {v : Word} (h : v.getLsbD 1 = true) : writeCtrl s v = softReset s := if_pos h

theorem softReset_idle {s : State} (hb : s.busy = false) : softReset s = resetBlock s := by
  rw [softReset, hb]
  rfl

/-- A soft reset leaves the reset values, the host's side of the state, and memory with its marks. -/
theorem softReset_frame (s : State) :
    softReset s = { State.reset with
      mem := (softReset s).mem, platform := s.platform, agenda := s.agenda, raced := s.raced, dirty := s.dirty
      written := (softReset s).written, stale := (softReset s).stale, hostData := s.hostData, draws := s.draws } := by
  rcases softReset_cases s with h | ⟨_, _, _, -, -, -, h⟩ <;> rw [h] <;> rfl

/-- A byte outside the range of the command at CMD_PTR, if one is there to abandon, stays. -/
theorem softReset_mem_outside {s : State} {x : Nat}
    (hx : ∀ bs i more, fetch s = .ok bs → decode bs = .ok (i, more) →
      ¬ inRange x (abandonedRange i s).1 (abandonedRange i s).2) : (softReset s).mem.read x = s.mem.read x := by
  rcases softReset_cases s with h | ⟨bs, i, more, -, hf, hd, h⟩ <;> rw [h, resetBlock_mem]
  exact scramble_mem_outside _ _ _ _ (hx bs i more hf hd)

/-- In a run a byte of the range of the command at CMD_PTR takes a free value. -/
theorem softReset_mem_inside {s : State} {bs more : List Byte} {i : Instr} {x : Nat} (hb : s.busy = true)
    (hw : s.mem.wf) (hf : fetch s = .ok bs) (hd : decode bs = .ok (i, more))
    (hx : inRange x (abandonedRange i s).1 (abandonedRange i s).2) :
    (softReset s).mem.read x = Config.freeByte s.draws .leftover x := by
  rw [softReset_abandons hb hf hd, resetBlock_mem]
  exact scramble_mem_inside hw hx

/-! ### The range of an abandoned command (93_implementation_defined.md I2) -/

/-- The length that counts is that of a range inside the address space, and 0 of any other (R65). -/
theorem legalLength_eq (a n : Nat) :
    (if rangeLegal a n then n else 0) = if a + n ≤ Config.addrSpace then n else 0 := by
  by_cases h0 : n = 0
  · simp only [h0, ite_self]
  · simp only [rangeLegal_iff, h0, false_or]

theorem abandonedRange_of_storesNothing {i : Instr} (h : storesMemory i = false) (s : State) :
    (abandonedRange i s).2 = 0 := by
  cases i with
  | bst | xorend | ctrxor | sealAead | openAead => cases h
  | _ => rfl

theorem abandonedRange_bst (s : State) (r : Reg) (a : Word) :
    abandonedRange (.bst r a) s = (a.toNat, if a.toNat + 16 ≤ Config.addrSpace then 16 else 0) :=
  congrArg (Prod.mk _) (legalLength_eq ..)

theorem abandonedRange_xorend (s : State) (r : Reg) (a b n : Word) :
    abandonedRange (.xorend r a b n) s = (b.toNat, if b.toNat + n.toNat ≤ Config.addrSpace then n.toNat else 0) :=
  congrArg (Prod.mk _) (legalLength_eq ..)

theorem abandonedRange_ctrxor (s : State) (r : Reg) (a b n : Word) :
    abandonedRange (.ctrxor r a b n) s = (b.toNat, if b.toNat + n.toNat ≤ Config.addrSpace then n.toNat else 0) :=
  congrArg (Prod.mk _) (legalLength_eq ..)

theorem abandonedRange_seal {s : State} {a n : Word} {t : Table} (ht : TableOk s a n t) (r : Reg) (b : Word) :
    abandonedRange (.sealAead r a b n) s =
      (b.toNat, if b.toNat + (16 + t.lastLen) ≤ Config.addrSpace then 16 + t.lastLen else 0) := by
  simp only [abandonedRange, readTable_eq_ok.2 ht, legalLength_eq]

/-- A SEAL whose table is refused has begun no write (assumption 12). -/
theorem abandonedRange_seal_refused {s : State} {a n : Word} (h : ∀ t, ¬ TableOk s a n t) (r : Reg) (b : Word) :
    (abandonedRange (.sealAead r a b n) s).2 = 0 := by
  cases ht : readTable s a n with
  | ok t => exact absurd (readTable_eq_ok.1 ht) (h t)
  | error e => simp only [abandonedRange, ht]

/-- An OPEN that passes its checks and verifies the tag may have begun to write the plaintext (R227). -/
theorem abandonedRange_open {s : State} {a b n : Word} {t : Table} (h : EnvelopeOk s a b n t (t.lastLen - 16))
    (h16 : 16 ≤ t.lastLen) (hv : t.Verifies s) (r : Reg) :
    abandonedRange (.openAead r a b n) s = (b.toNat, t.lastLen - 16) := by
  have hplan := openPlan_eq_ok.2 ⟨t, h.table, h.legal, h.disjoint, h.plain, h16, hv, rfl⟩
  simp only [abandonedRange, hplan, ctrxor_length, seqBytes_length]

/-- An OPEN has begun no write, or passed its checks and verified the tag (R227). -/
theorem abandonedRange_open_cases (s : State) (r : Reg) (a b n : Word) :
    (abandonedRange (.openAead r a b n) s).2 = 0 ∨
    ∃ t, EnvelopeOk s a b n t (t.lastLen - 16) ∧ 16 ≤ t.lastLen ∧ t.Verifies s := by
  cases hp : openPlan s a b n with
  | ok e =>
    obtain ⟨t, ht, hl, hd, hplain, h16, hv, -⟩ := openPlan_eq_ok.1 hp
    exact .inr ⟨t, ⟨ht, hl, hd, hplain⟩, h16, hv⟩
  | error e => exact .inl (by simp only [abandonedRange, hp])

end Sys2Proof.Machine

namespace Sys2Proof.Proofs
open Sys2Proof.Machine

/-- Settles O57: the write is a soft reset of the state the event takes effect in, and the range that counts is read off
the checks that the abandoned command passes. -/
theorem softReset : Obligations.SoftReset := by
  refine ⟨fun s v rest hb hv ha => ?_, fun s i hi => abandonedRange_of_storesNothing hi s, fun s r a b n => ?_⟩
  · refine ⟨Machine.softReset (s.took rest), ?_, softReset_frame _, fun hidle => ?_,
      fun _ x hx => softReset_mem_outside hx,
      fun hbusy hw bs i more x hf hd hx => softReset_mem_inside hbusy hw hf hd hx⟩
    · rw [step_writeCtrl hb ha, writeCtrl_srst hv]
    · rw [softReset_idle (s := s.took rest) hidle]
      exact ⟨rfl, rfl, rfl⟩
  · refine ⟨abandonedRange_bst s r a, abandonedRange_xorend s r a b n, abandonedRange_ctrxor s r a b n,
      fun t ht => abandonedRange_seal ht r b, fun h => abandonedRange_seal_refused h r b,
      fun t ht hp h16 hl hd hv => abandonedRange_open ⟨ht, hl, fun q hq x => hd q hq x, hp⟩ h16 hv r, ?_⟩
    rcases abandonedRange_open_cases s r a b n with h0 | ⟨t, h, h16, hv⟩
    · exact .inl h0
    · exact .inr ⟨t, h.table, h16, hv, abandonedRange_open h h16 hv r⟩

/-- Settles O1: each field is read off the reset state; with the key halves empty no byte of them is other than 0. -/
theorem resetState : Obligations.ResetState :=
  ⟨getB_reset, nofun, nofun, rfl, rfl, rfl, rfl, rfl, rfl, rfl, rfl, rfl, rfl, rfl, rfl, step_idle rfl rfl⟩

end Sys2Proof.Proofs
end
